-- ==== Sys2Proof/Word.lean ====
section
/-! DEFINITION. The word types of the machine (spec/00_scope.md R9, R10, R11, spec/10_state.md R49). -/

namespace Sys2Proof

/-- 8 bits (R11). -/
abbrev Byte := BitVec 8

/-- 32 bits: one cell of cog memory, one register (R11). -/
abbrev Long := BitVec 32

/-- A cog address: 9 significant bits (R9). -/
abbrev CogAddr := BitVec 9

/-- A 64-bit pin vector, port A in bits 31:0 and port B in bits 63:32 (R49, R480). -/
abbrev Pins := BitVec 64

/-- The index of a unit, 0 to 7 (R7 `NUM_UNITS`, R9). -/
abbrev UnitIx := Fin 8

end Sys2Proof
end

