-- ==== Sys2Proof/Syntax.lean ====
section
/-! DEFINITION. The instructions: one constructor per row of spec/opcode_table.json (spec/30_encoding.md R100, R105, R107,
R113). Every instruction has the one format of R100, so every constructor but `nop` carries the same record of fields; what
a row fixes among them is checked in Sys2Proof/WellFormed.lean. -/

namespace Sys2Proof

/-- The source operand form (R103): a 9-bit literal, or the cell at a cog address. -/
inductive Src where
  | imm (n : BitVec 9)
  | reg (a : CogAddr)
deriving DecidableEq, Repr

/-- The fields of R100 other than the opcode: effect bits, condition code (the truth table of
spec/40_condition_evaluator.md R130), destination and source. -/
structure Fields where
  wz : Bool
  wc : Bool
  wr : Bool
  cond : BitVec 4
  d : CogAddr
  src : Src
deriving DecidableEq, Repr

/-- The fields of the long 0x00000000. -/
def Fields.zero : Fields :=
  { wz := false, wc := false, wr := false, cond := 0, d := 0, src := .reg 0 }

/-- The 83 rows of the opcode table. -/
inductive Instr where
  /-- RDBYTE, R221: read a byte of hub memory. -/
  | rdbyte (f : Fields)
  /-- WRBYTE, R224: write a byte to hub memory. -/
  | wrbyte (f : Fields)
  /-- RDWORD, R222: read a word of hub memory. -/
  | rdword (f : Fields)
  /-- WRWORD, R225: write a word to hub memory. -/
  | wrword (f : Fields)
  /-- RDLONG, R223: read a long of hub memory. -/
  | rdlong (f : Fields)
  /-- WRLONG, R226: write a long to hub memory. -/
  | wrlong (f : Fields)
  /-- CLKSET, R228: write the clock register. -/
  | clkset (f : Fields)
  /-- COGID, R230: read the own index. -/
  | cogid (f : Fields)
  /-- COGINIT, R231: start a unit. -/
  | coginit (f : Fields)
  /-- COGSTOP, R232: stop a unit. -/
  | cogstop (f : Fields)
  /-- LOCKNEW, R234: allocate a lock. -/
  | locknew (f : Fields)
  /-- LOCKRET, R235: free a lock. -/
  | lockret (f : Fields)
  /-- LOCKSET, R236: set a lock, old state to C. -/
  | lockset (f : Fields)
  /-- LOCKCLR, R237: clear a lock, old state to C. -/
  | lockclr (f : Fields)
  /-- HUBOP, R227: hub operation selected by S[2:0]. -/
  | hubop (f : Fields)
  /-- MUL, R238: reserved. -/
  | mul (f : Fields)
  /-- MULS, R239: reserved. -/
  | muls (f : Fields)
  /-- ENC, R240: reserved. -/
  | enc (f : Fields)
  /-- ONES, R241: reserved. -/
  | ones (f : Fields)
  /-- ROR, R261: rotate right. -/
  | ror (f : Fields)
  /-- ROL, R262: rotate left. -/
  | rol (f : Fields)
  /-- SHR, R263: logical shift right. -/
  | shr (f : Fields)
  /-- SHL, R264: shift left. -/
  | shl (f : Fields)
  /-- RCR, R265: shift right, C enters. -/
  | rcr (f : Fields)
  /-- RCL, R266: shift left, C enters. -/
  | rcl (f : Fields)
  /-- SAR, R267: arithmetic shift right. -/
  | sar (f : Fields)
  /-- REV, R268: reverse low bits. -/
  | rev (f : Fields)
  /-- MINS, R269: signed lower limit. -/
  | mins (f : Fields)
  /-- MAXS, R270: signed upper limit. -/
  | maxs (f : Fields)
  /-- MIN, R271: unsigned lower limit. -/
  | min (f : Fields)
  /-- MAX, R272: unsigned upper limit. -/
  | max (f : Fields)
  /-- MOVS, R273: replace the s field. -/
  | movs (f : Fields)
  /-- MOVD, R274: replace the d field. -/
  | movd (f : Fields)
  /-- MOVI, R275: replace bits 31:23. -/
  | movi (f : Fields)
  /-- JMPRET, R351: jump and store the return address (indirect target). -/
  | jmpret (f : Fields)
  /-- JMP, R352: jump. -/
  | jmp (f : Fields)
  /-- CALL, R353: jump and store the return address (literal target). -/
  | call (f : Fields)
  /-- RET, R354: jump to the literal 0. -/
  | ret (f : Fields)
  /-- AND, R276: bitwise and. -/
  | and (f : Fields)
  /-- TEST, R277: AND without the store. -/
  | test (f : Fields)
  /-- ANDN, R278: and with complement. -/
  | andn (f : Fields)
  /-- TESTN, R279: ANDN without the store. -/
  | testn (f : Fields)
  /-- OR, R280: bitwise or. -/
  | or (f : Fields)
  /-- XOR, R281: bitwise exclusive or. -/
  | xor (f : Fields)
  /-- MUXC, R282: masked bits to C. -/
  | muxc (f : Fields)
  /-- MUXNC, R283: masked bits to not C. -/
  | muxnc (f : Fields)
  /-- MUXZ, R284: masked bits to Z. -/
  | muxz (f : Fields)
  /-- MUXNZ, R285: masked bits to not Z. -/
  | muxnz (f : Fields)
  /-- ADD, R301: add. -/
  | add (f : Fields)
  /-- SUB, R302: subtract. -/
  | sub (f : Fields)
  /-- CMP, R303: SUB without the store. -/
  | cmp (f : Fields)
  /-- ADDABS, R304: add the absolute value. -/
  | addabs (f : Fields)
  /-- SUBABS, R305: subtract the absolute value. -/
  | subabs (f : Fields)
  /-- SUMC, R306: add or, if C, subtract. -/
  | sumc (f : Fields)
  /-- SUMNC, R307: add or, if not C, subtract. -/
  | sumnc (f : Fields)
  /-- SUMZ, R308: add or, if Z, subtract. -/
  | sumz (f : Fields)
  /-- SUMNZ, R309: add or, if not Z, subtract. -/
  | sumnz (f : Fields)
  /-- MOV, R310: copy. -/
  | mov (f : Fields)
  /-- NEG, R311: negate. -/
  | neg (f : Fields)
  /-- ABS, R312: absolute value. -/
  | abs (f : Fields)
  /-- ABSNEG, R313: negated absolute value. -/
  | absneg (f : Fields)
  /-- NEGC, R314: negate if C. -/
  | negc (f : Fields)
  /-- NEGNC, R315: negate if not C. -/
  | negnc (f : Fields)
  /-- NEGZ, R316: negate if Z. -/
  | negz (f : Fields)
  /-- NEGNZ, R317: negate if not Z. -/
  | negnz (f : Fields)
  /-- CMPS, R318: signed compare. -/
  | cmps (f : Fields)
  /-- CMPSX, R319: signed compare with borrow. -/
  | cmpsx (f : Fields)
  /-- ADDX, R320: add with carry. -/
  | addx (f : Fields)
  /-- SUBX, R321: subtract with borrow. -/
  | subx (f : Fields)
  /-- CMPX, R322: SUBX without the store. -/
  | cmpx (f : Fields)
  /-- ADDS, R323: signed add. -/
  | adds (f : Fields)
  /-- SUBS, R324: signed subtract. -/
  | subs (f : Fields)
  /-- ADDSX, R325: signed add with carry. -/
  | addsx (f : Fields)
  /-- SUBSX, R326: signed subtract with borrow. -/
  | subsx (f : Fields)
  /-- CMPSUB, R327: subtract if not below. -/
  | cmpsub (f : Fields)
  /-- DJNZ, R355: decrement, jump if not zero. -/
  | djnz (f : Fields)
  /-- TJNZ, R356: jump if not zero. -/
  | tjnz (f : Fields)
  /-- TJZ, R357: jump if zero. -/
  | tjz (f : Fields)
  /-- WAITPEQ, R358: wait for pins equal. -/
  | waitpeq (f : Fields)
  /-- WAITPNE, R359: wait for pins not equal. -/
  | waitpne (f : Fields)
  /-- WAITCNT, R360: wait for the counter, then add. -/
  | waitcnt (f : Fields)
  /-- WAITVID, R361: hand data to the waveform generator. -/
  | waitvid (f : Fields)
  /-- NOP, R108: no operation. -/
  | nop
deriving DecidableEq, Repr

/-- The fields an instruction carries; `nop` stands for the long 0x00000000 (R108). -/
def Instr.fields : Instr → Fields
  | .rdbyte f => f
  | .wrbyte f => f
  | .rdword f => f
  | .wrword f => f
  | .rdlong f => f
  | .wrlong f => f
  | .clkset f => f
  | .cogid f => f
  | .coginit f => f
  | .cogstop f => f
  | .locknew f => f
  | .lockret f => f
  | .lockset f => f
  | .lockclr f => f
  | .hubop f => f
  | .mul f => f
  | .muls f => f
  | .enc f => f
  | .ones f => f
  | .ror f => f
  | .rol f => f
  | .shr f => f
  | .shl f => f
  | .rcr f => f
  | .rcl f => f
  | .sar f => f
  | .rev f => f
  | .mins f => f
  | .maxs f => f
  | .min f => f
  | .max f => f
  | .movs f => f
  | .movd f => f
  | .movi f => f
  | .jmpret f => f
  | .jmp f => f
  | .call f => f
  | .ret f => f
  | .and f => f
  | .test f => f
  | .andn f => f
  | .testn f => f
  | .or f => f
  | .xor f => f
  | .muxc f => f
  | .muxnc f => f
  | .muxz f => f
  | .muxnz f => f
  | .add f => f
  | .sub f => f
  | .cmp f => f
  | .addabs f => f
  | .subabs f => f
  | .sumc f => f
  | .sumnc f => f
  | .sumz f => f
  | .sumnz f => f
  | .mov f => f
  | .neg f => f
  | .abs f => f
  | .absneg f => f
  | .negc f => f
  | .negnc f => f
  | .negz f => f
  | .negnz f => f
  | .cmps f => f
  | .cmpsx f => f
  | .addx f => f
  | .subx f => f
  | .cmpx f => f
  | .adds f => f
  | .subs f => f
  | .addsx f => f
  | .subsx f => f
  | .cmpsub f => f
  | .djnz f => f
  | .tjnz f => f
  | .tjz f => f
  | .waitpeq f => f
  | .waitpne f => f
  | .waitcnt f => f
  | .waitvid f => f
  | .nop => Fields.zero

/-- The opcode, bits 31:26 (R105). -/
def Instr.opcode : Instr → BitVec 6
  | .rdbyte _ => 0b000000#6
  | .wrbyte _ => 0b000000#6
  | .rdword _ => 0b000001#6
  | .wrword _ => 0b000001#6
  | .rdlong _ => 0b000010#6
  | .wrlong _ => 0b000010#6
  | .clkset _ => 0b000011#6
  | .cogid _ => 0b000011#6
  | .coginit _ => 0b000011#6
  | .cogstop _ => 0b000011#6
  | .locknew _ => 0b000011#6
  | .lockret _ => 0b000011#6
  | .lockset _ => 0b000011#6
  | .lockclr _ => 0b000011#6
  | .hubop _ => 0b000011#6
  | .mul _ => 0b000100#6
  | .muls _ => 0b000101#6
  | .enc _ => 0b000110#6
  | .ones _ => 0b000111#6
  | .ror _ => 0b001000#6
  | .rol _ => 0b001001#6
  | .shr _ => 0b001010#6
  | .shl _ => 0b001011#6
  | .rcr _ => 0b001100#6
  | .rcl _ => 0b001101#6
  | .sar _ => 0b001110#6
  | .rev _ => 0b001111#6
  | .mins _ => 0b010000#6
  | .maxs _ => 0b010001#6
  | .min _ => 0b010010#6
  | .max _ => 0b010011#6
  | .movs _ => 0b010100#6
  | .movd _ => 0b010101#6
  | .movi _ => 0b010110#6
  | .jmpret _ => 0b010111#6
  | .jmp _ => 0b010111#6
  | .call _ => 0b010111#6
  | .ret _ => 0b010111#6
  | .and _ => 0b011000#6
  | .test _ => 0b011000#6
  | .andn _ => 0b011001#6
  | .testn _ => 0b011001#6
  | .or _ => 0b011010#6
  | .xor _ => 0b011011#6
  | .muxc _ => 0b011100#6
  | .muxnc _ => 0b011101#6
  | .muxz _ => 0b011110#6
  | .muxnz _ => 0b011111#6
  | .add _ => 0b100000#6
  | .sub _ => 0b100001#6
  | .cmp _ => 0b100001#6
  | .addabs _ => 0b100010#6
  | .subabs _ => 0b100011#6
  | .sumc _ => 0b100100#6
  | .sumnc _ => 0b100101#6
  | .sumz _ => 0b100110#6
  | .sumnz _ => 0b100111#6
  | .mov _ => 0b101000#6
  | .neg _ => 0b101001#6
  | .abs _ => 0b101010#6
  | .absneg _ => 0b101011#6
  | .negc _ => 0b101100#6
  | .negnc _ => 0b101101#6
  | .negz _ => 0b101110#6
  | .negnz _ => 0b101111#6
  | .cmps _ => 0b110000#6
  | .cmpsx _ => 0b110001#6
  | .addx _ => 0b110010#6
  | .subx _ => 0b110011#6
  | .cmpx _ => 0b110011#6
  | .adds _ => 0b110100#6
  | .subs _ => 0b110101#6
  | .addsx _ => 0b110110#6
  | .subsx _ => 0b110111#6
  | .cmpsub _ => 0b111000#6
  | .djnz _ => 0b111001#6
  | .tjnz _ => 0b111010#6
  | .tjz _ => 0b111011#6
  | .waitpeq _ => 0b111100#6
  | .waitpne _ => 0b111101#6
  | .waitcnt _ => 0b111110#6
  | .waitvid _ => 0b111111#6
  | .nop => 0b000000#6

end Sys2Proof
end

