-- ==== Sys2Proof/WellFormed.lean ====
section
/-! DEFINITION. Which terms of `Instr` are the spelling of a word: the bits that a row of spec/opcode_table.json fixes, and,
where two rows fit one word, the more specific row (spec/30_encoding.md R106, R107, R113; assumption 8). -/

namespace Sys2Proof

/-- The source is a literal. -/
def Src.isImm : Src → Bool
  | .imm _ => true
  | .reg _ => false

/-- A named hub operation is the literal `n` in the source field (R107, R113). -/
def Fields.selects (f : Fields) (n : BitVec 9) : Bool := f.src == .imm n

/-- The literal source is one of the eight selectors of R107, so the word is a named hub operation. -/
def Fields.isNamedHubOp (f : Fields) : Bool :=
  match f.src with
  | .imm n => decide (n.toNat < 8)
  | .reg _ => false

/-- The operand fields of RET: `d` = 0 and the literal 0 (R113). -/
def Fields.isRet (f : Fields) : Bool := f.d == 0 && f.src == .imm 0

/-- The instruction is the spelling of its word. -/
def Instr.wellFormed : Instr → Bool
  | .rdbyte f => f.wr
  | .wrbyte f => !f.wr && !(f == Fields.zero)
  | .rdword f => f.wr
  | .wrword f => !f.wr
  | .rdlong f => f.wr
  | .wrlong f => !f.wr
  | .clkset f => f.selects 0
  | .cogid f => f.selects 1
  | .coginit f => f.selects 2
  | .cogstop f => f.selects 3
  | .locknew f => f.selects 4
  | .lockret f => f.selects 5
  | .lockset f => f.selects 6
  | .lockclr f => f.selects 7
  | .hubop f => !f.isNamedHubOp
  | .mul _ => true
  | .muls _ => true
  | .enc _ => true
  | .ones _ => true
  | .ror _ => true
  | .rol _ => true
  | .shr _ => true
  | .shl _ => true
  | .rcr _ => true
  | .rcl _ => true
  | .sar _ => true
  | .rev _ => true
  | .mins _ => true
  | .maxs _ => true
  | .min _ => true
  | .max _ => true
  | .movs _ => true
  | .movd _ => true
  | .movi _ => true
  | .jmpret f => f.wr && !f.src.isImm
  | .jmp f => !f.wr && !f.isRet
  | .call f => f.wr && f.src.isImm
  | .ret f => !f.wr && f.isRet
  | .and f => f.wr
  | .test f => !f.wr
  | .andn f => f.wr
  | .testn f => !f.wr
  | .or _ => true
  | .xor _ => true
  | .muxc _ => true
  | .muxnc _ => true
  | .muxz _ => true
  | .muxnz _ => true
  | .add _ => true
  | .sub f => f.wr
  | .cmp f => !f.wr
  | .addabs _ => true
  | .subabs _ => true
  | .sumc _ => true
  | .sumnc _ => true
  | .sumz _ => true
  | .sumnz _ => true
  | .mov _ => true
  | .neg _ => true
  | .abs _ => true
  | .absneg _ => true
  | .negc _ => true
  | .negnc _ => true
  | .negz _ => true
  | .negnz _ => true
  | .cmps _ => true
  | .cmpsx _ => true
  | .addx _ => true
  | .subx f => f.wr
  | .cmpx f => !f.wr
  | .adds _ => true
  | .subs _ => true
  | .addsx _ => true
  | .subsx _ => true
  | .cmpsub _ => true
  | .djnz _ => true
  | .tjnz _ => true
  | .tjz _ => true
  | .waitpeq _ => true
  | .waitpne _ => true
  | .waitcnt _ => true
  | .waitvid _ => true
  | .nop => true

end Sys2Proof
end

