-- ==== Sys2Proof/Decode.lean ====
section
/-! DEFINITION. Decoding and encoding (spec/30_encoding.md R100, R101, R105, R106, R107, R113, R114). Decoding is total: every
32-bit value is one instruction (R101). -/

namespace Sys2Proof

/-- Bits 31:26 (R100). -/
def opField (w : Long) : BitVec 6 := w.extractLsb' 26 6

/-- The other fields of R100. -/
def fieldsOf (w : Long) : Fields :=
  { wz := w.getLsbD 25
    wc := w.getLsbD 24
    wr := w.getLsbD 23
    cond := w.extractLsb' 18 4
    d := w.extractLsb' 9 9
    src := if w.getLsbD 22 then .imm (w.extractLsb' 0 9) else .reg (w.extractLsb' 0 9) }

/-- Opcode 000011: the eight named forms are a literal 0 to 7, every other source is the generic form (R107, R113). -/
def decodeHubOp (f : Fields) : Instr :=
  match f.src with
  | .reg _ => .hubop f
  | .imm n =>
    match n.toNat with
    | 0 => .clkset f
    | 1 => .cogid f
    | 2 => .coginit f
    | 3 => .cogstop f
    | 4 => .locknew f
    | 5 => .lockret f
    | 6 => .lockset f
    | 7 => .lockclr f
    | _ => .hubop f

/-- Opcode 010111: JMPRET, CALL, JMP, RET (R106, R113). -/
def decodeJump (f : Fields) : Instr :=
  if f.wr then (if f.src.isImm then .call f else .jmpret f)
  else (if f.isRet then .ret f else .jmp f)

/-- The opcode map of R105, with the pairs of R106. -/
def decodeOp (op : Nat) (f : Fields) : Instr :=
  match op with
  | 0b000000 => if f.wr then .rdbyte f else .wrbyte f
  | 0b000001 => if f.wr then .rdword f else .wrword f
  | 0b000010 => if f.wr then .rdlong f else .wrlong f
  | 0b000011 => decodeHubOp f
  | 0b000100 => .mul f
  | 0b000101 => .muls f
  | 0b000110 => .enc f
  | 0b000111 => .ones f
  | 0b001000 => .ror f
  | 0b001001 => .rol f
  | 0b001010 => .shr f
  | 0b001011 => .shl f
  | 0b001100 => .rcr f
  | 0b001101 => .rcl f
  | 0b001110 => .sar f
  | 0b001111 => .rev f
  | 0b010000 => .mins f
  | 0b010001 => .maxs f
  | 0b010010 => .min f
  | 0b010011 => .max f
  | 0b010100 => .movs f
  | 0b010101 => .movd f
  | 0b010110 => .movi f
  | 0b010111 => decodeJump f
  | 0b011000 => if f.wr then .and f else .test f
  | 0b011001 => if f.wr then .andn f else .testn f
  | 0b011010 => .or f
  | 0b011011 => .xor f
  | 0b011100 => .muxc f
  | 0b011101 => .muxnc f
  | 0b011110 => .muxz f
  | 0b011111 => .muxnz f
  | 0b100000 => .add f
  | 0b100001 => if f.wr then .sub f else .cmp f
  | 0b100010 => .addabs f
  | 0b100011 => .subabs f
  | 0b100100 => .sumc f
  | 0b100101 => .sumnc f
  | 0b100110 => .sumz f
  | 0b100111 => .sumnz f
  | 0b101000 => .mov f
  | 0b101001 => .neg f
  | 0b101010 => .abs f
  | 0b101011 => .absneg f
  | 0b101100 => .negc f
  | 0b101101 => .negnc f
  | 0b101110 => .negz f
  | 0b101111 => .negnz f
  | 0b110000 => .cmps f
  | 0b110001 => .cmpsx f
  | 0b110010 => .addx f
  | 0b110011 => if f.wr then .subx f else .cmpx f
  | 0b110100 => .adds f
  | 0b110101 => .subs f
  | 0b110110 => .addsx f
  | 0b110111 => .subsx f
  | 0b111000 => .cmpsub f
  | 0b111001 => .djnz f
  | 0b111010 => .tjnz f
  | 0b111011 => .tjz f
  | 0b111100 => .waitpeq f
  | 0b111101 => .waitpne f
  | 0b111110 => .waitcnt f
  | _ => .waitvid f

/-- The instruction a long stands for. The long 0x00000000 is NOP (R108); every other long whose condition is never is decoded
by its opcode and skipped when it runs, which R101 and R108 make the same thing (assumption 8). -/
def decode (w : Long) : Instr :=
  if w = 0 then .nop else decodeOp (opField w).toNat (fieldsOf w)

/-- Why a bit string is no instruction: no instruction is longer or shorter than one long (R100, R111). -/
inductive DecodeError where
  /-- The string is not within one long. -/
  | notOneLong
deriving DecidableEq, Repr

/-- An instruction given as a number of bits and their value, bit 0 the least significant; the bits above are 0. -/
def decodeBits (nbits w : Nat) : Except DecodeError Instr :=
  if nbits ≤ 32 ∧ w < 2 ^ 32 then .ok (decode (BitVec.ofNat 32 w)) else .error .notOneLong

/-- The instruction the decoder reads from the word of an opcode-table row. -/
def decodeTableWord (nbits w : Nat) : Option Instr :=
  match decodeBits nbits w with
  | .ok i => some i
  | .error _ => none

/-- The `imm` bit of a source operand (R100). -/
def Src.immBit (s : Src) : Bool := s.isImm

/-- The nine bits of a source operand (R100). -/
def Src.bits : Src → BitVec 9
  | .imm n => n
  | .reg a => a

/-- One long from an opcode and the fields (R114). -/
def assemble (op : BitVec 6) (f : Fields) : Long :=
  op ++ BitVec.ofBool f.wz ++ BitVec.ofBool f.wc ++ BitVec.ofBool f.wr ++ BitVec.ofBool f.src.immBit
    ++ f.cond ++ f.d ++ f.src.bits

/-- The long of an instruction (R114). -/
def encode (i : Instr) : Long := assemble i.opcode i.fields

end Sys2Proof
end

