-- ==== Sys2Proof/Config.lean ====
section
/-! DEFINITION. What the spec leaves open (spec/00_scope.md R8, spec/93_implementation_defined.md): every value here is an
opaque constant, so that no proof can depend on it. The parameters to which the spec gives a value stand in
Sys2Proof/Machine/Params.lean. -/

namespace Sys2Proof

/-- Which of a unit's two counters (spec/10_state.md R59). -/
inductive CtrSel where
  | a | b
deriving DecidableEq, Repr

/-- The two instruction-execution variants a unit may use (spec/10_state.md R54). -/
inductive Strategy where
  | native | interpreted
deriving DecidableEq, Repr

/-- The places of one unit's tick at which the spec draws an open value (`any32`, `anybit`, spec/00_scope.md R12). Each
place is reached at most once per unit and tick; the two video places also carry the number of the clock edge. -/
inductive Draw where
  /-- The result `R` of an instruction (U5, U6, U7). -/
  | result
  /-- The offered Z flag of an instruction (U2, U5, U6, U7). -/
  | flagZ
  /-- The offered C flag of an instruction (U2 to U7). -/
  | flagC
  /-- What the waveform generator loads into `colors` when no WAITVID is pending (U15). -/
  | colors (edge : Nat)
  /-- What the waveform generator loads into `pixels` when no WAITVID is pending (U15). -/
  | pixels (edge : Nat)
deriving DecidableEq, Repr

/-- `any32`: the open 32-bit value of a place, in a tick, for a unit (assumption 2). -/
opaque Config.anyLong : (tick : Nat) → UnitIx → Draw → Long

/-- `anybit`: the open bit of a place, in a tick, for a unit (assumption 2). -/
opaque Config.anyBit : (tick : Nat) → UnitIx → Draw → Bool

/-- `ROM_IMAGE`: hub bytes 0x8000 to 0xFFFF, by offset from 0x8000 (spec/20_memory.md R73, assumption 3). -/
opaque Config.romImage : (offset : Nat) → Byte

/-- `ext`: the external pin drive of a tick for which the environment's queue holds none (spec/10_state.md R62,
assumption 4). -/
opaque Config.extDrive : (tick : Nat) → Pins

/-- `vclk(k, t)`: video-clock edges of unit k in tick t while its generator is attached and its counter A is in a PLL mode
(spec/49_video_pll_pins.md R475, assumption 5). -/
opaque Config.vclk : UnitIx → (tick : Nat) → Nat

/-- Where the end of a pixel within a frame takes the next pixel's length from: true, the present `VSCL`, as the code of
spec/49_video_pll_pins.md R464 reads; false, the count that the last frame reload took, as R461 and
spec/70_reset_and_hazards.md R552 say. The spec decides not between them (assumption 20). -/
opaque Config.pixelFromVscl : Bool

/-- `pll_out(k, g, t)`: the pin level of counter g of unit k in the PLL output modes (spec/48_counter.md R432, assumption 5). -/
opaque Config.pllOut : UnitIx → CtrSel → (tick : Nat) → Bool

/-- The level of the aural side channel that timing-lock group j supplies in a tick (spec/49_video_pll_pins.md R470, R474,
assumption 6). -/
opaque Config.aural : (group : UnitIx) → (tick : Nat) → Bool

/-- `composite_encode(vidOut, VCFG, aural, phase)`: the pin byte of the composite video modes; the phase is given by the tick
(spec/49_video_pll_pins.md R467, assumption 6). -/
opaque Config.compositeEncode : Byte → (vcfg : Long) → (aural : Option Bool) → (tick : Nat) → Byte

end Sys2Proof
end

