-- ==== Sys2Proof/Machine/Params.lean ====
section
/-! DEFINITION. The parameters to which the spec gives a value (spec/00_scope.md R7, R8), named as the spec names them, so that
a claim can name them too. -/

namespace Sys2Proof.Machine

/-- `SPR_BASE` = `BOOT_THRESHOLD` = 0x1F0: the first special-register address and the number of plain cells (R7, R20). -/
def sprBase : Nat := 0x1F0

/-- `HUB_BYTES`: the size of the hub address space (R8, spec/20_memory.md R72). -/
def hubBytes : Nat := 0x10000

/-- `HUB_RAM_BYTES`: the writable part, and the largest image (R8, spec/20_memory.md R73). -/
def hubRamBytes : Nat := 0x8000

/-- `HUB_PERIOD`: ticks between two windows of one unit (R8, spec/47_hub_arbiter.md R383). -/
def hubPeriod : Nat := 16

/-- `HUB_PHASE`: the offset between `systemCounter` and the window ring (R8, assumption 7). -/
def hubPhase : Nat := 0

/-- The pins that the environment reaches: the P8X32A (decision D1) bonds out pins 0 to 31 and ties `ext[63:32]` to 0
(spec/49_video_pll_pins.md R486, assumption 19). -/
def bondedPins : Pins := 0x00000000FFFFFFFF

/-- `T_INSTR`: ticks of an ordinary instruction, executed or skipped (R8). -/
def tInstr : Nat := 4

/-- `T_NOJUMP`: ticks of DJNZ, TJNZ, TJZ when the jump is not taken (R8). -/
def tNoJump : Nat := 8

/-- `WAIT_TAIL`: ticks after a satisfied WAITPEQ, WAITPNE or WAITCNT test (R8). -/
def waitTail : Nat := 4

/-- `VID_TAIL`: ticks after a satisfied WAITVID test (R8). -/
def vidTail : Nat := 2

/-- `HUB_PRE`: ticks between the execute tick and the first tick a window can be taken (R8). -/
def hubPre : Nat := 2

/-- `HUB_TAIL`: the countdown a hub transaction loads (R8). -/
def hubTail : Nat := 5

/-- `ID_SLOT`: the cog address at which the identification value reads, if any (R8, spec/10_state.md R40, assumption 7). -/
def idSlot : Option CogAddr := none

/-- `WAIT_PORT_BY_C`: whether WAITPEQ and WAITPNE test port B when C = 1 (R8, assumption 7). -/
def waitPortByC : Bool := false

/-- `COGINIT_STRATEGY(addr)` (R8, spec/47_hub_arbiter.md R396, assumption 7). -/
def coginitStrategy (_programAddress : Long) : Strategy := .native

/-- What a unit is started with: strategy, program address, parameter (spec/00_scope.md R15, "boot vector"). -/
structure BootVector where
  strategy : Strategy
  programAddress : Long
  paramAddress : Long
deriving DecidableEq, Repr

/-- `BOOT_VECTOR[k]`: unit 0 only, native, from hub address 0 with parameter 0 (spec/70_reset_and_hazards.md R532,
assumption 7). -/
def bootVector (k : UnitIx) : Option BootVector :=
  if k = 0 then some { strategy := .native, programAddress := 0, paramAddress := 0 } else none

end Sys2Proof.Machine
end

