-- ==== Sys2Proof/Machine/State.lean ====
section
/-! DEFINITION. Every piece of state of the machine (spec/10_state.md R20 to R63), as plain data, and its value after reset. -/

namespace Sys2Proof.Machine

/-- Why the machine would stop with a fault. There is no reason: no instruction, no address and no configuration raises
anything (spec/60_exceptions.md R500 to R504), so the type has no constructor. -/
inductive Fault where
deriving DecidableEq, Repr

/-- Why a step, or a call of the host port, has no meaning. -/
inductive Refusal where
  /-- Raised by an arm of `exec` that has no meaning yet; no arm raises it now. Safe: the machine stops. -/
  | notModelled (mnemonic : String)
  /-- Raised by MUL when its condition holds (R109, R238, U1). Safe: the machine stops. -/
  | reservedMul
  /-- Raised by MULS when its condition holds (R109, R239, U1). Safe: the machine stops. -/
  | reservedMuls
  /-- Raised by ENC when its condition holds (R109, R240, U1). Safe: the machine stops. -/
  | reservedEnc
  /-- Raised by ONES when its condition holds (R109, R241, U1). Safe: the machine stops. -/
  | reservedOnes
  /-- Raised by `boot()` of a unit of the interpreted strategy and by its execution states (R172, U17). Safe: the machine
  stops; with the parameters taken no program reaches it. -/
  | interpretedStrategy
  /-- Raised by the host's `loadImage` for an image longer than hub RAM (R531). Safe: no state results. -/
  | imageTooLong
  /-- Raised by the host's direct step of one unit (R513, U22). Safe: no state results. -/
  | hostUnitStep
  /-- Raised by a host call that names an empty slot (R43, assumption 14). Safe: no state results. -/
  | hostEmptySlot
deriving DecidableEq, Repr

/-- Memory cells of one width by address; an address that is not listed holds zero (R63, spec/20_memory.md R74). -/
abbrev Cells (w : Nat) := List (Nat × BitVec w)

/-- The fifteen run states (R50). -/
inductive RunState where
  | executingInstruction | loadingProgram | waitingCycles | waitingPrewait | bootingInterpreter | waitingInterpreter
  | fetchingInterpreter | waitingPinsEqual | waitingPinsNotEqual | waitingCounter | waitingVideo | hubReadByte | hubReadWord
  | hubReadLong | hubOperation
deriving DecidableEq, Repr

/-- Which transaction HubOperation performs (R57). -/
inductive HubKind where
  | wrbyte | wrword | wrlong | clkset | cogid | coginit | cogstop | locknew | lockret | lockset | lockclr
deriving DecidableEq, Repr

/-- The write-back latch (R56) but for `pcNext`. -/
structure WriteBack where
  destEn : Bool
  dest : CogAddr
  val : Long
  zEn : Bool
  z : Bool
  cEn : Bool
  c : Bool
deriving DecidableEq, Repr

/-- The run-state machine of a unit with the latches its states carry (R50, R51, R55, R56, R57). -/
structure Pipe where
  runState : RunState
  nextState : RunState
  stateArg : BitVec 32
  ir : Long
  wb : WriteBack
  pcNext : CogAddr
  opD : Long
  opS : Long
  opIR : Long
  hubKind : HubKind
deriving DecidableEq, Repr

/-- One counter (R59): its registers, its registered outputs, its input taps, and the output contribution that its last tick
returned, which is held until the next one (spec/48_counter.md R420). -/
structure Counter where
  ctr : Long
  frq : Long
  phs : Long
  outA : Bool
  outB : Bool
  a1 : Bool
  a2 : Bool
  b1 : Bool
  held : Pins
deriving DecidableEq, Repr

/-- The waveform generator, its output-pin contribution as last recomputed (R60, spec/49_video_pll_pins.md R463, R467), and its
link to the timing-lock group (R61). `pixelLen` is the number of video clocks per pixel that the last frame reload took from
`VSCL` (spec/49_video_pll_pins.md R461, spec/70_reset_and_hazards.md R552; assumption 20). -/
structure Video where
  vcfg : Long
  vscl : Long
  pixels : Long
  colors : Long
  frameCnt : BitVec 13
  pixelCnt : BitVec 9
  pixelLen : BitVec 9
  vidOut : Byte
  vidAck : Bool
  pllAttached : Bool
  held : Pins
deriving DecidableEq, Repr

/-- One slot of `hub.units` with its presence bit `active` (R43) and the unit it holds (R20 to R61). -/
structure CogUnit where
  active : Bool
  mem : Cells 32
  pc : CogAddr
  c : Bool
  z : Bool
  par : Long
  outa : Long
  outb : Long
  dira : Long
  dirb : Long
  ctrA : Counter
  ctrB : Counter
  vid : Video
  pipe : Pipe
  programAddress : Long
  count : Nat
  breakpoint : Option CogAddr
  strategy : Strategy
  pcFresh : Bool
deriving DecidableEq, Repr

/-- The machine: the shared bus (R43 to R49), its eight slots, and four fields of the model's own. -/
structure State where
  /-- `globalMemory`: the RAM bytes (R47). -/
  mem : List Host.Cell
  /-- `systemCounter` (R48). -/
  counter : Long
  /-- `pinOutputs` (R49). -/
  pinOut : Pins
  /-- `pinDirections` (R49). -/
  pinDir : Pins
  /-- `pinInputs` = `IN` (R49). -/
  pinIn : Pins
  /-- `hub.units[k]` and `active[k]` (R43). -/
  units : Vector CogUnit 8
  /-- `lockAlloc` (R44). -/
  lockAlloc : BitVec 8
  /-- `lockState` (R44). -/
  lockState : BitVec 8
  /-- `hub.CLK` (R45). -/
  clk : BitVec 8
  /-- Model's own: the Boolean that the last global step returned (R380 sub-step 6, R381). -/
  stepOk : Bool
  /-- Model's own: the unit whose sub-step of the tick is running; 0 between ticks (assumption 9). -/
  cur : UnitIx
  /-- Model's own: the number of ticks so far, which indexes the open values (assumption 2). -/
  tick : Nat
  /-- Model's own: the external drives `ext` the environment supplies for the coming ticks, the next one first
  (assumption 4). -/
  extQueue : List Pins
deriving DecidableEq, Repr

/-- Creation values of the write-back latch; R63 leaves them unspecified (assumption 10). -/
def WriteBack.created : WriteBack :=
  { destEn := false, dest := 0, val := 0, zEn := false, z := false, cEn := false, c := false }

/-- Creation values of the run-state machine (R50, R51, R63; the latches: assumption 10). -/
def Pipe.created : Pipe :=
  { runState := .loadingProgram, nextState := .executingInstruction, stateArg := 0, ir := 0, wb := WriteBack.created,
    pcNext := 0, opD := 0, opS := 0, opIR := 0, hubKind := .wrbyte }

/-- Creation values of a counter (R59, R63). -/
def Counter.created : Counter :=
  { ctr := 0, frq := 0, phs := 0, outA := false, outB := false, a1 := false, a2 := false, b1 := false,
    held := 0 }

/-- Creation values of the waveform generator (R60, R61, R63); `pixelLen` has the meaning of `VSCL` 0, as `pixelCnt` has (R39,
assumption 20). -/
def Video.created : Video :=
  { vcfg := 0, vscl := 0, pixels := 0, colors := 0, frameCnt := 4096, pixelCnt := 256, pixelLen := 256,
    vidOut := 0, vidAck := false, pllAttached := false, held := 0 }

/-- A new unit (R63, spec/47_hub_arbiter.md R396). -/
def CogUnit.create (strategy : Strategy) (programAddress parameter : Long) : CogUnit :=
  { active := true, mem := [], pc := 0, c := false, z := false, par := parameter, outa := 0, outb := 0, dira := 0, dirb := 0,
    ctrA := Counter.created, ctrB := Counter.created, vid := Video.created, pipe := Pipe.created,
    programAddress := programAddress, count := 0, breakpoint := none, strategy := strategy, pcFresh := false }

/-- An empty slot: the presence bit is 0 and nothing of the unit that was there is left (R43, R397, assumption 11). -/
def CogUnit.vacant : CogUnit := { CogUnit.create .native 0 0 with active := false }

/-- What slot `k` holds after a chip reset (R63, spec/70_reset_and_hazards.md R530, R532). -/
def CogUnit.atReset (k : UnitIx) : CogUnit :=
  match bootVector k with
  | some v => CogUnit.create v.strategy v.programAddress v.paramAddress
  | none => CogUnit.vacant

/-- The eight slots after a chip reset. -/
def unitsAtReset : Vector CogUnit 8 :=
  #v[CogUnit.atReset 0, CogUnit.atReset 1, CogUnit.atReset 2, CogUnit.atReset 3, CogUnit.atReset 4, CogUnit.atReset 5,
    CogUnit.atReset 6, CogUnit.atReset 7]

/-- The machine right after reset, before any image is loaded: hub RAM holds zero (R63, R530). -/
def State.reset : State :=
  { mem := [], counter := 0, pinOut := 0, pinDir := 0, pinIn := 0, units := unitsAtReset, lockAlloc := 0, lockState := 0,
    clk := 0, stepOk := true, cur := 0, tick := 0, extQueue := [] }

/-- The unit whose sub-step is running. -/
def State.unit (s : State) : CogUnit := s.units[s.cur]

/-- Replace one slot. -/
def State.setSlot (s : State) (k : UnitIx) (u : CogUnit) : State := { s with units := s.units.set k u }

/-- Replace the running unit. -/
def State.setUnit (s : State) (u : CogUnit) : State := s.setSlot s.cur u

/-- Replace the running unit's run-state machine and latches. -/
def State.setPipe (s : State) (p : Pipe) : State := s.setUnit { s.unit with pipe := p }

end Sys2Proof.Machine
end

