-- ==== Sys2Proof/Machine/Memory.lean ====
section
/-! DEFINITION. Cells by address in one canonical form, and hub memory (spec/20_memory.md R70 to R80). -/

namespace Sys2Proof.Machine

/-- The value at an address: zero where nothing is listed (R63, R74). -/
def Cells.get {w : Nat} : Cells w → Nat → BitVec w
  | [], _ => 0#w
  | (b, x) :: rest, a => if a = b then x else Cells.get rest a

/-- Store a value, keeping the addresses rising and zeros unlisted. -/
def Cells.put {w : Nat} : Cells w → Nat → BitVec w → Cells w
  | [], a, v => if v = 0#w then [] else [(a, v)]
  | (b, x) :: rest, a, v =>
    if a < b then (if v = 0#w then (b, x) :: rest else (a, v) :: (b, x) :: rest)
    else if a = b then (if v = 0#w then rest else (a, v) :: rest)
    else (b, x) :: Cells.put rest a v

/-- Addresses strictly rising from `lo` and below `bound`, and no listed zero. -/
def Cells.canonicalFrom {w : Nat} (bound : Nat) : Nat → Cells w → Bool
  | _, [] => true
  | lo, (a, v) :: rest => decide (lo ≤ a) && decide (a < bound) && decide (v ≠ 0#w) && Cells.canonicalFrom bound (a + 1) rest

/-- The canonical form of cells with addresses below `bound`. -/
def Cells.canonical {w : Nat} (bound : Nat) (m : Cells w) : Bool := Cells.canonicalFrom bound 0 m

/-- The canonical form of hub RAM: only addresses of RAM are listed (R73). -/
def Memory.wf (m : List Host.Cell) : Bool := Cells.canonical hubRamBytes m

/-- The canonical form of a unit's plain cells (R20). -/
def CogUnit.memWf (u : CogUnit) : Bool := Cells.canonical sprBase u.mem

/-- A hub address reduced modulo `HUB_BYTES`, with the low bits cleared to a multiple of `n` (R74, R76, R78). -/
def hubAlign (addr : Long) (n : Nat) : Nat :=
  let a := addr.toNat % hubBytes
  a - a % n

/-- One byte of hub memory at a byte address of the hub space: RAM, or ROM above it (R73, R76). -/
def hubByte (m : List Host.Cell) (a : Nat) : Byte :=
  if a < hubRamBytes then Cells.get m a else Config.romImage (a - hubRamBytes)

/-- Store one byte; a byte in ROM is left unchanged (R73, R77). -/
def hubPutByte (m : List Host.Cell) (a : Nat) (v : Byte) : List Host.Cell :=
  if a < hubRamBytes then Cells.put m a v else m

/-- Byte `i` of a long, byte 0 the least significant (R75). -/
def byteOf (v : Long) (i : Nat) : Byte := v.extractLsb' (8 * i) 8

/-- The `n` bytes from `a` upward, the one at the lowest address least significant (R75, R76), zero-extended to 32 bits. -/
def hubBytesLE (m : List Host.Cell) (a : Nat) : Nat → Long
  | 0 => 0
  | n + 1 => (hubBytesLE m (a + 1) n <<< 8) ||| (hubByte m a).setWidth 32

/-- Store the low `n` bytes of a long from `a` upward, least significant first (R75, R77). -/
def hubPutBytesLE (m : List Host.Cell) (a : Nat) (v : Long) : Nat → List Host.Cell
  | 0 => m
  | n + 1 => hubPutByte (hubPutBytesLE m a v n) (a + n) (byteOf v n)

/-- `MemRead(addr, n)`, zero-extended to 32 bits (R76). -/
def memRead (m : List Host.Cell) (addr : Long) (n : Nat) : Long := hubBytesLE m (hubAlign addr n) n

/-- `MemWrite(addr, n, v)` (R77). -/
def memWrite (m : List Host.Cell) (addr : Long) (n : Nat) (v : Long) : List Host.Cell :=
  hubPutBytesLE m (hubAlign addr n) v n

end Sys2Proof.Machine
end

