-- ==== Sys2Proof/Machine/Flags.lean ====
section
/-! DEFINITION. The condition evaluator (spec/40_condition_evaluator.md) and the flag computations of the native instructions
(spec/44_native_shift_logic.md R286, spec/45_native_arith.md R328). -/

namespace Sys2Proof.Machine

/-- `evaluate(code, C, Z) = code[2*C + Z]` (R130). -/
def evaluate (code : BitVec 4) (c z : Bool) : Bool := code.getLsbD (2 * c.toNat + z.toNat)

/-- What an instruction computes from: the operand values and the flags of the execute tick (spec/00_scope.md R14). -/
structure Inputs where
  d : Long
  s : Long
  c : Bool
  z : Bool
deriving DecidableEq, Repr

/-- What an instruction offers for write-back: the result and the two flags (R14). -/
structure Result where
  r : Long
  c : Bool
  z : Bool
deriving DecidableEq, Repr

/-- 1 when the value has an odd number of 1 bits (spec/00_scope.md R12). -/
def parity (v : Long) : Bool := (List.range 32).foldl (fun p i => p ^^ v.getLsbD i) false

/-- All 32 bits a copy of one (R10). -/
def fill (b : Bool) : Long := if b then BitVec.allOnes 32 else 0

/-- A result whose Z is "the result is zero". -/
def Result.zeroFlag (r : Long) (c : Bool) : Result := { r := r, c := c, z := r == 0 }

/-- Narrow an exact unsigned sum or difference: C is the carry or the borrow (R301, R302, R320, R321). -/
def Result.unsigned (t : Int) : Result :=
  Result.zeroFlag (BitVec.ofInt 32 t) (decide (t < 0 ∨ 2 ^ 32 ≤ t))

/-- Narrow an exact signed sum or difference: C is the signed overflow (R300, R306, R323). -/
def Result.signed (t : Int) : Result :=
  Result.zeroFlag (BitVec.ofInt 32 t) (decide (t < -(2 ^ 31) ∨ 2 ^ 31 ≤ t))

/-- The Z of the multi-long instructions: it stays 1 only if it was 1 (R319, R320). -/
def Result.extended (x : Inputs) (res : Result) : Result := { res with z := x.z && res.z }

/-- The Z of the limit instructions is "S is zero" (spec/44_native_shift_logic.md, section 2). -/
def Result.limit (x : Inputs) (r : Long) (c : Bool) : Result := { r := r, c := c, z := x.s == 0 }

/-- C of the logic instructions is the parity of the result (spec/44_native_shift_logic.md, section 4). -/
def Result.logic (r : Long) : Result := Result.zeroFlag r (parity r)

/-- C of the moves is the sign of the source (spec/45_native_arith.md, section 3). -/
def Result.move (x : Inputs) (r : Long) : Result := Result.zeroFlag r x.s.msb

/-- `(0 - S) mod 2^32`. -/
def negate (v : Long) : Long := 0 - v

/-- |S| as an unsigned number; 0x80000000 gives itself (R304, R312). -/
def absLong (v : Long) : Long := if v.msb then negate v else v

/-- A flag as the number added or subtracted by the extended instructions (R320). -/
def carryIn (x : Inputs) : Int := x.c.toNat

end Sys2Proof.Machine
end

