-- ==== Sys2Proof/Machine/Operands.lean ====
section
/-! DEFINITION. The register-access contract (spec/42_special_registers.md R190 to R194) and the operands of an instruction
(spec/30_encoding.md R103, R104). -/

namespace Sys2Proof.Machine

/-- What a cog address names (R192). -/
inductive CogLoc where
  | cell (a : Nat)
  | ident
  | par | cnt | ina | inb | outa | outb | dira | dirb | ctra | ctrb | frqa | frqb | phsa | phsb | vcfg | vscl
deriving DecidableEq, Repr

/-- The sixteen slots of the special-register window by their offset from 0x1F0 (spec/10_state.md R29). -/
def sprAt (offset : Nat) : CogLoc :=
  match offset with
  | 0 => .par
  | 1 => .cnt
  | 2 => .ina
  | 3 => .inb
  | 4 => .outa
  | 5 => .outb
  | 6 => .dira
  | 7 => .dirb
  | 8 => .ctra
  | 9 => .ctrb
  | 10 => .frqa
  | 11 => .frqb
  | 12 => .phsa
  | 13 => .phsb
  | 14 => .vcfg
  | _ => .vscl

/-- The dispatch by address range (R192), with the identification slot if there is one (spec/10_state.md R40). -/
def locate (a : CogAddr) : CogLoc :=
  if idSlot = some a then .ident
  else if a.toNat < sprBase then .cell a.toNat
  else sprAt (a.toNat - sprBase)

/-- What a unit's reads see of the shared bus: its own index, `systemCounter` and `IN` (R196). -/
structure View where
  index : UnitIx
  counter : Long
  pins : Pins
deriving DecidableEq, Repr

/-- `read(u, a)` at a target (R190). -/
def CogUnit.readLoc (u : CogUnit) (v : View) : CogLoc → Long
  | .cell a => Cells.get u.mem a
  | .ident => BitVec.ofNat 32 v.index.val
  | .par => u.par
  | .cnt => v.counter
  | .ina => v.pins.extractLsb' 0 32
  | .inb => v.pins.extractLsb' 32 32
  | .outa => u.outa
  | .outb => u.outb
  | .dira => u.dira
  | .dirb => u.dirb
  | .ctra => u.ctrA.ctr
  | .ctrb => u.ctrB.ctr
  | .frqa => u.ctrA.frq
  | .frqb => u.ctrB.frq
  | .phsa => u.ctrA.phs
  | .phsb => u.ctrB.phs
  | .vcfg => u.vid.vcfg
  | .vscl => u.vid.vscl

/-- `VCFG.VMODE`, bits 30:29 (spec/10_state.md R38). -/
def vmode (vcfg : Long) : BitVec 2 := vcfg.extractLsb' 29 2

/-- A write of VCFG also attaches or detaches the generator (R191, spec/49_video_pll_pins.md R471, R472). The pin contribution is
kept until the next video clock (R461, R463), except that a disabled generator contributes 0 (R462, assumption 15). -/
def Video.writeVcfg (g : Video) (x : Long) : Video :=
  { g with vcfg := x, pllAttached := vmode x != 0, held := if vmode x = 0 then 0 else g.held }

/-- `write(u, a, v)` at a target (R191): CNT, INA, INB and the identification ignore it, PAR takes it (R193). -/
def CogUnit.writeLoc (u : CogUnit) (x : Long) : CogLoc → CogUnit
  | .cell a => { u with mem := Cells.put u.mem a x }
  | .ident => u
  | .par => { u with par := x }
  | .cnt => u
  | .ina => u
  | .inb => u
  | .outa => { u with outa := x }
  | .outb => { u with outb := x }
  | .dira => { u with dira := x }
  | .dirb => { u with dirb := x }
  | .ctra => { u with ctrA := { u.ctrA with ctr := x } }
  | .ctrb => { u with ctrB := { u.ctrB with ctr := x } }
  | .frqa => { u with ctrA := { u.ctrA with frq := x } }
  | .frqb => { u with ctrB := { u.ctrB with frq := x } }
  | .phsa => { u with ctrA := { u.ctrA with phs := x } }
  | .phsb => { u with ctrB := { u.ctrB with phs := x } }
  | .vcfg => { u with vid := u.vid.writeVcfg x }
  | .vscl => { u with vid := { u.vid with vscl := x } }

/-- `read(u, a)` (R190). -/
def CogUnit.read (u : CogUnit) (v : View) (a : CogAddr) : Long := u.readLoc v (locate a)

/-- `write(u, a, v)` (R191). -/
def CogUnit.write (u : CogUnit) (a : CogAddr) (x : Long) : CogUnit := u.writeLoc x (locate a)

/-- The view of unit `k`. -/
def State.viewOf (s : State) (k : UnitIx) : View := { index := k, counter := s.counter, pins := s.pinIn }

/-- `x[a]`: the running unit's read (R190). -/
def State.readReg (s : State) (a : CogAddr) : Long := s.unit.read (s.viewOf s.cur) a

/-- The source operand `S` (R103): the literal zero-extended, or the cell. -/
def State.source (s : State) : Src → Long
  | .imm n => n.setWidth 32
  | .reg a => s.readReg a

/-- What the instruction of fields `f` computes from on its execute tick (R103, R104, R160). -/
def State.inputs (s : State) (f : Fields) : Inputs :=
  { d := s.readReg f.d, s := s.source f.src, c := s.unit.c, z := s.unit.z }

end Sys2Proof.Machine
end

