-- ==== Sys2Proof/Machine/Ops.lean ====
section
/-! DEFINITION. The shared operations of the run-state machine and of the native instruction cycle
(spec/41_unit_state_machine.md), the start and stop of units and the hub window (spec/47_hub_arbiter.md). The machine takes no
exception and returns from none (spec/60_exceptions.md R500, R504, R507, R508), so there is no operation for either. -/

namespace Sys2Proof.Machine

/-- The outcome of one step of this machine. -/
abbrev Out := Host.Outcome State Fault Refusal

/-- Go on from a next state; a fault or a refusal ends the step. -/
def andThen (o : Out) (g : State → Out) : Out :=
  match o with
  | .next s => g s
  | .fault r => .fault r
  | .refused r => .refused r

/-! ## Latches -/

/-- `BeginTail(n)` (R155): burn `n` ticks, then complete. -/
def Pipe.beginTail (p : Pipe) (n : Nat) : Pipe :=
  { p with runState := .waitingCycles, stateArg := BitVec.ofNat 32 n, nextState := .executingInstruction }

/-- Load the write-back latch with a result under the effect bits of `f` (R162, R167). -/
def Pipe.offer (p : Pipe) (f : Fields) (res : Result) : Pipe :=
  { p with wb := { destEn := f.wr, dest := f.d, val := res.r, zEn := f.wz, z := res.z, cEn := f.wc, c := res.c } }

/-- Load the write-back latch from the instruction held in `opIR` (R157). -/
def Pipe.offerLatched (p : Pipe) (res : Result) : Pipe := p.offer (fieldsOf p.opIR) res

/-- Load the write-back latch so that nothing is committed (R161). -/
def Pipe.offerNothing (p : Pipe) : Pipe := { p with wb := { p.wb with destEn := false, zEn := false, cEn := false } }

/-- The open result and flags of the running unit in this tick (spec/00_scope.md R12). -/
def State.anyResult (s : State) : Long := Config.anyLong s.tick s.cur .result

/-- The open Z of the running unit in this tick. -/
def State.anyZ (s : State) : Bool := Config.anyBit s.tick s.cur .flagZ

/-- The open C of the running unit in this tick. -/
def State.anyC (s : State) : Bool := Config.anyBit s.tick s.cur .flagC

/-! ## The execute tick (R160 to R165) -/

/-- The first lines of R160: `opIR` takes the instruction and `pcNext` the following address. -/
def State.latchInstr (s : State) (i : Instr) : Pipe :=
  { s.unit.pipe with opIR := encode i, pcNext := s.unit.pc + 1 }

/-- R161: the condition is false; nothing is read, computed or written. -/
def skip (i : Instr) (s : State) : Out :=
  .next (s.setPipe ((s.latchInstr i).offerNothing.beginTail (tInstr - 1)))

/-- R160: skip, or latch both operands and go on with the instruction's rule. -/
def guarded (i : Instr) (s : State) (rule : Inputs → Pipe → Out) : Out :=
  if evaluate i.fields.cond s.unit.c s.unit.z then
    let x := s.inputs i.fields
    rule x { s.latchInstr i with opD := x.d, opS := x.s }
  else skip i s

/-- R162: a plain instruction without a jump. -/
def plain (i : Instr) (s : State) (rule : Inputs → Result) : Out :=
  guarded i s fun x p => .next (s.setPipe ((p.offer i.fields (rule x)).beginTail (tInstr - 1)))

/-- R162, R163: an instruction that may jump: 4 ticks to the target if it does, 8 ticks to `pc + 1` if it does not. -/
def branch (i : Instr) (s : State) (rule : Inputs → Result) (target : Inputs → Option CogAddr) : Out :=
  guarded i s fun x p =>
    match target x with
    | some t => .next (s.setPipe (({ p with pcNext := t }.offer i.fields (rule x)).beginTail (tInstr - 1)))
    | none => .next (s.setPipe ((p.offer i.fields (rule x)).beginTail (tNoJump - 1)))

/-- R164: wait out `HUB_PRE` ticks, then enter a hub state. -/
def Pipe.prewait (p : Pipe) (hubState : RunState) : Pipe :=
  { p with runState := .waitingPrewait, stateArg := BitVec.ofNat 32 hubPre, nextState := hubState }

/-- R164 `HubRead(n)`: the hub state says how many bytes. -/
def hubReadSeq (i : Instr) (s : State) (hubState : RunState) : Out :=
  guarded i s fun _ p => .next (s.setPipe (p.prewait hubState))

/-- R164 `HubOp(kind)`; the kind may depend on the source operand (R227). -/
def hubOpSeq (i : Instr) (s : State) (kind : Inputs → HubKind) : Out :=
  guarded i s fun x p => .next (s.setPipe ({ p with hubKind := kind x }.prewait .hubOperation))

/-- R165: enter a blocking wait. -/
def waitSeq (i : Instr) (s : State) (waitState : RunState) : Out :=
  guarded i s fun _ p => .next (s.setPipe { p with runState := waitState })

/-- R109: skipped when the condition is false, refused when it holds. -/
def reserved (i : Instr) (s : State) (why : Refusal) : Out :=
  guarded i s fun _ _ => .refused why

/-! ## Completion and burning (R153, R154, R168) -/

/-- Write a result and the flags under a write-back latch (R167, R168). -/
def CogUnit.commit (u : CogUnit) (wb : WriteBack) : CogUnit :=
  let u := if wb.destEn then u.write wb.dest wb.val else u
  { u with z := if wb.zEn then wb.z else u.z, c := if wb.cEn then wb.c else u.c }

/-- R168, the completion tick: fetch first, then the write-back, then `pc`. -/
def CogUnit.complete (u : CogUnit) (v : View) : CogUnit :=
  let next := u.read v u.pipe.pcNext
  let u := u.commit u.pipe.wb
  { u with pc := u.pipe.pcNext, pcFresh := true, pipe := { u.pipe with ir := next } }

/-- One less, stopping at 0. -/
def countdown (n : BitVec 32) : BitVec 32 := if n = 0 then 0 else n - 1

/-- R153: progress in WaitingCycles. -/
def CogUnit.burn (u : CogUnit) (v : View) : CogUnit :=
  let n := countdown u.pipe.stateArg
  if n = 0 then
    let u := { u with pipe := { u.pipe with stateArg := n, runState := u.pipe.nextState } }
    if u.strategy = .native then u.complete v else u
  else { u with pipe := { u.pipe with stateArg := n } }

/-- R154: progress in WaitingPrewait. -/
def CogUnit.burnPrewait (u : CogUnit) : CogUnit :=
  let n := countdown u.pipe.stateArg
  if n = 0 then { u with pipe := { u.pipe with stateArg := n, runState := u.pipe.nextState } }
  else { u with pipe := { u.pipe with stateArg := n } }

/-! ## Boot and program load (R150, R151, R172) -/

/-- R151, native: `pc`, flags, first fetch, first run state. -/
def CogUnit.bootNative (u : CogUnit) (v : View) : CogUnit :=
  let u := { u with pc := 0, pcFresh := true, c := false, z := false }
  { u with pipe := { u.pipe with ir := u.read v 0, runState := .executingInstruction } }

/-- `boot()` of the running unit: the native one, or the refusal of the interpreted strategy (R151, R172). -/
def boot (s : State) : Out :=
  match s.unit.strategy with
  | .native => .next (s.setUnit (s.unit.bootNative (s.viewOf s.cur)))
  | .interpreted => .refused .interpretedStrategy

/-- The program load's store goes to `mem` directly; there is no cell behind 0x1F0 and up (R20, R23, R150). -/
def CogUnit.loadCell (u : CogUnit) (a : Nat) (v : Long) : CogUnit :=
  if a < sprBase then { u with mem := Cells.put u.mem a v } else u

/-- R150: one long of the program load in the running unit's hub window, and the boot after the 496th. -/
def loadLong (s : State) : Out :=
  let u := s.unit.loadCell s.unit.count (memRead s.mem s.unit.programAddress 4)
  let u := { u with programAddress := u.programAddress + 4, count := u.count + 1 }
  if u.count = sprBase then boot (s.setUnit { u with count := 0 }) else .next (s.setUnit u)

/-! ## Units, windows (spec/47_hub_arbiter.md R383, R396, R397) -/

/-- `StartUnit` (R396): the slot holds a new unit, whatever it held. -/
def startUnit (s : State) (id : UnitIx) (strategy : Strategy) (programAddress parameter : Long) : State :=
  s.setSlot id (CogUnit.create strategy programAddress parameter)

/-- `StopUnit` (R397): the slot is empty. -/
def stopUnit (s : State) (id : UnitIx) : State := s.setSlot id CogUnit.vacant

/-- `window(c)` (R383): the unit that owns the window of the tick, if any. -/
def window (c : Long) : Option UnitIx :=
  let r := (c.toNat + hubPhase) % hubPeriod
  if r % 2 = 0 then some (Fin.ofNat 8 (r / 2)) else none

/-- The lowest-numbered index below 8 for which the test holds, if any (R231, R234). -/
def lowest (test : UnitIx → Bool) : Option UnitIx := [0, 1, 2, 3, 4, 5, 6, 7].find? test

end Sys2Proof.Machine
end

