-- ==== Sys2Proof/Machine/Arith.lean ====
section
/-! DEFINITION. Arithmetic, moves and compares (spec/45_native_arith.md R300 to R328). -/

namespace Sys2Proof.Machine

/-- ADD (R301). -/
def resAdd (x : Inputs) : Result := Result.unsigned (x.d.toNat + x.s.toNat)

/-- SUB and CMP (R302, R303). -/
def resSub (x : Inputs) : Result := Result.unsigned (x.d.toNat - x.s.toNat)

/-- ADDABS (R304). -/
def resAddabs (x : Inputs) : Result := Result.unsigned (x.d.toNat + (absLong x.s).toNat)

/-- SUBABS (R305). -/
def resSubabs (x : Inputs) : Result := Result.unsigned (x.d.toNat - (absLong x.s).toNat)

/-- SUMC, SUMNC, SUMZ, SUMNZ: subtract if `b`, else add (R306 to R309). -/
def resSum (b : Bool) (x : Inputs) : Result :=
  Result.signed (if b then x.d.toInt - x.s.toInt else x.d.toInt + x.s.toInt)

/-- MOV (R310). -/
def resMov (x : Inputs) : Result := Result.move x x.s

/-- NEG (R311). -/
def resNeg (x : Inputs) : Result := Result.move x (negate x.s)

/-- ABS (R312). -/
def resAbs (x : Inputs) : Result := Result.move x (absLong x.s)

/-- ABSNEG (R313). -/
def resAbsneg (x : Inputs) : Result := Result.move x (if x.s.msb then x.s else negate x.s)

/-- NEGC, NEGNC, NEGZ, NEGNZ: negate if `b` (R314 to R317). -/
def resNegIf (b : Bool) (x : Inputs) : Result := Result.move x (if b then negate x.s else x.s)

/-- CMPS (R318). -/
def resCmps (x : Inputs) : Result := { r := x.d - x.s, c := x.d.slt x.s, z := x.d == x.s }

/-- CMPSX (R319). -/
def resCmpsx (x : Inputs) : Result :=
  let t := x.d.toInt - x.s.toInt - carryIn x
  (Result.zeroFlag (BitVec.ofInt 32 t) (decide (t < 0))).extended x

/-- ADDX (R320). -/
def resAddx (x : Inputs) : Result := (Result.unsigned (x.d.toNat + x.s.toNat + carryIn x)).extended x

/-- SUBX and CMPX (R321, R322). -/
def resSubx (x : Inputs) : Result := (Result.unsigned (x.d.toNat - x.s.toNat - carryIn x)).extended x

/-- ADDS (R323). -/
def resAdds (x : Inputs) : Result := Result.signed (x.d.toInt + x.s.toInt)

/-- SUBS (R324). -/
def resSubs (x : Inputs) : Result := Result.signed (x.d.toInt - x.s.toInt)

/-- ADDSX (R325). -/
def resAddsx (x : Inputs) : Result := (Result.signed (x.d.toInt + x.s.toInt + carryIn x)).extended x

/-- SUBSX (R326). -/
def resSubsx (x : Inputs) : Result := (Result.signed (x.d.toInt - x.s.toInt - carryIn x)).extended x

/-- CMPSUB (R327). -/
def resCmpsub (x : Inputs) : Result :=
  { r := if x.s.ule x.d then x.d - x.s else x.d, c := x.s.ule x.d, z := x.d == x.s }

/-- ADD (R301). -/
def execAdd (f : Fields) (s : State) : Out := plain (.add f) s resAdd

/-- SUB (R302). -/
def execSub (f : Fields) (s : State) : Out := plain (.sub f) s resSub

/-- CMP (R303). -/
def execCmp (f : Fields) (s : State) : Out := plain (.cmp f) s resSub

/-- ADDABS (R304). -/
def execAddabs (f : Fields) (s : State) : Out := plain (.addabs f) s resAddabs

/-- SUBABS (R305). -/
def execSubabs (f : Fields) (s : State) : Out := plain (.subabs f) s resSubabs

/-- SUMC (R306). -/
def execSumc (f : Fields) (s : State) : Out := plain (.sumc f) s fun x => resSum x.c x

/-- SUMNC (R307). -/
def execSumnc (f : Fields) (s : State) : Out := plain (.sumnc f) s fun x => resSum (!x.c) x

/-- SUMZ (R308). -/
def execSumz (f : Fields) (s : State) : Out := plain (.sumz f) s fun x => resSum x.z x

/-- SUMNZ (R309). -/
def execSumnz (f : Fields) (s : State) : Out := plain (.sumnz f) s fun x => resSum (!x.z) x

/-- MOV (R310). -/
def execMov (f : Fields) (s : State) : Out := plain (.mov f) s resMov

/-- NEG (R311). -/
def execNeg (f : Fields) (s : State) : Out := plain (.neg f) s resNeg

/-- ABS (R312). -/
def execAbs (f : Fields) (s : State) : Out := plain (.abs f) s resAbs

/-- ABSNEG (R313). -/
def execAbsneg (f : Fields) (s : State) : Out := plain (.absneg f) s resAbsneg

/-- NEGC (R314). -/
def execNegc (f : Fields) (s : State) : Out := plain (.negc f) s fun x => resNegIf x.c x

/-- NEGNC (R315). -/
def execNegnc (f : Fields) (s : State) : Out := plain (.negnc f) s fun x => resNegIf (!x.c) x

/-- NEGZ (R316). -/
def execNegz (f : Fields) (s : State) : Out := plain (.negz f) s fun x => resNegIf x.z x

/-- NEGNZ (R317). -/
def execNegnz (f : Fields) (s : State) : Out := plain (.negnz f) s fun x => resNegIf (!x.z) x

/-- CMPS (R318). -/
def execCmps (f : Fields) (s : State) : Out := plain (.cmps f) s resCmps

/-- CMPSX (R319). -/
def execCmpsx (f : Fields) (s : State) : Out := plain (.cmpsx f) s resCmpsx

/-- ADDX (R320). -/
def execAddx (f : Fields) (s : State) : Out := plain (.addx f) s resAddx

/-- SUBX (R321). -/
def execSubx (f : Fields) (s : State) : Out := plain (.subx f) s resSubx

/-- CMPX (R322). -/
def execCmpx (f : Fields) (s : State) : Out := plain (.cmpx f) s resSubx

/-- ADDS (R323). -/
def execAdds (f : Fields) (s : State) : Out := plain (.adds f) s resAdds

/-- SUBS (R324). -/
def execSubs (f : Fields) (s : State) : Out := plain (.subs f) s resSubs

/-- ADDSX (R325). -/
def execAddsx (f : Fields) (s : State) : Out := plain (.addsx f) s resAddsx

/-- SUBSX (R326). -/
def execSubsx (f : Fields) (s : State) : Out := plain (.subsx f) s resSubsx

/-- CMPSUB (R327). -/
def execCmpsub (f : Fields) (s : State) : Out := plain (.cmpsub f) s resCmpsub

end Sys2Proof.Machine
end

