-- ==== Sys2Proof/Machine/ShiftLogic.lean ====
section
/-! DEFINITION. Shifts, limits, field moves, logic and multiplexers (spec/44_native_shift_logic.md R260 to R287), and NOP
(spec/30_encoding.md R108). -/

namespace Sys2Proof.Machine

/-- The shift count `n = S[4:0]`. -/
def Inputs.count (x : Inputs) : Nat := x.s.toNat % 32

/-- The nine bits `S[8:0]` of the source operand. -/
def Inputs.field (x : Inputs) : BitVec 9 := x.s.setWidth 9

/-- ROR (R261). -/
def resRor (x : Inputs) : Result :=
  Result.zeroFlag ((x.d >>> x.count) ||| (x.d <<< (32 - x.count))) (x.d.getLsbD 0)

/-- ROL (R262). -/
def resRol (x : Inputs) : Result :=
  Result.zeroFlag ((x.d <<< x.count) ||| (x.d >>> (32 - x.count))) (x.d.getLsbD 31)

/-- SHR (R263). -/
def resShr (x : Inputs) : Result := Result.zeroFlag (x.d >>> x.count) (x.d.getLsbD 0)

/-- SHL (R264). -/
def resShl (x : Inputs) : Result := Result.zeroFlag (x.d <<< x.count) (x.d.getLsbD 31)

/-- RCR (R265). -/
def resRcr (x : Inputs) : Result :=
  Result.zeroFlag ((x.d >>> x.count) ||| (fill x.c <<< (32 - x.count))) (x.d.getLsbD 0)

/-- RCL (R266). -/
def resRcl (x : Inputs) : Result :=
  Result.zeroFlag ((x.d <<< x.count) ||| (fill x.c >>> (32 - x.count))) (x.d.getLsbD 31)

/-- SAR (R267). -/
def resSar (x : Inputs) : Result := Result.zeroFlag (x.d.sshiftRight x.count) (x.d.getLsbD 0)

/-- REV (R268): all 32 bits reversed, then shifted right. -/
def resRev (x : Inputs) : Result := Result.zeroFlag (x.d.reverse >>> x.count) (x.d.getLsbD 0)

/-- MINS (R269). -/
def resMins (x : Inputs) : Result := Result.limit x (if x.d.slt x.s then x.s else x.d) (x.d.slt x.s)

/-- MAXS (R270). -/
def resMaxs (x : Inputs) : Result := Result.limit x (if x.d.slt x.s then x.d else x.s) (x.d.slt x.s)

/-- MIN (R271). -/
def resMin (x : Inputs) : Result := Result.limit x (if x.d.ult x.s then x.s else x.d) (x.d.ult x.s)

/-- MAX (R272). -/
def resMax (x : Inputs) : Result := Result.limit x (if x.d.ult x.s then x.d else x.s) (x.d.ult x.s)

/-- `D` with nine bits from bit `lo` up replaced by `S[8:0]`. -/
def replaceField (x : Inputs) (lo : Nat) : Long :=
  (x.d &&& ~~~((0x1FF#32) <<< lo)) ||| (x.field.setWidth 32 <<< lo)

/-- MOVS, with its open C (R273, U4). -/
def resMovs (c : Bool) (x : Inputs) : Result := Result.zeroFlag (replaceField x 0) c

/-- MOVD, with its open C (R274, U4). -/
def resMovd (c : Bool) (x : Inputs) : Result := Result.zeroFlag (replaceField x 9) c

/-- MOVI, with its open C (R275, U4). -/
def resMovi (c : Bool) (x : Inputs) : Result := Result.zeroFlag (replaceField x 23) c

/-- AND and TEST (R276, R277). -/
def resAnd (x : Inputs) : Result := Result.logic (x.d &&& x.s)

/-- ANDN and TESTN (R278, R279). -/
def resAndn (x : Inputs) : Result := Result.logic (x.d &&& ~~~x.s)

/-- OR (R280). -/
def resOr (x : Inputs) : Result := Result.logic (x.d ||| x.s)

/-- XOR (R281). -/
def resXor (x : Inputs) : Result := Result.logic (x.d ^^^ x.s)

/-- The bits of `D` that the mask `S` selects take the value `b` (R282). -/
def resMux (b : Bool) (x : Inputs) : Result := Result.logic ((x.d &&& ~~~x.s) ||| (x.s &&& fill b))

/-- ROR (R261). -/
def execRor (f : Fields) (s : State) : Out := plain (.ror f) s resRor

/-- ROL (R262). -/
def execRol (f : Fields) (s : State) : Out := plain (.rol f) s resRol

/-- SHR (R263). -/
def execShr (f : Fields) (s : State) : Out := plain (.shr f) s resShr

/-- SHL (R264). -/
def execShl (f : Fields) (s : State) : Out := plain (.shl f) s resShl

/-- RCR (R265). -/
def execRcr (f : Fields) (s : State) : Out := plain (.rcr f) s resRcr

/-- RCL (R266). -/
def execRcl (f : Fields) (s : State) : Out := plain (.rcl f) s resRcl

/-- SAR (R267). -/
def execSar (f : Fields) (s : State) : Out := plain (.sar f) s resSar

/-- REV (R268). -/
def execRev (f : Fields) (s : State) : Out := plain (.rev f) s resRev

/-- MINS (R269). -/
def execMins (f : Fields) (s : State) : Out := plain (.mins f) s resMins

/-- MAXS (R270). -/
def execMaxs (f : Fields) (s : State) : Out := plain (.maxs f) s resMaxs

/-- MIN (R271). -/
def execMin (f : Fields) (s : State) : Out := plain (.min f) s resMin

/-- MAX (R272). -/
def execMax (f : Fields) (s : State) : Out := plain (.max f) s resMax

/-- MOVS (R273). -/
def execMovs (f : Fields) (s : State) : Out := plain (.movs f) s (resMovs s.anyC)

/-- MOVD (R274). -/
def execMovd (f : Fields) (s : State) : Out := plain (.movd f) s (resMovd s.anyC)

/-- MOVI (R275). -/
def execMovi (f : Fields) (s : State) : Out := plain (.movi f) s (resMovi s.anyC)

/-- AND (R276). -/
def execAnd (f : Fields) (s : State) : Out := plain (.and f) s resAnd

/-- TEST (R277). -/
def execTest (f : Fields) (s : State) : Out := plain (.test f) s resAnd

/-- ANDN (R278). -/
def execAndn (f : Fields) (s : State) : Out := plain (.andn f) s resAndn

/-- TESTN (R279). -/
def execTestn (f : Fields) (s : State) : Out := plain (.testn f) s resAndn

/-- OR (R280). -/
def execOr (f : Fields) (s : State) : Out := plain (.or f) s resOr

/-- XOR (R281). -/
def execXor (f : Fields) (s : State) : Out := plain (.xor f) s resXor

/-- MUXC (R282). -/
def execMuxc (f : Fields) (s : State) : Out := plain (.muxc f) s fun x => resMux x.c x

/-- MUXNC (R283). -/
def execMuxnc (f : Fields) (s : State) : Out := plain (.muxnc f) s fun x => resMux (!x.c) x

/-- MUXZ (R284). -/
def execMuxz (f : Fields) (s : State) : Out := plain (.muxz f) s fun x => resMux x.z x

/-- MUXNZ (R285). -/
def execMuxnz (f : Fields) (s : State) : Out := plain (.muxnz f) s fun x => resMux (!x.z) x

/-- NOP (R108): its condition is never, so it is skipped. -/
def execNop (s : State) : Out := skip .nop s

end Sys2Proof.Machine
end

