-- ==== Sys2Proof/Machine/BranchWait.lean ====
section
/-! DEFINITION. Jumps, loops and waits (spec/46_native_branch_wait.md R350 to R362): the execute tick, and the progress of the
blocking waits (spec/41_unit_state_machine.md R155, R156, R159). -/

namespace Sys2Proof.Machine

/-- JMPRET, JMP, CALL, RET: the low nine bits of `D` replaced by the return address; C is open (R351, R352, U4). -/
def resJmpret (pc : CogAddr) (c : Bool) (x : Inputs) : Result :=
  Result.zeroFlag (replaceField { x with s := (pc + 1).setWidth 32 } 0) c

/-- DJNZ (R355). -/
def resDjnz (x : Inputs) : Result := Result.zeroFlag (x.d - 1) (x.d == 0)

/-- TJNZ and TJZ (R356, R357). -/
def resTest (x : Inputs) : Result := Result.zeroFlag x.d false

/-- WAITCNT, when satisfied (R360). -/
def resWaitcnt (x : Inputs) : Result := Result.unsigned (x.d.toNat + x.s.toNat)

/-- A jump that is always taken (R350). -/
def always (x : Inputs) : Option CogAddr := some x.field

/-- A jump taken if the test holds (R355 to R357). -/
def takenIf (test : Inputs → Bool) (x : Inputs) : Option CogAddr := if test x then some x.field else none

/-- JMPRET (R351). -/
def execJmpret (f : Fields) (s : State) : Out := branch (.jmpret f) s (resJmpret s.unit.pc s.anyC) always

/-- JMP (R352). -/
def execJmp (f : Fields) (s : State) : Out := branch (.jmp f) s (resJmpret s.unit.pc s.anyC) always

/-- CALL (R353). -/
def execCall (f : Fields) (s : State) : Out := branch (.call f) s (resJmpret s.unit.pc s.anyC) always

/-- RET (R354). -/
def execRet (f : Fields) (s : State) : Out := branch (.ret f) s (resJmpret s.unit.pc s.anyC) always

/-- DJNZ (R355): the decision uses the result whether or not it is written. -/
def execDjnz (f : Fields) (s : State) : Out := branch (.djnz f) s resDjnz (takenIf fun x => (resDjnz x).r != 0)

/-- TJNZ (R356). -/
def execTjnz (f : Fields) (s : State) : Out := branch (.tjnz f) s resTest (takenIf fun x => x.d != 0)

/-- TJZ (R357). -/
def execTjz (f : Fields) (s : State) : Out := branch (.tjz f) s resTest (takenIf fun x => x.d == 0)

/-- WAITPEQ, the execute tick (R358). -/
def execWaitpeq (f : Fields) (s : State) : Out := waitSeq (.waitpeq f) s .waitingPinsEqual

/-- WAITPNE, the execute tick (R359). -/
def execWaitpne (f : Fields) (s : State) : Out := waitSeq (.waitpne f) s .waitingPinsNotEqual

/-- WAITCNT, the execute tick (R360). -/
def execWaitcnt (f : Fields) (s : State) : Out := waitSeq (.waitcnt f) s .waitingCounter

/-- WAITVID, the execute tick (R361). -/
def execWaitvid (f : Fields) (s : State) : Out := waitSeq (.waitvid f) s .waitingVideo

/-! ## Progress in the blocking waits -/

/-- The port the pin waits test: INA, or INB if the parameter says so and C = 1 (R155, R358). -/
def State.waitPort (s : State) : Long :=
  if waitPortByC && s.unit.c then s.pinIn.extractLsb' 32 32 else s.pinIn.extractLsb' 0 32

/-- A satisfied wait: load the latch and begin the tail (R155). -/
def satisfied (s : State) (res : Result) (tail : Nat) : State :=
  s.setPipe ((s.unit.pipe.offerLatched res).beginTail tail)

/-- The open result of the pin and video waits (U5, U6). -/
def State.anyOffer (s : State) : Result := { r := s.anyResult, c := s.anyC, z := s.anyZ }

/-- Progress in WaitingPinsEqual (R155, R358). -/
def pollPinsEqual (s : State) : State :=
  if s.waitPort &&& s.unit.pipe.opS = s.unit.pipe.opD then satisfied s s.anyOffer waitTail else s

/-- Progress in WaitingPinsNotEqual (R155, R359). -/
def pollPinsNotEqual (s : State) : State :=
  if s.waitPort &&& s.unit.pipe.opS ≠ s.unit.pipe.opD then satisfied s s.anyOffer waitTail else s

/-- Progress in WaitingCounter: equality of all 32 bits (R156, R360). -/
def pollCounter (s : State) : State :=
  if s.counter = s.unit.pipe.opD then
    satisfied s (resWaitcnt { d := s.unit.pipe.opD, s := s.unit.pipe.opS, c := s.unit.c, z := s.unit.z }) waitTail
  else s

/-- Progress in WaitingVideo: see and clear the acknowledge (R159, R361). -/
def pollVideo (s : State) : State :=
  if s.unit.vid.vidAck then
    satisfied (s.setUnit { s.unit with vid := { s.unit.vid with vidAck := false } }) s.anyOffer vidTail
  else s

end Sys2Proof.Machine
end

