-- ==== Sys2Proof/Machine/HubMemory.lean ====
section
/-! DEFINITION. RDBYTE, RDWORD, RDLONG, WRBYTE, WRWORD, WRLONG: their execute tick, and the transaction in the hub window
(spec/43_native_hub_ops.md R220 to R226, spec/41_unit_state_machine.md R157, R158, R164). -/

namespace Sys2Proof.Machine

/-- RDBYTE, the execute tick (R221). -/
def execRdbyte (f : Fields) (s : State) : Out := hubReadSeq (.rdbyte f) s .hubReadByte

/-- RDWORD, the execute tick (R222). -/
def execRdword (f : Fields) (s : State) : Out := hubReadSeq (.rdword f) s .hubReadWord

/-- RDLONG, the execute tick (R223). -/
def execRdlong (f : Fields) (s : State) : Out := hubReadSeq (.rdlong f) s .hubReadLong

/-- WRBYTE, the execute tick (R224). -/
def execWrbyte (f : Fields) (s : State) : Out := hubOpSeq (.wrbyte f) s fun _ => .wrbyte

/-- WRWORD, the execute tick (R225). -/
def execWrword (f : Fields) (s : State) : Out := hubOpSeq (.wrword f) s fun _ => .wrword

/-- WRLONG, the execute tick (R226). -/
def execWrlong (f : Fields) (s : State) : Out := hubOpSeq (.wrlong f) s fun _ => .wrlong

/-- End a hub transaction: load the write-back latch and begin the tail (R157, R158). -/
def endTransaction (s : State) (res : Result) : State :=
  s.setPipe ((s.unit.pipe.offerLatched res).beginTail hubTail)

/-- The hub hook of the three reading states: `n` bytes at `opS`, Z of the value, C open (R157, U3). -/
def hubRead (s : State) (n : Nat) : State :=
  endTransaction s (Result.zeroFlag (memRead s.mem s.unit.pipe.opS n) s.anyC)

/-- The hub hook of the three writes: the low `n` bytes of `opD` at `opS`; nothing is written to cog memory and both flags are
open (R224, R225, R226, U2). -/
def hubWrite (s : State) (n : Nat) : State :=
  let p := s.unit.pipe
  let s := { s with mem := memWrite s.mem p.opS n p.opD }
  s.setPipe ((p.offer { fieldsOf p.opIR with wr := false } { r := 0, c := s.anyC, z := s.anyZ }).beginTail hubTail)

end Sys2Proof.Machine
end

