-- ==== Sys2Proof/Machine/HubOps.lean ====
section
/-! DEFINITION. The hub operations and the reserved opcodes: their execute tick, and the operations' transaction in the hub
window (spec/43_native_hub_ops.md R227 to R241). -/

namespace Sys2Proof.Machine

/-- The operation that the low three bits of the source operand select (spec/30_encoding.md R107). -/
def hubSelect (x : Inputs) : HubKind :=
  match x.s.toNat % 8 with
  | 0 => .clkset
  | 1 => .cogid
  | 2 => .coginit
  | 3 => .cogstop
  | 4 => .locknew
  | 5 => .lockret
  | 6 => .lockset
  | _ => .lockclr

/-- CLKSET, the execute tick (R228). -/
def execClkset (f : Fields) (s : State) : Out := hubOpSeq (.clkset f) s hubSelect

/-- COGID, the execute tick (R230). -/
def execCogid (f : Fields) (s : State) : Out := hubOpSeq (.cogid f) s hubSelect

/-- COGINIT, the execute tick (R231). -/
def execCoginit (f : Fields) (s : State) : Out := hubOpSeq (.coginit f) s hubSelect

/-- COGSTOP, the execute tick (R232). -/
def execCogstop (f : Fields) (s : State) : Out := hubOpSeq (.cogstop f) s hubSelect

/-- LOCKNEW, the execute tick (R234). -/
def execLocknew (f : Fields) (s : State) : Out := hubOpSeq (.locknew f) s hubSelect

/-- LOCKRET, the execute tick (R235). -/
def execLockret (f : Fields) (s : State) : Out := hubOpSeq (.lockret f) s hubSelect

/-- LOCKSET, the execute tick (R236). -/
def execLockset (f : Fields) (s : State) : Out := hubOpSeq (.lockset f) s hubSelect

/-- LOCKCLR, the execute tick (R237). -/
def execLockclr (f : Fields) (s : State) : Out := hubOpSeq (.lockclr f) s hubSelect

/-- HUBOP, the execute tick (R227). -/
def execHubop (f : Fields) (s : State) : Out := hubOpSeq (.hubop f) s hubSelect

/-- MUL (R238). -/
def execMul (f : Fields) (s : State) : Out := reserved (.mul f) s .reservedMul

/-- MULS (R239). -/
def execMuls (f : Fields) (s : State) : Out := reserved (.muls f) s .reservedMuls

/-- ENC (R240). -/
def execEnc (f : Fields) (s : State) : Out := reserved (.enc f) s .reservedEnc

/-- ONES (R241). -/
def execOnes (f : Fields) (s : State) : Out := reserved (.ones f) s .reservedOnes

/-! ## The transactions -/

/-- The unit or lock index in bits 2:0 of the destination operand. -/
def indexOf (d : Long) : UnitIx := Fin.ofNat 8 d.toNat

/-- A hub operation's result is an index and Z says that it is 0. -/
def Result.index (id : UnitIx) (c : Bool) : Result := Result.zeroFlag (BitVec.ofNat 32 id.val) c

/-- Set or clear one bit of the lock vectors. -/
def setLock (v : BitVec 8) (id : UnitIx) (b : Bool) : BitVec 8 :=
  if b then v ||| BitVec.twoPow 8 id.val else v &&& ~~~(BitVec.twoPow 8 id.val)

/-- CLKSET in its window: the clock register takes `opD[7:0]`; the result and the flags are open (R228). -/
def hubClkset (s : State) : State :=
  endTransaction { s with clk := s.unit.pipe.opD.setWidth 8 } { r := s.anyResult, c := s.anyC, z := s.anyZ }

/-- COGID in its window (R230). -/
def hubCogid (s : State) : State := endTransaction s (Result.index s.cur false)

/-- The hub address of the new unit's program: bits 17:4 of `D` are its bits 15:2 (R231). -/
def coginitAddress (d : Long) : Long := (d.extractLsb' 4 14).setWidth 32 <<< 2

/-- The parameter of the new unit: bits 31:18 of `D` are its bits 15:2 (R231). -/
def coginitParam (d : Long) : Long := (d.extractLsb' 18 14).setWidth 32 <<< 2

/-- Start unit `id` with the operand of a COGINIT (R231, R396). -/
def coginitStart (s : State) (id : UnitIx) (d : Long) : State :=
  startUnit s id (coginitStrategy (coginitAddress d)) (coginitAddress d) (coginitParam d)

/-- COGINIT in its window (R231): bit 3 of `D` starts the lowest empty slot, else slot `D[2:0]` is (re)started; a unit that
restarts itself begins no tail (R158). -/
def hubCoginit (s : State) : State :=
  let d := s.unit.pipe.opD
  if d.getLsbD 3 then
    match lowest fun k => !s.units[k].active with
    | some id => endTransaction (coginitStart s id d) (Result.index id false)
    | none => endTransaction s (Result.index 7 true)
  else
    let id := indexOf d
    if id = s.cur then coginitStart s id d else endTransaction (coginitStart s id d) (Result.index id false)

/-- COGSTOP in its window (R232); a unit that stops itself commits nothing (R158). -/
def hubCogstop (s : State) : State :=
  let id := indexOf s.unit.pipe.opD
  if id = s.cur then stopUnit s id else endTransaction (stopUnit s id) (Result.index id s.anyC)

/-- LOCKNEW in its window (R234). -/
def hubLocknew (s : State) : State :=
  match lowest fun k => !s.lockAlloc.getLsbD k.val with
  | some id => endTransaction { s with lockAlloc := setLock s.lockAlloc id true } (Result.index id false)
  | none => endTransaction s (Result.index 7 true)

/-- LOCKRET in its window (R235). -/
def hubLockret (s : State) : State :=
  let id := indexOf s.unit.pipe.opD
  endTransaction { s with lockAlloc := setLock s.lockAlloc id false } (Result.index id s.anyC)

/-- LOCKSET in its window: C offers the state before (R236). -/
def hubLockset (s : State) : State :=
  let id := indexOf s.unit.pipe.opD
  endTransaction { s with lockState := setLock s.lockState id true } (Result.index id (s.lockState.getLsbD id.val))

/-- LOCKCLR in its window: C offers the state before (R237). -/
def hubLockclr (s : State) : State :=
  let id := indexOf s.unit.pipe.opD
  endTransaction { s with lockState := setLock s.lockState id false } (Result.index id (s.lockState.getLsbD id.val))

/-- The hub hook in state HubOperation (R158). -/
def hubTransact (s : State) : State :=
  match s.unit.pipe.hubKind with
  | .wrbyte => hubWrite s 1
  | .wrword => hubWrite s 2
  | .wrlong => hubWrite s 4
  | .clkset => hubClkset s
  | .cogid => hubCogid s
  | .coginit => hubCoginit s
  | .cogstop => hubCogstop s
  | .locknew => hubLocknew s
  | .lockret => hubLockret s
  | .lockset => hubLockset s
  | .lockclr => hubLockclr s

end Sys2Proof.Machine
end

