-- ==== Sys2Proof/Machine/Dispatch.lean ====
section
/-! DEFINITION. The dispatch of the execute tick: one arm per instruction (spec/41_unit_state_machine.md R160). -/

namespace Sys2Proof.Machine

/-- The execute tick of an instruction in the running unit. -/
def exec (i : Instr) (s : State) : Host.Outcome State Fault Refusal :=
  match i with
  | .rdbyte f => Sys2Proof.Machine.execRdbyte f s
  | .wrbyte f => Sys2Proof.Machine.execWrbyte f s
  | .rdword f => Sys2Proof.Machine.execRdword f s
  | .wrword f => Sys2Proof.Machine.execWrword f s
  | .rdlong f => Sys2Proof.Machine.execRdlong f s
  | .wrlong f => Sys2Proof.Machine.execWrlong f s
  | .clkset f => Sys2Proof.Machine.execClkset f s
  | .cogid f => Sys2Proof.Machine.execCogid f s
  | .coginit f => Sys2Proof.Machine.execCoginit f s
  | .cogstop f => Sys2Proof.Machine.execCogstop f s
  | .locknew f => Sys2Proof.Machine.execLocknew f s
  | .lockret f => Sys2Proof.Machine.execLockret f s
  | .lockset f => Sys2Proof.Machine.execLockset f s
  | .lockclr f => Sys2Proof.Machine.execLockclr f s
  | .hubop f => Sys2Proof.Machine.execHubop f s
  | .mul f => Sys2Proof.Machine.execMul f s
  | .muls f => Sys2Proof.Machine.execMuls f s
  | .enc f => Sys2Proof.Machine.execEnc f s
  | .ones f => Sys2Proof.Machine.execOnes f s
  | .ror f => Sys2Proof.Machine.execRor f s
  | .rol f => Sys2Proof.Machine.execRol f s
  | .shr f => Sys2Proof.Machine.execShr f s
  | .shl f => Sys2Proof.Machine.execShl f s
  | .rcr f => Sys2Proof.Machine.execRcr f s
  | .rcl f => Sys2Proof.Machine.execRcl f s
  | .sar f => Sys2Proof.Machine.execSar f s
  | .rev f => Sys2Proof.Machine.execRev f s
  | .mins f => Sys2Proof.Machine.execMins f s
  | .maxs f => Sys2Proof.Machine.execMaxs f s
  | .min f => Sys2Proof.Machine.execMin f s
  | .max f => Sys2Proof.Machine.execMax f s
  | .movs f => Sys2Proof.Machine.execMovs f s
  | .movd f => Sys2Proof.Machine.execMovd f s
  | .movi f => Sys2Proof.Machine.execMovi f s
  | .jmpret f => Sys2Proof.Machine.execJmpret f s
  | .jmp f => Sys2Proof.Machine.execJmp f s
  | .call f => Sys2Proof.Machine.execCall f s
  | .ret f => Sys2Proof.Machine.execRet f s
  | .and f => Sys2Proof.Machine.execAnd f s
  | .test f => Sys2Proof.Machine.execTest f s
  | .andn f => Sys2Proof.Machine.execAndn f s
  | .testn f => Sys2Proof.Machine.execTestn f s
  | .or f => Sys2Proof.Machine.execOr f s
  | .xor f => Sys2Proof.Machine.execXor f s
  | .muxc f => Sys2Proof.Machine.execMuxc f s
  | .muxnc f => Sys2Proof.Machine.execMuxnc f s
  | .muxz f => Sys2Proof.Machine.execMuxz f s
  | .muxnz f => Sys2Proof.Machine.execMuxnz f s
  | .add f => Sys2Proof.Machine.execAdd f s
  | .sub f => Sys2Proof.Machine.execSub f s
  | .cmp f => Sys2Proof.Machine.execCmp f s
  | .addabs f => Sys2Proof.Machine.execAddabs f s
  | .subabs f => Sys2Proof.Machine.execSubabs f s
  | .sumc f => Sys2Proof.Machine.execSumc f s
  | .sumnc f => Sys2Proof.Machine.execSumnc f s
  | .sumz f => Sys2Proof.Machine.execSumz f s
  | .sumnz f => Sys2Proof.Machine.execSumnz f s
  | .mov f => Sys2Proof.Machine.execMov f s
  | .neg f => Sys2Proof.Machine.execNeg f s
  | .abs f => Sys2Proof.Machine.execAbs f s
  | .absneg f => Sys2Proof.Machine.execAbsneg f s
  | .negc f => Sys2Proof.Machine.execNegc f s
  | .negnc f => Sys2Proof.Machine.execNegnc f s
  | .negz f => Sys2Proof.Machine.execNegz f s
  | .negnz f => Sys2Proof.Machine.execNegnz f s
  | .cmps f => Sys2Proof.Machine.execCmps f s
  | .cmpsx f => Sys2Proof.Machine.execCmpsx f s
  | .addx f => Sys2Proof.Machine.execAddx f s
  | .subx f => Sys2Proof.Machine.execSubx f s
  | .cmpx f => Sys2Proof.Machine.execCmpx f s
  | .adds f => Sys2Proof.Machine.execAdds f s
  | .subs f => Sys2Proof.Machine.execSubs f s
  | .addsx f => Sys2Proof.Machine.execAddsx f s
  | .subsx f => Sys2Proof.Machine.execSubsx f s
  | .cmpsub f => Sys2Proof.Machine.execCmpsub f s
  | .djnz f => Sys2Proof.Machine.execDjnz f s
  | .tjnz f => Sys2Proof.Machine.execTjnz f s
  | .tjz f => Sys2Proof.Machine.execTjz f s
  | .waitpeq f => Sys2Proof.Machine.execWaitpeq f s
  | .waitpne f => Sys2Proof.Machine.execWaitpne f s
  | .waitcnt f => Sys2Proof.Machine.execWaitcnt f s
  | .waitvid f => Sys2Proof.Machine.execWaitvid f s
  | .nop => Sys2Proof.Machine.execNop s

end Sys2Proof.Machine
end

