-- ==== Sys2Proof/Machine/Peripherals.lean ====
section
/-! DEFINITION. The counters (spec/48_counter.md), the waveform generator and the timing-lock group, and the pin-state
multiplexer (spec/49_video_pll_pins.md). -/

namespace Sys2Proof.Machine

/-! ## Counters -/

/-- `CTRMODE`, bits 30:26 (spec/10_state.md R35). -/
def ctrMode (ctr : Long) : BitVec 5 := ctr.extractLsb' 26 5

/-- `APIN`, bits 5:0. -/
def apin (ctr : Long) : Nat := (ctr.extractLsb' 0 6).toNat

/-- `BPIN`, bits 14:9. -/
def bpin (ctr : Long) : Nat := (ctr.extractLsb' 9 6).toNat

/-- `PLLDIV`, bits 25:23: the oscillator is divided by 2^(7 - PLLDIV) (R432); it has no digital effect but through `vclk` and
`pll_out`. -/
def pllDiv (ctr : Long) : BitVec 3 := ctr.extractLsb' 23 3

/-- The accumulate column of the mode table (R424): never when disabled, always in the PLL, NCO and DUTY modes, the detector
conditions, and the sixteen LOGIC modes as the truth table of R425 in the low four mode bits. -/
def accumulates (mode : BitVec 5) (a1 a2 b1 : Bool) : Bool :=
  if mode.getLsbD 4 then mode.getLsbD (2 * b1.toNat + a1.toNat)
  else
    match mode.toNat / 2 with
    | 0 => mode.getLsbD 0
    | 1 => true
    | 2 => true
    | 3 => true
    | 4 => a1
    | 5 => a1 && !a2
    | 6 => !a1
    | _ => !a1 && a2

/-- The output columns of the mode table (R424, R426): the pair (outA, outB). -/
def ctrOutputs (mode : BitVec 5) (phs : Long) (carry a1 pllOut : Bool) : Bool × Bool :=
  match mode.toNat with
  | 2 => (pllOut, false)
  | 3 => (pllOut, !pllOut)
  | 4 => (phs.msb, false)
  | 5 => (phs.msb, !phs.msb)
  | 6 => (carry, false)
  | 7 => (carry, !carry)
  | 9 => (false, !a1)
  | 11 => (false, !a1)
  | 13 => (false, !a1)
  | 15 => (false, !a1)
  | _ => (false, false)

/-- One bit at a place of a pin vector. -/
def pinBit (b : Bool) (n : Nat) : Pins := if b then BitVec.twoPow 64 n else 0

/-- The output contribution of a pair of outputs at the pins of a control register (R427). -/
def ctrContribution (ctr : Long) (outA outB : Bool) : Pins := pinBit outA (apin ctr) ||| pinBit outB (bpin ctr)

/-- One tick of a counter (R421), with the PLL pin level of this tick; the contribution it returns is held (R420). -/
def Counter.clock (g : Counter) (pins : Pins) (pllOut : Bool) : Counter :=
  let mode := ctrMode g.ctr
  let acc := accumulates mode g.a1 g.a2 g.b1
  let total := g.phs.toNat + g.frq.toNat
  let phs := if acc then BitVec.ofNat 32 total else g.phs
  let carry := acc && decide (2 ^ 32 ≤ total)
  let out := ctrOutputs mode phs carry g.a1 pllOut
  { g with phs := phs, outA := out.1, outB := out.2, a2 := g.a1, a1 := pins.getLsbD (apin g.ctr),
           b1 := pins.getLsbD (bpin g.ctr), held := ctrContribution g.ctr out.1 out.2 }

/-! ## Waveform generator -/

/-- `VCFG.CMODE`, bit 28: 0 two-colour, 1 four-colour. -/
def cmode (vcfg : Long) : Bool := vcfg.getLsbD 28

/-- `VCFG.VGROUP`, bits 11:9. -/
def vgroup (vcfg : Long) : Nat := (vcfg.extractLsb' 9 3).toNat

/-- `VCFG.VPINS`, bits 7:0. -/
def vpins (vcfg : Long) : Byte := vcfg.extractLsb' 0 8

/-- `VCFG.AURALSUB`, bits 25:23. -/
def auralSub (vcfg : Long) : UnitIx := Fin.ofNat 8 (vcfg.extractLsb' 23 3).toNat

/-- `VSCL.FRAMECLOCKS` with its meaning of 0 (spec/10_state.md R39). -/
def frameClocks (vscl : Long) : BitVec 13 :=
  if vscl.extractLsb' 0 12 = 0 then 4096 else (vscl.extractLsb' 0 12).setWidth 13

/-- `VSCL.PIXELCLOCKS` with its meaning of 0 (spec/10_state.md R39). -/
def pixelClocks (vscl : Long) : BitVec 9 :=
  if vscl.extractLsb' 12 8 = 0 then 256 else (vscl.extractLsb' 12 8).setWidth 9

/-- The next pixel: two bits or one leave at the low end and the last pixel repeats (R464). -/
def nextPixel (vcfg pixels : Long) : Long :=
  if cmode vcfg then (pixels.extractLsb' 30 2 ++ pixels.extractLsb' 2 30 : BitVec 32)
  else (pixels.extractLsb' 31 1 ++ pixels.extractLsb' 1 31 : BitVec 32)

/-- The colour byte that the pixel at the low end selects (R464). -/
def colorByte (vcfg pixels colors : Long) : Byte :=
  let idx := if cmode vcfg then (pixels.extractLsb' 0 2).toNat else (pixels.extractLsb' 0 1).toNat
  colors.extractLsb' (8 * idx) 8

/-- What a video-clock edge finds outside the generator: for a frame reload, the data of a pending WAITVID or the open data
(R464, R466, U15); for the end of a pixel, whether the present `VSCL` gives the next one's length (assumption 20). -/
structure Reload where
  pending : Bool
  opD : Long
  opS : Long
  anyColors : Long
  anyPixels : Long
  pixelFromVscl : Bool
deriving DecidableEq, Repr

/-- The video clocks of the next pixel of the running frame: those of the present `VSCL` (R464's code), or those that the last
frame reload took (R461, spec/70_reset_and_hazards.md R552). They differ only if `VSCL` was written since. DESIGN CHOICE,
assumption 20: the spec states both, so which of the two holds is left open. -/
def Video.nextPixelLen (g : Video) (fromVscl : Bool) : BitVec 9 := if fromVscl then pixelClocks g.vscl else g.pixelLen

/-- One video-clock edge (R464). -/
def Video.edge (g : Video) (r : Reload) : Video :=
  let frame := g.frameCnt - 1
  let g :=
    if frame = 0 then
      let g := { g with frameCnt := frameClocks g.vscl, pixelCnt := pixelClocks g.vscl, pixelLen := pixelClocks g.vscl }
      if r.pending && !g.vidAck then { g with colors := r.opD, pixels := r.opS, vidAck := true }
      else { g with colors := r.anyColors, pixels := r.anyPixels }
    else
      let pixel := g.pixelCnt - 1
      if pixel = 0 then
        let length := g.nextPixelLen r.pixelFromVscl
        { g with frameCnt := frame, pixelCnt := length, pixels := nextPixel g.vcfg g.pixels }
      else { g with frameCnt := frame, pixelCnt := pixel }
  { g with vidOut := colorByte g.vcfg g.pixels g.colors }

/-- Counter A is in a PLL mode, 00001 to 00011 (R475). -/
def pllMode (ctr : Long) : Bool := decide (1 ≤ (ctrMode ctr).toNat) && decide ((ctrMode ctr).toNat ≤ 3)

/-- The video-clock edges of a unit in this tick: none unless attached and counter A is in a PLL mode (R475). -/
def CogUnit.videoEdges (u : CogUnit) (k : UnitIx) (tick : Nat) : Nat :=
  if u.vid.pllAttached && pllMode u.ctrA.ctr then Config.vclk k tick else 0

/-- What an edge of this tick finds outside the generator (R466, assumption 20). -/
def CogUnit.reloadAt (u : CogUnit) (k : UnitIx) (tick edge : Nat) : Reload :=
  { pending := u.pipe.runState == .waitingVideo, opD := u.pipe.opD, opS := u.pipe.opS,
    anyColors := Config.anyLong tick k (.colors edge), anyPixels := Config.anyLong tick k (.pixels edge),
    pixelFromVscl := Config.pixelFromVscl }

/-- The aural side channel, which exists only while the generator is attached (R470, R472, R474). -/
def Video.auralLevel (g : Video) (tick : Nat) : Option Bool :=
  if g.pllAttached then some (Config.aural (auralSub g.vcfg) tick) else none

/-- The output byte by `VMODE` (R462, R467). -/
def Video.outByte (g : Video) (tick : Nat) : Byte :=
  match (vmode g.vcfg).toNat with
  | 0 => 0
  | 1 => g.vidOut
  | _ => Config.compositeEncode g.vidOut g.vcfg (g.auralLevel tick) tick

/-- The pin contribution of the waveform generator as it is recomputed (R467). -/
def Video.contribution (g : Video) (tick : Nat) : Pins :=
  (g.outByte tick &&& vpins g.vcfg).setWidth 64 <<< (8 * vgroup g.vcfg)

/-- `n` video-clock edges (R463); the reload data may differ from edge to edge. -/
def Video.edges (g : Video) (reload : Nat → Reload) : Nat → Video
  | 0 => g
  | n + 1 => (Video.edges g reload n).edge (reload n)

/-- `vid.clock(n)` (R463): `n` edges, then the contribution is recomputed; with no edge nothing changes. -/
def Video.clock (g : Video) (reload : Nat → Reload) (tick n : Nat) : Video :=
  if n = 0 then g
  else
    let g := g.edges reload n
    { g with held := g.contribution tick }

/-! ## The peripheral part of a unit's step -/

/-- Counter A, counter B, then the waveform generator, after the unit's progress (spec/41_unit_state_machine.md R142). -/
def CogUnit.clockPeripherals (u : CogUnit) (k : UnitIx) (pins : Pins) (tick : Nat) : CogUnit :=
  let u := { u with ctrA := u.ctrA.clock pins (Config.pllOut k .a tick), ctrB := u.ctrB.clock pins (Config.pllOut k .b tick) }
  { u with vid := u.vid.clock (u.reloadAt k tick) tick (u.videoEdges k tick) }

/-! ## Pins -/

/-- A unit's aggregate output: its output registers and the contributions its counters and generator hold (R480). -/
def CogUnit.outputs (u : CogUnit) : Pins :=
  (u.outb ++ u.outa : BitVec 64) ||| u.ctrA.held ||| u.ctrB.held ||| u.vid.held

/-- A unit's directions (R480, R481). -/
def CogUnit.directions (u : CogUnit) : Pins := (u.dirb ++ u.dira : BitVec 64)

/-- The union over the present units of a contribution. -/
def State.unionUnits (s : State) (g : CogUnit → Pins) : Pins :=
  s.units.toList.foldl (fun acc u => if u.active then acc ||| g u else acc) 0

/-- `pinOutputs`: each present unit's outputs gated by its own directions, ORed (R482). -/
def State.drivenPins (s : State) : Pins := s.unionUnits fun u => u.outputs &&& u.directions

/-- `pinDirections`: the present units' directions, ORed (R482). -/
def State.drivenDirs (s : State) : Pins := s.unionUnits CogUnit.directions

/-- What the environment offers in the coming tick: the next drive in the queue, else an open value (spec/10_state.md R62). -/
def State.offeredDrive (s : State) : Pins :=
  match s.extQueue with
  | e :: _ => e
  | [] => Config.extDrive s.tick

/-- `ext` of the coming tick: the offered drive at the bonded pins, 0 at the others (R486, assumption 19). -/
def State.drive (s : State) : Pins := s.offeredDrive &&& bondedPins

/-- The input vector: a driven pin reads as driven, any other as the environment drives it (R483). -/
def State.sampledPins (s : State) : Pins := (s.drive &&& ~~~s.pinDir) ||| (s.pinOut &&& s.pinDir)

end Sys2Proof.Machine
end

