-- ==== Sys2Proof/Machine/Tick.lean ====
section
/-! DEFINITION. One tick: a unit's hub hook and ordinary step (spec/41_unit_state_machine.md R141 to R145) and the global step of
the shared bus (spec/47_hub_arbiter.md R380, R381). -/

namespace Sys2Proof.Machine

/-- The execute tick of the running unit: decode `IR` and run the instruction, in the native strategy (R152, R160); the
interpreted strategy is refused (R172). -/
def executeTick (s : State) : Out :=
  match s.unit.strategy with
  | .native => exec (decode s.unit.pipe.ir) s
  | .interpreted => .refused .interpretedStrategy

/-- `Progress(u)` of the running unit (R143). -/
def progress (s : State) : Out :=
  match s.unit.pipe.runState with
  | .loadingProgram => .next s
  | .executingInstruction => executeTick s
  | .bootingInterpreter => .refused .interpretedStrategy
  | .waitingInterpreter => .refused .interpretedStrategy
  | .fetchingInterpreter => .refused .interpretedStrategy
  | .waitingCycles => .next (s.setUnit (s.unit.burn (s.viewOf s.cur)))
  | .waitingPrewait => .next (s.setUnit s.unit.burnPrewait)
  | .waitingPinsEqual => .next (pollPinsEqual s)
  | .waitingPinsNotEqual => .next (pollPinsNotEqual s)
  | .waitingCounter => .next (pollCounter s)
  | .waitingVideo => .next (pollVideo s)
  | .hubReadByte => .next s
  | .hubReadWord => .next s
  | .hubReadLong => .next s
  | .hubOperation => .next s

/-- `HubHook(u)` of the running unit (R145). -/
def hubHook (s : State) : Out :=
  match s.unit.pipe.runState with
  | .loadingProgram => loadLong s
  | .hubReadByte => .next (hubRead s 1)
  | .hubReadWord => .next (hubRead s 2)
  | .hubReadLong => .next (hubRead s 4)
  | .hubOperation => .next (hubTransact s)
  | _ => .next s

/-- `StepResult(u)`: false when `pc` has just arrived at the breakpoint (R144). -/
def CogUnit.stepResult (u : CogUnit) : Bool := !(u.pcFresh && u.breakpoint == some u.pc)

/-- The rest of `Step(u)` after the progress of the running unit: counters, waveform generator, result, `pcFresh` (R142). -/
def finishUnit (s : State) : State :=
  let u := s.unit.clockPeripherals s.cur s.pinIn s.tick
  { s.setUnit { u with pcFresh := false } with stepOk := s.stepOk && u.stepResult }

/-- `Step(u)` of unit `k`, if the slot holds one (R142, R380 sub-step 4). -/
def stepUnit (k : UnitIx) (s : State) : Out :=
  if s.units[k].active then andThen (progress { s with cur := k }) fun s => .next (finishUnit s) else .next s

/-- The ordinary steps of the units, in order (R380 sub-step 4). -/
def stepUnits : List UnitIx → State → Out
  | [], s => .next s
  | k :: rest, s => andThen (stepUnit k s) (stepUnits rest)

/-- The start of a tick: the input vector, then the counter (R380 sub-steps 1 and 2). -/
def beginTick (s : State) : State :=
  { s with pinIn := s.sampledPins, counter := s.counter + 1, stepOk := true, tick := s.tick + 1, extQueue := s.extQueue.tail }

/-- The hub grant: the hook of the unit that owns the window, if the slot holds one (R380 sub-step 3). -/
def hubGrant (s : State) : Out :=
  match window s.counter with
  | some k => if s.units[k].active then hubHook { s with cur := k } else .next s
  | none => .next s

/-- The end of a tick: the registered pin outputs (R380 sub-step 5, R482). -/
def endTick (s : State) : State := { s with pinOut := s.drivenPins, pinDir := s.drivenDirs, cur := 0 }

/-- `hub.Step(ext)` (R380). -/
def hubStep (s : State) : Out :=
  andThen (hubGrant (beginTick s)) fun s =>
    andThen (stepUnits [0, 1, 2, 3, 4, 5, 6, 7] s) fun s => .next (endTick s)

/-- Put an instruction where unit 0 runs next, as its boot would have left it: in the latch `IR` and in the cell at `pc`, in
state ExecutingInstruction of the native strategy (R151, R160). Nothing else of the machine changes. -/
def placeInstr (s : State) (w : Long) : State :=
  let u := s.units[(0 : UnitIx)]
  s.setSlot 0 { u with
    active := true
    strategy := .native
    mem := if u.pc.toNat < sprBase then Cells.put u.mem u.pc.toNat w else u.mem
    pipe := { u.pipe with ir := w, runState := .executingInstruction } }

end Sys2Proof.Machine
end

