-- ==== Sys2Proof/Machine/HostPort.lean ====
section
/-! DEFINITION. The host port: what the host may do between ticks (spec/60_exceptions.md R512 to R514, spec/47_hub_arbiter.md
R397, R400, spec/70_reset_and_hazards.md R530, R531). -/

namespace Sys2Proof.Machine

/-- What a host call that returns a value answers. -/
inductive HostAnswer (α : Type) where
  | value (a : α)
  | refused (r : Refusal)
deriving DecidableEq, Repr

/-- A host call that reads slot `k`. -/
def hostAsk {α : Type} (s : State) (k : UnitIx) (ask : CogUnit → α) : HostAnswer α :=
  if s.units[k].active then .value (ask s.units[k]) else .refused .hostEmptySlot

/-- A host call that changes slot `k`. -/
def hostTell (s : State) (k : UnitIx) (change : CogUnit → CogUnit) : Out :=
  if s.units[k].active then .next (s.setSlot k (change s.units[k])) else .refused .hostEmptySlot

/-- `reset()` (R530): every slot is emptied, the boot units are created anew, and hub RAM is left alone. -/
def hostReset (s : State) : State :=
  { s with counter := 0, pinOut := 0, pinDir := 0, pinIn := 0, units := unitsAtReset, lockAlloc := 0, lockState := 0, clk := 0,
           stepOk := true, cur := 0 }

/-- The cells of an image laid out from address `a` (R531). -/
def imageCells (a : Nat) : List Byte → List Host.Cell
  | [] => []
  | v :: rest => if v = 0 then imageCells (a + 1) rest else (a, v) :: imageCells (a + 1) rest

/-- `loadImage(bytes)` (R531): hub RAM is zeroed, takes the image from address 0, and the chip is reset. The reset creates the
boot units anew, so no `IR` outlives the call: R546's parenthesis, by which a `loadImage` leaves `IR` and the fetched
instruction executes, is set aside for R530 and R531 (DESIGN CHOICE, assumption 18). -/
def hostLoadImage (s : State) (bytes : List Byte) : Out :=
  if bytes.length ≤ hubRamBytes then .next (hostReset { s with mem := imageCells 0 bytes }) else .refused .imageTooLong

/-- `readGlobal(addr)` (R400). -/
def hostReadGlobal (s : State) (addr : Long) : Long := memRead s.mem addr 4

/-- `read(addr)` of a unit (R512); the address is reduced modulo 512 (R501). -/
def hostRead (s : State) (k : UnitIx) (addr : Nat) : HostAnswer Long :=
  hostAsk s k fun u => u.read (s.viewOf k) (BitVec.ofNat 9 addr)

/-- `write(addr, word)` of a unit (R512); `IR` does not change (R546). -/
def hostWrite (s : State) (k : UnitIx) (addr : Nat) (v : Long) : Out :=
  hostTell s k fun u => u.write (BitVec.ofNat 9 addr) v

/-- `programCounter` get (R512). -/
def hostGetPc (s : State) (k : UnitIx) : HostAnswer CogAddr := hostAsk s k CogUnit.pc

/-- `programCounter` set (R512): refetches `IR` and leaves `pcFresh`; in any state but ExecutingInstruction it has no effect,
the second of the two choices of R514 (assumption 14). -/
def hostSetPc (s : State) (k : UnitIx) (v : Nat) : Out :=
  let a := BitVec.ofNat 9 v
  hostTell s k fun u =>
    if u.pipe.runState = .executingInstruction then { u with pc := a, pipe := { u.pipe with ir := u.read (s.viewOf k) a } }
    else u

/-- `breakpointAddress` get (R512). -/
def hostGetBreakpoint (s : State) (k : UnitIx) : HostAnswer (Option CogAddr) := hostAsk s k CogUnit.breakpoint

/-- `breakpointAddress` set: absent, or an address modulo 512 (R512). -/
def hostSetBreakpoint (s : State) (k : UnitIx) (v : Option Nat) : Out :=
  hostTell s k fun u => { u with breakpoint := v.map (BitVec.ofNat 9) }

/-- `outputPins` of a unit (R480, R512). -/
def hostOutputs (s : State) (k : UnitIx) : HostAnswer Pins := hostAsk s k CogUnit.outputs

/-- `outputDirections` of a unit (R480, R512). -/
def hostDirections (s : State) (k : UnitIx) : HostAnswer Pins := hostAsk s k CogUnit.directions

/-- The run state of a unit, which the run-state label displays (R512). -/
def hostRunState (s : State) (k : UnitIx) : HostAnswer RunState := hostAsk s k fun u => u.pipe.runState

/-- The identification of a unit (R512, spec/10_state.md R40). -/
def hostIdent (s : State) (k : UnitIx) : HostAnswer Long := hostAsk s k fun _ => BitVec.ofNat 32 k.val

/-- A direct `step()` of one unit, outside the global step: the spec gives it no behaviour (R513, U22). -/
def hostUnitStep (_s : State) (_k : UnitIx) : Out := .refused .hostUnitStep

/-- The host stops a unit (R397). -/
def hostStop (s : State) (k : UnitIx) : State := stopUnit s k

/-- The environment supplies the external drives of the coming ticks (R62, R483). -/
def hostDrive (s : State) (drives : List Pins) : State := { s with extQueue := drives }

/-- The aggregated chip-wide pin accessors (R400): `pinOutputs`, `pinDirections`, `IN`. -/
def hostPins (s : State) : Pins × Pins × Pins := (s.pinOut, s.pinDir, s.pinIn)

/-- `detach()` / `destroy()` of a generator's link (spec/49_video_pll_pins.md R472). -/
def Video.detach (g : Video) : Video := { g with pllAttached := false }

/-- `attach(generator)` (spec/49_video_pll_pins.md R471). -/
def Video.attach (g : Video) : Video := { g with pllAttached := true }

end Sys2Proof.Machine
end

