-- ==== Sys2Proof/Machine/Step.lean ====
section
/-! DEFINITION. The step of the machine: one tick of the shared bus (spec/00_scope.md R13, spec/47_hub_arbiter.md R380). -/

namespace Sys2Proof.Machine

/-- One tick. -/
def step (s : State) : Host.Outcome State Fault Refusal := hubStep s

/-- The state in which the next step runs the instruction whose bits are `w` as unit 0's next one (assumption 12). -/
def State.withFetchWord (s : State) (_nbits w : Nat) : State := placeInstr s (BitVec.ofNat 32 w)

end Sys2Proof.Machine
end

