-- ==== Sys2Proof/Safety.lean ====
section
/-! DEFINITION. The words the claims are stated in: what it is for an instruction to complete, and which states are legal. -/

namespace Sys2Proof.Machine

/-! ## Encoding -/

/-- The long of an instruction has `op` in its opcode field and the instruction's operands, effect bits and condition in the
fields of spec/30_encoding.md R100. -/
def Encoded (i : Instr) (op : BitVec 6) : Prop := opField (encode i) = op ∧ fieldsOf (encode i) = i.fields

/-! ## Completion -/

/-- `n` ticks of progress of the running unit (spec/41_unit_state_machine.md R143), with nothing else acting in between. -/
def progressN : Nat → State → Out
  | 0, s => .next s
  | n + 1, s => andThen (progress s) (progressN n)

/-- The registers whose writes are discarded: CNT, INA, INB (spec/42_special_registers.md R191, R194). -/
def readOnly (a : CogAddr) : Bool := a == 0x1F1 || a == 0x1F2 || a == 0x1F3

/-- What of a unit no cog address, flag, program counter or latch of the instruction cycle shows: everything else is blanked
out, so that two units agree on it exactly if their blanked forms are equal. -/
def CogUnit.hidden (u : CogUnit) : CogUnit :=
  { u with
    mem := [], pc := 0, c := false, z := false, par := 0, outa := 0, outb := 0, dira := 0, dirb := 0
    ctrA := { u.ctrA with ctr := 0, frq := 0, phs := 0 }
    ctrB := { u.ctrB with ctr := 0, frq := 0, phs := 0 }
    vid := { u.vid with vcfg := 0, vscl := 0, pllAttached := false, held := 0 }
    pipe := Pipe.created, pcFresh := false }

/-- `t` is `b` after the running unit has completed an instruction of fields `f` that offers the result `r` and the flags `c`
and `z`, the next instruction being at `target` (spec/41_unit_state_machine.md R167, R168). The next instruction is fetched
from `b`, that is before the write-back. -/
structure Committed (b t : State) (f : Fields) (r : Long) (c z : Bool) (target : CogAddr) : Prop where
  /-- The unit is at its next execute tick. -/
  runs : t.unit.pipe.runState = .executingInstruction
  /-- The program counter is at the next instruction. -/
  pc : t.unit.pc = target
  /-- The assignment of the program counter is fresh, for the breakpoint (R144). -/
  fresh : t.unit.pcFresh = true
  /-- The next instruction is what its address read as before the write-back. -/
  fetched : t.unit.pipe.ir = b.readReg target
  /-- C is written under `wc` only. -/
  flagC : t.unit.c = if f.wc then c else b.unit.c
  /-- Z is written under `wz` only. -/
  flagZ : t.unit.z = if f.wz then z else b.unit.z
  /-- Of the 512 cog addresses only `d` changes, under `wr` only, and not if it is read-only. -/
  regs : ∀ a, t.readReg a = if f.wr ∧ a = f.d ∧ readOnly a = false then r else b.readReg a
  /-- A write of VCFG attaches or detaches the generator (R191); nothing else does. -/
  link : t.unit.vid.pllAttached = if f.wr ∧ f.d = 0x1FE then vmode r != 0 else b.unit.vid.pllAttached
  /-- A write of VCFG with VMODE 0 ends the generator's pin contribution (spec/49_video_pll_pins.md R462); any other write
  leaves it until the next video clock (R461, R463). -/
  held : t.unit.vid.held = if f.wr ∧ f.d = 0x1FE ∧ vmode r = 0 then 0 else b.unit.vid.held
  /-- The rest of the unit is as it was. -/
  rest : t.unit.hidden = b.unit.hidden
  /-- Everything outside the unit is as it was: hub memory, locks, the clock register, the pins, the other units. -/
  outside : t = b.setUnit t.unit

/-- The execute tick of `i` in `s` answers a next state, `n` ticks of progress later the instruction has completed, and before
that nothing outside the latches of the instruction cycle has changed. -/
def Completes (i : Instr) (s : State) (n : Nat) (r : Long) (c z : Bool) (target : CogAddr) : Prop :=
  ∃ s1, exec i s = .next s1 ∧
    (∀ m < n, ∃ q, progressN m s1 = .next q ∧ q = s.setPipe q.unit.pipe ∧ q.unit.pipe.runState = .waitingCycles) ∧
    ∃ t, progressN n s1 = .next t ∧ Committed s t i.fields r c z target

/-- The condition of the fields holds in the running unit (spec/40_condition_evaluator.md R130, R133). -/
def State.holds (s : State) (f : Fields) : Prop := evaluate f.cond s.unit.c s.unit.z = true

/-- The running unit is a native one with well-formed cells: what every claim about an instruction presumes. -/
def State.native (s : State) : Prop := s.unit.strategy = .native ∧ s.unit.memWf = true

/-- `w` is a later tick of the same unit, blocked with the latches of `s`: whatever has happened to memory, pins, counters and
the other units in between. -/
def State.blockedAs (w s : State) : Prop := w.cur = s.cur ∧ w.unit.pipe = s.unit.pipe ∧ w.native

/-- The execute tick of `i` in `s` answers a next state, two ticks of progress later the unit is blocked in `state`, and nothing
but the latches has changed; in the unit's hub window, in whatever state `w` the rest of the machine then is, the hub hook
performs the transaction that turns `w` into `done w`, and five ticks of progress later the instruction has completed with
the result and flags of `w` (spec/41_unit_state_machine.md R164). -/
def CompletesHub (i : Instr) (s : State) (state : RunState) (good : State → Prop) (done : State → State)
    (offer : State → Result → Prop) : Prop :=
  ∃ s1 s2, exec i s = .next s1 ∧ progressN 2 s1 = .next s2 ∧ s2 = s.setPipe s2.unit.pipe ∧
    s2.unit.pipe.runState = state ∧
    ∀ w, w.blockedAs s2 → good w → ∃ w1 t res, hubHook w = .next w1 ∧
      (∀ m < 5, ∃ q, progressN m w1 = .next q ∧ q = (done w).setPipe q.unit.pipe) ∧
      progressN 5 w1 = .next t ∧ offer w res ∧ Committed (done w) t i.fields res.r res.c res.z (s.unit.pc + 1)

/-- The execute tick of `i` in `s` answers a next state in which nothing but the latches has changed and the unit is blocked in
`state`; in whatever state `w` the rest of the machine is at a later tick, the unit makes no progress while the predicate is
false, and completes `tail` ticks after the one in which it holds (spec/41_unit_state_machine.md R155, R165). -/
def CompletesWait (i : Instr) (s : State) (state : RunState) (tail : Nat) (ready : State → Prop) (done : State → State)
    (offer : State → Result → Prop) : Prop :=
  ∃ s1, exec i s = .next s1 ∧ s1 = s.setPipe s1.unit.pipe ∧ s1.unit.pipe.runState = state ∧
    ∀ w, w.blockedAs s1 →
      (¬ ready w → progress w = .next w) ∧
      (ready w → ∃ w1 t res, progress w = .next w1 ∧
        (∀ m < tail, ∃ q, progressN m w1 = .next q ∧ q = (done w).setPipe q.unit.pipe) ∧
        progressN tail w1 = .next t ∧ offer w res ∧ Committed (done w) t i.fields res.r res.c res.z (s.unit.pc + 1))

/-- An odd number of bits is 1 (`parity`, spec/00_scope.md R12). -/
def oddOnes (v : Long) : Bool := decide (((List.range 32).filter v.getLsbD).length % 2 = 1)

/-! ## Legal states -/

/-- The run states of the native strategy (spec/41_unit_state_machine.md R152, R171). -/
def RunState.isNative : RunState → Bool
  | .bootingInterpreter | .waitingInterpreter | .fetchingInterpreter => false
  | _ => true

/-- The four hub states (spec/41_unit_state_machine.md R140). -/
def RunState.isHub : RunState → Bool
  | .hubReadByte | .hubReadWord | .hubReadLong | .hubOperation => true
  | _ => false

/-- What the run-state machine's latches may hold between ticks (R153, R154, R164, R171): a burn has ticks left and a legal
state to go to. -/
def Pipe.legal (p : Pipe) : Bool :=
  p.runState.isNative &&
    match p.runState with
    | .waitingCycles => decide (1 ≤ p.stateArg.toNat) && decide (p.stateArg.toNat ≤ 7) && p.nextState == .executingInstruction
    | .waitingPrewait => decide (1 ≤ p.stateArg.toNat) && decide (p.stateArg.toNat ≤ 2) && p.nextState.isHub
    | _ => true

/-- What the waveform generator may hold between ticks (spec/10_state.md R60, spec/49_video_pll_pins.md R471, R472). -/
def Video.legal (g : Video) : Bool :=
  decide (1 ≤ g.frameCnt.toNat) && decide (g.frameCnt.toNat ≤ 4096) && decide (1 ≤ g.pixelCnt.toNat) &&
    decide (g.pixelCnt.toNat ≤ 256) && decide (1 ≤ g.pixelLen.toNat) && decide (g.pixelLen.toNat ≤ 256) &&
    g.pllAttached == (vmode g.vcfg != 0)

/-- What a slot may hold between ticks: canonical cells, a load count below the threshold (spec/10_state.md R52), legal
latches, an acknowledge only for a waiting unit (spec/49_video_pll_pins.md R466), no pin contribution of a disabled generator
(R462), no fresh program counter (R58), and nothing at all in an empty slot (R43). -/
def CogUnit.legal (u : CogUnit) : Bool :=
  u.memWf && decide (u.count < sprBase) && u.pipe.legal && u.vid.legal &&
    (!u.vid.vidAck || u.pipe.runState == .waitingVideo) &&
    (vmode u.vid.vcfg != 0 || u.vid.held == 0) && !u.pcFresh && (u.active || u == CogUnit.vacant)

/-- What the machine is in between ticks: hub RAM in its canonical form, every slot legal, and the registered pins those of the
present units (spec/49_video_pll_pins.md R482). -/
def State.legal (s : State) : Prop :=
  Memory.wf s.mem = true ∧ (∀ k : UnitIx, s.units[k].legal = true) ∧ s.pinOut = s.drivenPins ∧ s.pinDir = s.drivenDirs ∧
    s.cur = 0

/-- Slot `k` holds a unit, and no other slot does. -/
def State.alone (s : State) (k : UnitIx) : Prop := s.units[k].active = true ∧ ∀ j : UnitIx, j ≠ k → s.units[j].active = false

/-- In the coming tick the program counter of slot `k`'s unit is assigned `a`: the unit is in the last tick of an instruction
(spec/41_unit_state_machine.md R153, R168), or it loads its last long in a window of its own and boots (R150, R151). -/
def State.arrives (s : State) (k : UnitIx) (a : CogAddr) : Prop :=
  let u := s.units[k]
  u.active = true ∧
    ((u.pipe.runState = .waitingCycles ∧ u.pipe.nextState = .executingInstruction ∧ u.pipe.stateArg = 1 ∧
        a = u.pipe.pcNext) ∨
      (u.pipe.runState = .loadingProgram ∧ u.count = 495 ∧ window (s.counter + 1) = some k ∧ a = 0))

/-- In the coming tick another unit than `k` performs a COGINIT or a COGSTOP that names slot `k`
(spec/43_native_hub_ops.md R231, R232). -/
def State.overrides (s : State) (k : UnitIx) : Prop :=
  ∃ j : UnitIx, j ≠ k ∧ window (s.counter + 1) = some j ∧ s.units[j].active = true ∧
    let p := s.units[j].pipe
    p.runState = .hubOperation ∧ (p.hubKind = .coginit ∧ p.opD.getLsbD 3 = false ∨ p.hubKind = .cogstop) ∧
      p.opD.toNat % 8 = k.val

/-- `n` ticks of the machine. -/
def stepN : Nat → State → Out
  | 0, s => .next s
  | n + 1, s => andThen (step s) (stepN n)

/-- A refusal that the spec asks for: a reserved opcode whose condition holds (spec/30_encoding.md R109). -/
def Refusal.isReserved : Refusal → Bool
  | .reservedMul | .reservedMuls | .reservedEnc | .reservedOnes => true
  | _ => false

/-! ## The mode table of the counters, row by row (spec/48_counter.md R424) -/

/-- The column "accumulate". -/
def modeAccumulates (mode : Nat) (a1 a2 b1 : Bool) : Bool :=
  match mode with
  | 0 => false
  | 1 | 2 | 3 | 4 | 5 | 6 | 7 => true
  | 8 | 9 => a1
  | 10 | 11 => a1 && !a2
  | 12 | 13 => !a1
  | 14 | 15 => !a1 && a2
  | 16 => false
  | 17 => !a1 && !b1
  | 18 => a1 && !b1
  | 19 => !b1
  | 20 => !a1 && b1
  | 21 => !a1
  | 22 => a1 != b1
  | 23 => !a1 || !b1
  | 24 => a1 && b1
  | 25 => a1 == b1
  | 26 => a1
  | 27 => a1 || !b1
  | 28 => b1
  | 29 => !a1 || b1
  | 30 => a1 || b1
  | _ => true

/-- The column "outA". -/
def modeOutA (mode : Nat) (phs : Long) (carry pll : Bool) : Bool :=
  if mode = 2 ∨ mode = 3 then pll
  else if mode = 4 ∨ mode = 5 then phs.getLsbD 31
  else if mode = 6 ∨ mode = 7 then carry
  else false

/-- The column "outB". -/
def modeOutB (mode : Nat) (phs : Long) (carry pll a1 : Bool) : Bool :=
  if mode = 3 then !pll
  else if mode = 5 then !phs.getLsbD 31
  else if mode = 7 then !carry
  else if mode = 9 ∨ mode = 11 ∨ mode = 13 ∨ mode = 15 then !a1
  else false

end Sys2Proof.Machine
end

