-- ==== Sys2Proof/Certificates/Slice0/Obligations.lean ====
section
/-! DEFINITION. The statements for the provers: the numbered rules of the spec that say what the machine does. Where a
statement says that an instruction completes (`Completes`, `CompletesHub`, `CompletesWait` of Sys2Proof/Safety.lean), its
conclusion is that the execute tick answers a next state, and in what state the instruction ends. The first clause of such a
statement says how its instructions are encoded (`Encoded`). -/

open Sys2Proof Sys2Proof.Machine

/-! ## Encoding -/

/-- Decoding the long of a well-formed instruction gives it back, for every one of the 83 instructions and every value of its
operands (R100, R105, R106, R107, R113). -/
def Obligations.DecodeOfEncode : Prop := ∀ i : Instr, i.wellFormed = true → decode (encode i) = i

/-- Every 32-bit value decodes to a well-formed instruction, and encoding that gives the value back: no bit of a long is
dropped and no long is illegal (R101, R110). -/
def Obligations.EncodeOfDecode : Prop := ∀ w : Long, (decode w).wellFormed = true ∧ encode (decode w) = w

/-- The long of an instruction is the sum of its shifted fields, and the worked example (the spec's derived rule R114). -/
def Obligations.AssembledLong : Prop :=
  (∀ i : Instr, (encode i).toNat =
    i.opcode.toNat * 2 ^ 26 + i.fields.wz.toNat * 2 ^ 25 + i.fields.wc.toNat * 2 ^ 24 + i.fields.wr.toNat * 2 ^ 23 +
      i.fields.src.immBit.toNat * 2 ^ 22 + i.fields.cond.toNat * 2 ^ 18 + i.fields.d.toNat * 2 ^ 9 +
      i.fields.src.bits.toNat) ∧
  encode (.add { wz := false, wc := false, wr := true, cond := 15, d := 0x010, src := .imm 1 }) = 0x80FC2001

/-- Words written out from the encodings of the spec decode to the instructions they stand for: one word of each family. -/
def Obligations.WrittenWordsDecode : Prop :=
  decode 0x00000000 = .nop ∧
  decode 0x5C7C0004 = .jmp { wz := false, wc := false, wr := false, cond := 15, d := 0, src := .imm 4 } ∧
  decode 0x5C7C0000 = .ret { wz := false, wc := false, wr := false, cond := 15, d := 0, src := .imm 0 } ∧
  decode 0xA0FC2003 = .mov { wz := false, wc := false, wr := true, cond := 15, d := 0x010, src := .imm 3 } ∧
  decode 0xE4FC2001 = .djnz { wz := false, wc := false, wr := true, cond := 15, d := 0x010, src := .imm 1 } ∧
  decode 0x0CFC2001 = .cogid { wz := false, wc := false, wr := true, cond := 15, d := 0x010, src := .imm 1 } ∧
  decode 0x08BC2011 = .rdlong { wz := false, wc := false, wr := true, cond := 15, d := 0x010, src := .reg 0x011 } ∧
  decode 0x20FC2004 = .ror { wz := false, wc := false, wr := true, cond := 15, d := 0x010, src := .imm 4 } ∧
  decode 0x863C2011 = .cmp { wz := true, wc := false, wr := false, cond := 15, d := 0x010, src := .reg 0x011 } ∧
  decode 0xF8FC2000 = .waitcnt { wz := false, wc := false, wr := true, cond := 15, d := 0x010, src := .imm 0 }

/-! ## Condition -/

/-- The truth table of the condition evaluator (R130), by its column of Boolean functions as the spec derives it (R131). -/
def Obligations.ConditionTable : Prop :=
  ∀ c z : Bool,
    evaluate 0b0000 c z = false ∧ evaluate 0b0001 c z = (!c && !z) ∧ evaluate 0b0010 c z = (!c && z) ∧
    evaluate 0b0011 c z = !c ∧ evaluate 0b0100 c z = (c && !z) ∧ evaluate 0b0101 c z = !z ∧
    evaluate 0b0110 c z = (c != z) ∧ evaluate 0b0111 c z = (!c || !z) ∧ evaluate 0b1000 c z = (c && z) ∧
    evaluate 0b1001 c z = (c == z) ∧ evaluate 0b1010 c z = z ∧ evaluate 0b1011 c z = (!c || z) ∧
    evaluate 0b1100 c z = c ∧ evaluate 0b1101 c z = (c || !z) ∧ evaluate 0b1110 c z = (c || z) ∧
    evaluate 0b1111 c z = true

/-- R161: an instruction, any of the 83, whose condition is false completes three ticks after its execute tick at the
following address, and writes neither a register nor a flag. -/
def Obligations.SkippedInstruction : Prop :=
  ∀ (i : Instr) (s : State), s.native → ¬ s.holds i.fields →
    ∃ s1, exec i s = .next s1 ∧ s1.unit.pipe.wb.destEn = false ∧ s1.unit.pipe.wb.zEn = false ∧
      s1.unit.pipe.wb.cEn = false ∧ s1.unit.pipe.pcNext = s.unit.pc + 1 ∧ s1.unit.pipe.stateArg = 3 ∧
      s1.unit.pipe.nextState = .executingInstruction ∧ s1.unit.pipe.opD = s.unit.pipe.opD ∧
      s1.unit.pipe.opS = s.unit.pipe.opS ∧
      (∀ m < 3, ∃ q, progressN m s1 = .next q ∧ q = s.setPipe q.unit.pipe ∧ q.unit.pipe.runState = .waitingCycles) ∧
      ∃ t, progressN 3 s1 = .next t ∧
        Committed s t { i.fields with wr := false, wc := false, wz := false } 0 false false (s.unit.pc + 1)

/-- R108: NOP never executes: whatever the flags it completes three ticks after its execute tick and writes nothing. -/
def Obligations.NopCompletes : Prop :=
  ∀ s : State, s.native → ∃ r c z, Completes .nop s 3 r c z (s.unit.pc + 1)

/-- R109, R238 to R241: a reserved opcode whose condition holds is refused, each by its own name; when the condition is false
it is skipped in four ticks like any instruction. -/
def Obligations.ReservedOpcodes : Prop :=
  ∀ (f : Fields) (s : State),
    (∀ p ∈ [(Instr.mul f, 0b000100#6), (.muls f, 0b000101#6), (.enc f, 0b000110#6),
      (.ones f, 0b000111#6)], Encoded p.1 p.2) ∧
    (s.holds f → exec (.mul f) s = .refused .reservedMul ∧ exec (.muls f) s = .refused .reservedMuls ∧
      exec (.enc f) s = .refused .reservedEnc ∧ exec (.ones f) s = .refused .reservedOnes) ∧
    (s.native → ¬ s.holds f → ∀ i ∈ [Instr.mul f, .muls f, .enc f, .ones f], ∃ s1 t, exec i s = .next s1 ∧
      progressN 3 s1 = .next t ∧
      Committed s t { f with wr := false, wc := false, wz := false } 0 false false (s.unit.pc + 1))

/-- The execute tick of any of the 83 instructions changes nothing but the latches of the running unit's instruction cycle:
no register, no flag, no byte of hub memory, not the program counter, not the fetched instruction; it latches the
instruction (R160, R166). -/
def Obligations.ExecuteTickFrame : Prop :=
  ∀ (i : Instr) (s t : State), exec i s = .next t →
    t = s.setPipe t.unit.pipe ∧ t.unit.pipe.ir = s.unit.pipe.ir ∧ t.unit.pipe.opIR = encode i ∧
      (s.holds i.fields → t.unit.pipe.opD = s.readReg i.fields.d ∧ t.unit.pipe.opS = s.source i.fields.src)

/-! ## Shifts, limits, field moves, logic -/

/-- R261 to R268: the shifts and rotates, with the bits of their results. -/
def Obligations.ShiftResults : Prop :=
  ∀ (f : Fields) (s : State), s.native → s.holds f →
    let D := s.readReg f.d
    let n := (s.source f.src).toNat % 32
    let C := s.unit.c
    let next := s.unit.pc + 1
    let result (i : Instr) (bit : Nat → Bool) (c : Bool) : Prop :=
      ∃ R : Long, (∀ j < 32, R.getLsbD j = bit j) ∧ Completes i s 3 R c (R == 0) next
    (∀ p ∈ [(Instr.ror f, 0b001000#6), (.rol f, 0b001001#6), (.shr f, 0b001010#6), (.shl f, 0b001011#6),
      (.rcr f, 0b001100#6), (.rcl f, 0b001101#6), (.sar f, 0b001110#6), (.rev f, 0b001111#6)], Encoded p.1 p.2) ∧
    result (.ror f) (fun j => D.getLsbD ((j + n) % 32)) (D.getLsbD 0) ∧
    result (.rol f) (fun j => D.getLsbD ((j + 32 - n) % 32)) (D.getLsbD 31) ∧
    result (.shr f) (fun j => decide (j + n < 32) && D.getLsbD (j + n)) (D.getLsbD 0) ∧
    result (.shl f) (fun j => decide (n ≤ j) && D.getLsbD (j - n)) (D.getLsbD 31) ∧
    result (.rcr f) (fun j => if j + n < 32 then D.getLsbD (j + n) else C) (D.getLsbD 0) ∧
    result (.rcl f) (fun j => if n ≤ j then D.getLsbD (j - n) else C) (D.getLsbD 31) ∧
    result (.sar f) (fun j => if j + n < 32 then D.getLsbD (j + n) else D.getLsbD 31) (D.getLsbD 0) ∧
    result (.rev f) (fun j => decide (j + n < 32) && D.getLsbD (31 - n - j)) (D.getLsbD 0)

/-- R269 to R272: the limit instructions take the greater or the lesser value, signed or unsigned; C is "D less than S" and Z
is "S is zero". -/
def Obligations.LimitResults : Prop :=
  ∀ (f : Fields) (s : State), s.native → s.holds f →
    let D := s.readReg f.d
    let S := s.source f.src
    let next := s.unit.pc + 1
    (∀ p ∈ [(Instr.mins f, 0b010000#6), (.maxs f, 0b010001#6), (.min f, 0b010010#6),
      (.max f, 0b010011#6)], Encoded p.1 p.2) ∧
    (∃ R : Long, R.toInt = max D.toInt S.toInt ∧ Completes (.mins f) s 3 R (decide (D.toInt < S.toInt)) (S == 0) next) ∧
    (∃ R : Long, R.toInt = min D.toInt S.toInt ∧ Completes (.maxs f) s 3 R (decide (D.toInt < S.toInt)) (S == 0) next) ∧
    (∃ R : Long, R.toNat = max D.toNat S.toNat ∧ Completes (.min f) s 3 R (decide (D.toNat < S.toNat)) (S == 0) next) ∧
    (∃ R : Long, R.toNat = min D.toNat S.toNat ∧ Completes (.max f) s 3 R (decide (D.toNat < S.toNat)) (S == 0) next)

/-- R273 to R275: the field moves replace nine bits of D by the low nine of S; the C they offer is open (free value, U4). -/
def Obligations.FieldMoveResults : Prop :=
  ∀ (f : Fields) (s : State), s.native → s.holds f →
    let D := s.readReg f.d
    let S := s.source f.src
    let result (i : Instr) (lo : Nat) : Prop :=
      ∃ (R : Long) (c : Bool),
        (∀ j < 32, R.getLsbD j = if lo ≤ j ∧ j < lo + 9 then S.getLsbD (j - lo) else D.getLsbD j) ∧
        Completes i s 3 R c (R == 0) (s.unit.pc + 1)
    (∀ p ∈ [(Instr.movs f, 0b010100#6), (.movd f, 0b010101#6), (.movi f, 0b010110#6)], Encoded p.1 p.2) ∧
    result (.movs f) 0 ∧ result (.movd f) 9 ∧ result (.movi f) 23

/-- R276 to R281: the logic instructions, bit by bit; C is the parity of the result. TEST and TESTN, whose `wr` is 0, give the
flags of AND and ANDN and store nothing. -/
def Obligations.LogicResults : Prop :=
  ∀ (f : Fields) (s : State), s.native → s.holds f →
    let D := s.readReg f.d
    let S := s.source f.src
    let result (i : Instr) (bit : Bool → Bool → Bool) : Prop :=
      ∃ R : Long, (∀ j < 32, R.getLsbD j = bit (D.getLsbD j) (S.getLsbD j)) ∧
        Completes i s 3 R (oddOnes R) (R == 0) (s.unit.pc + 1)
    (∀ p ∈ [(Instr.and f, 0b011000#6), (.test f, 0b011000#6), (.andn f, 0b011001#6), (.testn f, 0b011001#6),
      (.or f, 0b011010#6), (.xor f, 0b011011#6)], Encoded p.1 p.2) ∧
    (f.wr = true → result (.and f) (fun d x => d && x) ∧ result (.andn f) (fun d x => d && !x)) ∧
    (f.wr = false → result (.test f) (fun d x => d && x) ∧ result (.testn f) (fun d x => d && !x)) ∧
    result (.or f) (fun d x => d || x) ∧ result (.xor f) (fun d x => d != x)

/-- R282 to R285: the multiplexers give the bits of D that S selects the value of a flag or of its complement; C is the parity
of the result. -/
def Obligations.MultiplexResults : Prop :=
  ∀ (f : Fields) (s : State), s.native → s.holds f →
    let D := s.readReg f.d
    let S := s.source f.src
    let result (i : Instr) (b : Bool) : Prop :=
      ∃ R : Long, (∀ j < 32, R.getLsbD j = if S.getLsbD j then b else D.getLsbD j) ∧
        Completes i s 3 R (oddOnes R) (R == 0) (s.unit.pc + 1)
    (∀ p ∈ [(Instr.muxc f, 0b011100#6), (.muxnc f, 0b011101#6), (.muxz f, 0b011110#6),
      (.muxnz f, 0b011111#6)], Encoded p.1 p.2) ∧
    result (.muxc f) s.unit.c ∧ result (.muxnc f) (!s.unit.c) ∧ result (.muxz f) s.unit.z ∧ result (.muxnz f) (!s.unit.z)

/-! ## Arithmetic, moves, compares -/

/-- R301 to R305: unsigned sums and differences; C is the carry or the borrow. CMP, whose `wr` is 0, gives the flags of SUB and
stores nothing. -/
def Obligations.UnsignedResults : Prop :=
  ∀ (f : Fields) (s : State), s.native → s.holds f →
    let D := s.readReg f.d
    let S := s.source f.src
    let A := S.toInt.natAbs
    let next := s.unit.pc + 1
    (∀ p ∈ [(Instr.add f, 0b100000#6), (.sub f, 0b100001#6), (.cmp f, 0b100001#6), (.addabs f, 0b100010#6),
      (.subabs f, 0b100011#6)], Encoded p.1 p.2) ∧
    Completes (.add f) s 3 (D + S) (decide (2 ^ 32 ≤ D.toNat + S.toNat)) (D + S == 0) next ∧
    (f.wr = true → Completes (.sub f) s 3 (D - S) (decide (D.toNat < S.toNat)) (D - S == 0) next) ∧
    (f.wr = false → Completes (.cmp f) s 3 (D - S) (decide (D.toNat < S.toNat)) (D == S) next) ∧
    Completes (.addabs f) s 3 (D + BitVec.ofNat 32 A) (decide (2 ^ 32 ≤ D.toNat + A)) (D + BitVec.ofNat 32 A == 0) next ∧
    Completes (.subabs f) s 3 (D - BitVec.ofNat 32 A) (decide (D.toNat < A)) (D - BitVec.ofNat 32 A == 0) next

/-- R306 to R309: the sums with a sign that a flag chooses; C is the signed overflow. -/
def Obligations.ConditionalSumResults : Prop :=
  ∀ (f : Fields) (s : State), s.native → s.holds f →
    let D := s.readReg f.d
    let S := s.source f.src
    let result (i : Instr) (minus : Bool) : Prop :=
      let R := if minus then D - S else D + S
      let T := if minus then D.toInt - S.toInt else D.toInt + S.toInt
      Completes i s 3 R (decide (T < -2 ^ 31 ∨ 2 ^ 31 - 1 < T)) (R == 0) (s.unit.pc + 1)
    (∀ p ∈ [(Instr.sumc f, 0b100100#6), (.sumnc f, 0b100101#6), (.sumz f, 0b100110#6),
      (.sumnz f, 0b100111#6)], Encoded p.1 p.2) ∧
    result (.sumc f) s.unit.c ∧ result (.sumnc f) (!s.unit.c) ∧ result (.sumz f) s.unit.z ∧ result (.sumnz f) (!s.unit.z)

/-- R310 to R317: the moves and negations; C is the sign of S. -/
def Obligations.MoveResults : Prop :=
  ∀ (f : Fields) (s : State), s.native → s.holds f →
    let S := s.source f.src
    let A := BitVec.ofNat 32 S.toInt.natAbs
    let result (i : Instr) (R : Long) : Prop := Completes i s 3 R (S.getLsbD 31) (R == 0) (s.unit.pc + 1)
    (∀ p ∈ [(Instr.mov f, 0b101000#6), (.neg f, 0b101001#6), (.abs f, 0b101010#6), (.absneg f, 0b101011#6),
      (.negc f, 0b101100#6), (.negnc f, 0b101101#6), (.negz f, 0b101110#6),
      (.negnz f, 0b101111#6)], Encoded p.1 p.2) ∧
    result (.mov f) S ∧ result (.neg f) (-S) ∧ result (.abs f) A ∧ result (.absneg f) (-A) ∧
    result (.negc f) (if s.unit.c then -S else S) ∧ result (.negnc f) (if s.unit.c then S else -S) ∧
    result (.negz f) (if s.unit.z then -S else S) ∧ result (.negnz f) (if s.unit.z then S else -S)

/-- R318, R319: the signed compares. -/
def Obligations.SignedCompareResults : Prop :=
  ∀ (f : Fields) (s : State), s.native → s.holds f →
    let D := s.readReg f.d
    let S := s.source f.src
    let B : Long := if s.unit.c then 1 else 0
    (∀ p ∈ [(Instr.cmps f, 0b110000#6), (.cmpsx f, 0b110001#6)], Encoded p.1 p.2) ∧
    Completes (.cmps f) s 3 (D - S) (decide (D.toInt < S.toInt)) (D == S) (s.unit.pc + 1) ∧
    Completes (.cmpsx f) s 3 (D - S - B) (decide (D.toInt < S.toInt + B.toNat)) (s.unit.z && D - S - B == 0) (s.unit.pc + 1)

/-- R320 to R322, R325, R326: the extended sums and differences take C in, and Z stays 1 only if it was 1. CMPX, whose `wr` is
0, gives the flags of SUBX and stores nothing. -/
def Obligations.ExtendedResults : Prop :=
  ∀ (f : Fields) (s : State), s.native → s.holds f →
    let D := s.readReg f.d
    let S := s.source f.src
    let B : Long := if s.unit.c then 1 else 0
    let Tp := D.toInt + S.toInt + B.toNat
    let Tm := D.toInt - S.toInt - B.toNat
    let result (i : Instr) (R : Long) (c : Bool) : Prop := Completes i s 3 R c (s.unit.z && R == 0) (s.unit.pc + 1)
    (∀ p ∈ [(Instr.addx f, 0b110010#6), (.subx f, 0b110011#6), (.cmpx f, 0b110011#6), (.addsx f, 0b110110#6),
      (.subsx f, 0b110111#6)], Encoded p.1 p.2) ∧
    result (.addx f) (D + S + B) (decide (2 ^ 32 ≤ D.toNat + S.toNat + B.toNat)) ∧
    (f.wr = true → result (.subx f) (D - S - B) (decide (D.toNat < S.toNat + B.toNat))) ∧
    (f.wr = false → result (.cmpx f) (D - S - B) (decide (D.toNat < S.toNat + B.toNat))) ∧
    result (.addsx f) (D + S + B) (decide (Tp < -2 ^ 31 ∨ 2 ^ 31 - 1 < Tp)) ∧
    result (.subsx f) (D - S - B) (decide (Tm < -2 ^ 31 ∨ 2 ^ 31 - 1 < Tm))

/-- R323, R324, R327: the signed sum and difference, and the compare-and-subtract. -/
def Obligations.SignedResults : Prop :=
  ∀ (f : Fields) (s : State), s.native → s.holds f →
    let D := s.readReg f.d
    let S := s.source f.src
    let Tp := D.toInt + S.toInt
    let Tm := D.toInt - S.toInt
    let next := s.unit.pc + 1
    (∀ p ∈ [(Instr.adds f, 0b110100#6), (.subs f, 0b110101#6), (.cmpsub f, 0b111000#6)], Encoded p.1 p.2) ∧
    Completes (.adds f) s 3 (D + S) (decide (Tp < -2 ^ 31 ∨ 2 ^ 31 - 1 < Tp)) (D + S == 0) next ∧
    Completes (.subs f) s 3 (D - S) (decide (Tm < -2 ^ 31 ∨ 2 ^ 31 - 1 < Tm)) (D - S == 0) next ∧
    Completes (.cmpsub f) s 3 (if S.toNat ≤ D.toNat then D - S else D) (decide (S.toNat ≤ D.toNat)) (D == S) next

/-! ## Jumps, loops, waits -/

/-- R351 to R354: the jumps go to the low nine bits of S in four ticks; JMPRET and CALL, whose `wr` is 1, store the return
address in the low nine bits of cell `d`; JMP and RET, whose `wr` is 0, store nothing, and RET goes to 0. The C they offer
is open (free value, U4). -/
def Obligations.JumpResults : Prop :=
  ∀ (f : Fields) (s : State), s.native → s.holds f →
    let D := s.readReg f.d
    let S := s.source f.src
    let result (i : Instr) (target : CogAddr) : Prop :=
      ∃ (R : Long) (c : Bool),
        (∀ j < 32, R.getLsbD j = if j < 9 then (s.unit.pc + 1).getLsbD j else D.getLsbD j) ∧
        Completes i s 3 R c (R == 0) target
    (∀ p ∈ [(Instr.jmpret f, 0b010111#6), (.jmp f, 0b010111#6), (.call f, 0b010111#6),
      (.ret f, 0b010111#6)], Encoded p.1 p.2) ∧
    (f.wr = true → result (.jmpret f) (S.extractLsb' 0 9) ∧ result (.call f) (S.extractLsb' 0 9)) ∧
    (f.wr = false → result (.jmp f) (S.extractLsb' 0 9)) ∧
    (f.wr = false → f.src = .imm 0 → result (.ret f) 0)

/-- R355 to R357: DJNZ, TJNZ and TJZ jump in four ticks or fall through in eight; DJNZ decides by its result whether or not it
is stored. -/
def Obligations.LoopResults : Prop :=
  ∀ (f : Fields) (s : State), s.native → s.holds f →
    let D := s.readReg f.d
    let target := (s.source f.src).extractLsb' 0 9
    let next := s.unit.pc + 1
    (∀ p ∈ [(Instr.djnz f, 0b111001#6), (.tjnz f, 0b111010#6), (.tjz f, 0b111011#6)], Encoded p.1 p.2) ∧
    (D ≠ 1 → Completes (.djnz f) s 3 (D - 1) (D == 0) false target) ∧
    (D = 1 → Completes (.djnz f) s 7 0 false true next) ∧
    (D ≠ 0 → Completes (.tjnz f) s 3 D false false target) ∧
    (D = 0 → Completes (.tjnz f) s 7 D false true next) ∧
    (D = 0 → Completes (.tjz f) s 3 D false true target) ∧
    (D ≠ 0 → Completes (.tjz f) s 7 D false false next)

/-- R358, R359: WAITPEQ blocks until the low port under the mask S equals D, WAITPNE until it differs, with the operands of the
execute tick; four ticks later they complete. What they offer is open (free values, U5). -/
def Obligations.PinWaits : Prop :=
  ∀ (f : Fields) (s : State), s.native → s.holds f →
    let D := s.readReg f.d
    let S := s.source f.src
    (∀ p ∈ [(Instr.waitpeq f, 0b111100#6), (.waitpne f, 0b111101#6)], Encoded p.1 p.2) ∧
    CompletesWait (.waitpeq f) s .waitingPinsEqual 4 (fun w => w.pinIn.extractLsb' 0 32 &&& S = D) (fun w => w)
      (fun _ _ => True) ∧
    CompletesWait (.waitpne f) s .waitingPinsNotEqual 4 (fun w => w.pinIn.extractLsb' 0 32 &&& S ≠ D) (fun w => w)
      (fun _ _ => True)

/-- R360: WAITCNT blocks until the system counter equals D in all 32 bits; four ticks later it completes with D + S. -/
def Obligations.CounterWait : Prop :=
  ∀ (f : Fields) (s : State), s.native → s.holds f →
    let D := s.readReg f.d
    let S := s.source f.src
    (∀ p ∈ [(Instr.waitcnt f, 0b111110#6)], Encoded p.1 p.2) ∧
    CompletesWait (.waitcnt f) s .waitingCounter 4 (fun w => w.counter = D) (fun w => w)
      (fun _ res => res.r = D + S ∧ res.c = decide (2 ^ 32 ≤ D.toNat + S.toNat) ∧ res.z = (D + S == 0))

/-- R361: WAITVID blocks until the acknowledge of the waveform generator is set, clears it, and completes two ticks later. What
it offers is open (free values, U6). -/
def Obligations.VideoWait : Prop :=
  ∀ (f : Fields) (s : State), s.native → s.holds f →
    (∀ p ∈ [(Instr.waitvid f, 0b111111#6)], Encoded p.1 p.2) ∧
    CompletesWait (.waitvid f) s .waitingVideo 2 (fun w => w.unit.vid.vidAck = true)
      (fun w => w.setUnit { w.unit with vid := { w.unit.vid with vidAck := false } }) (fun _ _ => True)

/-- R358: a WAITPEQ whose D has a 1 bit where S has 0 can never be satisfied: whatever the pins, the unit makes no progress. -/
def Obligations.HopelessPinWait : Prop :=
  ∀ w : State, w.unit.pipe.runState = .waitingPinsEqual → w.unit.pipe.opD &&& ~~~w.unit.pipe.opS ≠ 0 →
    ∀ n pins, progressN n { w with pinIn := pins } = .next { w with pinIn := pins }

/-! ## Hub memory -/

/-- R221 to R223: the hub reads take one, two or four bytes at the address in S reduced modulo 0x10000 and rounded down to the
width, the lowest byte least significant, zero-extended; Z says that the value is 0 and the C they offer is open (free
value, U3). -/
def Obligations.HubReads : Prop :=
  ∀ (f : Fields) (s : State), s.native → s.holds f → f.wr = true →
    let a := (s.source f.src).toNat % 0x10000
    let byte (w : State) (b : Nat) : Nat := (hubByte w.mem b).toNat
    (∀ p ∈ [(Instr.rdbyte f, 0b000000#6), (.rdword f, 0b000001#6), (.rdlong f, 0b000010#6)], Encoded p.1 p.2) ∧
    CompletesHub (.rdbyte f) s .hubReadByte (fun _ => True) (fun w => w)
      (fun w res => res.r.toNat = byte w a ∧ res.z = (res.r == 0)) ∧
    CompletesHub (.rdword f) s .hubReadWord (fun _ => True) (fun w => w)
      (fun w res => res.r.toNat = byte w (a / 2 * 2) + 2 ^ 8 * byte w (a / 2 * 2 + 1) ∧ res.z = (res.r == 0)) ∧
    CompletesHub (.rdlong f) s .hubReadLong (fun _ => True) (fun w => w)
      (fun w res => res.r.toNat = byte w (a / 4 * 4) + 2 ^ 8 * byte w (a / 4 * 4 + 1) + 2 ^ 16 * byte w (a / 4 * 4 + 2)
        + 2 ^ 24 * byte w (a / 4 * 4 + 3) ∧ res.z = (res.r == 0))

/-- R224 to R226: the hub writes store the low one, two or four bytes of D from the aligned address upward, the least
significant at the lowest address; no other byte of hub memory changes, a byte of ROM never does, and no register changes.
The flags they offer are open (free values, U2). -/
def Obligations.HubWrites : Prop :=
  ∀ (f : Fields) (s : State), s.native → s.holds f → f.wr = false →
    let D := s.readReg f.d
    let S := s.source f.src
    let stores (i : Instr) (n : Nat) : Prop :=
      CompletesHub i s .hubOperation (fun _ => True) (fun w => { w with mem := memWrite w.mem S n D }) (fun _ _ => True) ∧
      ∀ m, Memory.wf m = true → ∀ b < 0x10000, hubByte (memWrite m S n D) b =
        if hubAlign S n ≤ b ∧ b < hubAlign S n + n ∧ b < 0x8000 then byteOf D (b - hubAlign S n) else hubByte m b
    (∀ p ∈ [(Instr.wrbyte f, 0b000000#6), (.wrword f, 0b000001#6), (.wrlong f, 0b000010#6)], Encoded p.1 p.2) ∧
    stores (.wrbyte f) 1 ∧ stores (.wrword f) 2 ∧ stores (.wrlong f) 4

/-- R78: the address of a hub access is reduced modulo the hub space and rounded down to a multiple of its width, so an access
of 1, 2 or 4 bytes lies in the hub space and in one region of it. -/
def Obligations.HubAddressesAreAligned : Prop :=
  ∀ (a : Long) (n : Nat), n = 1 ∨ n = 2 ∨ n = 4 →
    hubAlign a n = a.toNat % 0x10000 / n * n ∧ hubAlign a n + n ≤ 0x10000 ∧
      (hubAlign a n < 0x8000 → hubAlign a n + n ≤ 0x8000)

/-- R75: a long written to RAM is seen by byte reads as its bytes from the least significant up, by word reads as its halves,
and by a long read as itself. -/
def Obligations.LongSeenByteByByte : Prop :=
  ∀ (m : List Host.Cell) (a v : Long), Memory.wf m = true → a.toNat % 4 = 0 → a.toNat + 4 ≤ 0x8000 →
    let m' := memWrite m a 4 v
    memRead m' a 4 = v ∧
    memRead m' a 2 = (v.extractLsb' 0 16).setWidth 32 ∧ memRead m' (a + 2) 2 = (v.extractLsb' 16 16).setWidth 32 ∧
    ∀ i < 4, memRead m' (a + BitVec.ofNat 32 i) 1 = (v.extractLsb' (8 * i) 8).setWidth 32

/-! ## Hub operations -/

/-- R227, R228, R230: an instruction of opcode 000011 does the operation that the low three bits of S select, whether it is
written as the named operation or as HUBOP: CLKSET stores the low byte of D in the clock register (what it offers is open, U7)
and COGID offers the index of the executing unit. -/
def Obligations.ClockAndIdentity : Prop :=
  ∀ (f : Fields) (s : State), s.native → s.holds f →
    let D := s.readReg f.d
    let sel := (s.source f.src).toNat % 8
    (∀ p ∈ [(Instr.clkset f, 0b000011#6), (.cogid f, 0b000011#6), (.hubop f, 0b000011#6)], Encoded p.1 p.2) ∧
    (sel = 0 → ∀ i ∈ [Instr.clkset f, .hubop f],
      CompletesHub i s .hubOperation (fun _ => True) (fun w => { w with clk := D.extractLsb' 0 8 }) (fun _ _ => True)) ∧
    (sel = 1 → ∀ i ∈ [Instr.cogid f, .hubop f],
      CompletesHub i s .hubOperation (fun _ => True) (fun w => w)
        (fun w res => res.r.toNat = w.cur.val ∧ res.z = decide (w.cur.val = 0) ∧ res.c = false))

/-- R234 to R237: the lock operations. LOCKNEW takes the lowest free lock, or offers 7 and C = 1 when none is free; LOCKRET
frees the lock that D names; LOCKSET and LOCKCLR offer its old state in C and set or clear it. -/
def Obligations.LockOperations : Prop :=
  ∀ (f : Fields) (s : State), s.native → s.holds f →
    let id := (s.readReg f.d).toNat % 8
    let sel := (s.source f.src).toNat % 8
    let bit : BitVec 8 := 1#8 <<< id
    let index (res : Result) (k : Nat) : Prop := res.r.toNat = k ∧ res.z = decide (k = 0)
    (∀ p ∈ [(Instr.locknew f, 0b000011#6), (.lockret f, 0b000011#6), (.lockset f, 0b000011#6),
      (.lockclr f, 0b000011#6)], Encoded p.1 p.2) ∧
    (sel = 4 → ∀ i ∈ [Instr.locknew f, .hubop f],
      (∀ k < 8, CompletesHub i s .hubOperation
        (fun w => w.lockAlloc.getLsbD k = false ∧ ∀ j < k, w.lockAlloc.getLsbD j = true)
        (fun w => { w with lockAlloc := w.lockAlloc ||| 1#8 <<< k }) (fun _ res => index res k ∧ res.c = false)) ∧
      CompletesHub i s .hubOperation (fun w => w.lockAlloc = 0xFF) (fun w => w) (fun _ res => index res 7 ∧ res.c = true)) ∧
    (sel = 5 → ∀ i ∈ [Instr.lockret f, .hubop f],
      CompletesHub i s .hubOperation (fun _ => True) (fun w => { w with lockAlloc := w.lockAlloc &&& ~~~bit })
        (fun _ res => index res id)) ∧
    (sel = 6 → ∀ i ∈ [Instr.lockset f, .hubop f],
      CompletesHub i s .hubOperation (fun _ => True) (fun w => { w with lockState := w.lockState ||| bit })
        (fun w res => index res id ∧ res.c = w.lockState.getLsbD id)) ∧
    (sel = 7 → ∀ i ∈ [Instr.lockclr f, .hubop f],
      CompletesHub i s .hubOperation (fun _ => True) (fun w => { w with lockState := w.lockState &&& ~~~bit })
        (fun w res => index res id ∧ res.c = w.lockState.getLsbD id))

/-- R232: COGSTOP is encoded by opcode 000011; its execute tick answers a next state, and in its hub window it empties the slot
that D names and offers its index; a unit that stops itself ends in that hub hook. What an empty slot holds is assumption 11. -/
def Obligations.CogStop : Prop :=
  ∀ (f : Fields) (s : State), s.native → s.holds f →
    let id : UnitIx := Fin.ofNat 8 (s.readReg f.d).toNat
    (∀ p ∈ [(Instr.cogstop f, 0b000011#6)], Encoded p.1 p.2) ∧
    ((s.source f.src).toNat % 8 = 3 → ∀ i ∈ [Instr.cogstop f, .hubop f],
      (id ≠ s.cur → CompletesHub i s .hubOperation (fun _ => True) (fun w => w.setSlot id CogUnit.vacant)
        (fun _ res => res.r.toNat = id.val ∧ res.z = decide (id.val = 0))) ∧
      (id = s.cur → ∃ s1 s2, exec i s = .next s1 ∧ progressN 2 s1 = .next s2 ∧ s2 = s.setPipe s2.unit.pipe ∧
        ∀ w, w.blockedAs s2 → hubHook w = .next (w.setSlot id CogUnit.vacant)))

/-- R231: COGINIT is encoded by opcode 000011; its execute tick answers a next state, and in its hub window it starts a unit with the program address and the parameter in the fields of D: the slot D names if bit 3 is 0,
else the lowest empty slot; it offers the slot's index, or 7 and C = 1 when bit 3 is 1 and no slot is empty. A unit that
restarts itself begins anew in that hub hook and never completes the instruction. The new unit is native (the parameter
COGINIT_STRATEGY, assumption 7), the creation values of its instruction latches, which the spec leaves unspecified, are the
model's zeros (assumption 10), and the pixel length that its generator holds is 256 (assumption 20). -/
def Obligations.CogInit : Prop :=
  ∀ (f : Fields) (s : State), s.native → s.holds f →
    let D := s.readReg f.d
    let id : UnitIx := Fin.ofNat 8 D.toNat
    let fresh := CogUnit.create .native (BitVec.ofNat 32 (D.toNat / 2 ^ 4 % 2 ^ 14 * 4)) (BitVec.ofNat 32 (D.toNat / 2 ^ 18 * 4))
    let index (res : Result) (k : Nat) : Prop := res.r.toNat = k ∧ res.z = decide (k = 0)
    (∀ p ∈ [(Instr.coginit f, 0b000011#6)], Encoded p.1 p.2) ∧
    ((s.source f.src).toNat % 8 = 2 → ∀ i ∈ [Instr.coginit f, .hubop f],
      (D.getLsbD 3 = true → ∀ k : UnitIx, CompletesHub i s .hubOperation
        (fun w => w.units[w.cur].active = true ∧ w.units[k].active = false ∧ ∀ j : UnitIx, j < k → w.units[j].active = true)
        (fun w => w.setSlot k fresh) (fun _ res => index res k.val ∧ res.c = false)) ∧
      (D.getLsbD 3 = true → CompletesHub i s .hubOperation (fun w => ∀ j : UnitIx, w.units[j].active = true) (fun w => w)
        (fun _ res => index res 7 ∧ res.c = true)) ∧
      (D.getLsbD 3 = false → id ≠ s.cur → CompletesHub i s .hubOperation (fun _ => True) (fun w => w.setSlot id fresh)
        (fun _ res => index res id.val ∧ res.c = false)) ∧
      (D.getLsbD 3 = false → id = s.cur → ∃ s1 s2, exec i s = .next s1 ∧ progressN 2 s1 = .next s2 ∧
        s2 = s.setPipe s2.unit.pipe ∧ ∀ w, w.blockedAs s2 → hubHook w = .next (w.setSlot id fresh)))

/-! ## Registers -/

/-- R190: what each of the sixteen special addresses and each plain cell reads. -/
def Obligations.RegisterReads : Prop :=
  ∀ (u : CogUnit) (v : View),
    (∀ a : CogAddr, a.toNat < 0x1F0 → u.read v a = Cells.get u.mem a.toNat) ∧
    u.read v 0x1F0 = u.par ∧ u.read v 0x1F1 = v.counter ∧
    u.read v 0x1F2 = v.pins.extractLsb' 0 32 ∧ u.read v 0x1F3 = v.pins.extractLsb' 32 32 ∧
    u.read v 0x1F4 = u.outa ∧ u.read v 0x1F5 = u.outb ∧ u.read v 0x1F6 = u.dira ∧ u.read v 0x1F7 = u.dirb ∧
    u.read v 0x1F8 = u.ctrA.ctr ∧ u.read v 0x1F9 = u.ctrB.ctr ∧ u.read v 0x1FA = u.ctrA.frq ∧ u.read v 0x1FB = u.ctrB.frq ∧
    u.read v 0x1FC = u.ctrA.phs ∧ u.read v 0x1FD = u.ctrB.phs ∧ u.read v 0x1FE = u.vid.vcfg ∧ u.read v 0x1FF = u.vid.vscl

/-- R195: a cog address reads as what was last written to it, except 0x1F1, 0x1F2 and 0x1F3, whose writes are discarded; and a
write changes no other cog address. -/
def Obligations.RegisterRoundTrip : Prop :=
  ∀ (u : CogUnit) (v : View) (a b : CogAddr) (x : Long), u.memWf = true →
    (u.write a x).read v b =
      if b = a then (if a = 0x1F1 ∨ a = 0x1F2 ∨ a = 0x1F3 then u.read v a else x) else u.read v b

/-- R191, R471, R472: a write of VCFG attaches the waveform generator if VMODE is not 0 and detaches it if VMODE is 0; no other
write changes the link; releasing it twice is releasing it once. -/
def Obligations.VideoLink : Prop :=
  ∀ (u : CogUnit) (a : CogAddr) (x : Long),
    ((u.write 0x1FE x).vid.pllAttached = true ↔ x.extractLsb' 29 2 ≠ 0) ∧
    (a ≠ 0x1FE → (u.write a x).vid.pllAttached = u.vid.pllAttached) ∧
    u.vid.detach.detach = u.vid.detach ∧ u.vid.detach.pllAttached = false

/-- R545: MOVS, MOVD and MOVI aimed at the cell of the next instruction do not change that instruction: the old contents are
fetched, and the cell holds the new contents afterwards. -/
def Obligations.FetchBeforeWriteBack : Prop :=
  ∀ (f : Fields) (s : State), s.native → s.holds f → f.wr = true → f.d = s.unit.pc + 1 → f.d.toNat < 0x1F0 →
    ∀ p ∈ [(Instr.movs f, 0), (.movd f, 9), (.movi f, 23)], ∃ s1 t, exec p.1 s = .next s1 ∧ progressN 3 s1 = .next t ∧
      t.unit.pc = f.d ∧ t.unit.pipe.ir = s.readReg f.d ∧
      ∀ j < 32, (t.readReg f.d).getLsbD j =
        if p.2 ≤ j ∧ j < p.2 + 9 then (s.source f.src).getLsbD (j - p.2) else (s.readReg f.d).getLsbD j

/-! ## Load and boot -/

/-- R150, R151: in its hub window a loading unit stores the long at its program address in the next cell and goes on to the next
long; after the 496th it boots: program counter, C and Z are 0, the instruction at cell 0 is fetched and the unit is at its
execute tick. Nothing outside the unit changes. -/
def Obligations.ProgramLoad : Prop :=
  ∀ s : State, s.native → s.unit.pipe.runState = .loadingProgram → s.unit.count < 496 →
    ∃ t, hubHook s = .next t ∧ t = s.setUnit t.unit ∧
      t.unit.programAddress = s.unit.programAddress + 4 ∧
      (∀ a < 496, Cells.get t.unit.mem a =
        if a = s.unit.count then memRead s.mem s.unit.programAddress 4 else Cells.get s.unit.mem a) ∧
      (s.unit.count < 495 → t.unit.count = s.unit.count + 1 ∧ t.unit.pipe = s.unit.pipe ∧ t.unit.pc = s.unit.pc) ∧
      (s.unit.count = 495 → t.unit.count = 0 ∧ t.unit.pc = 0 ∧ t.unit.c = false ∧ t.unit.z = false ∧
        t.unit.pipe.runState = .executingInstruction ∧ t.unit.pipe.ir = t.readReg 0)

/-- R145: in a run state that uses no hub window the hub hook changes nothing. -/
def Obligations.UnusedWindow : Prop :=
  ∀ s : State, s.unit.pipe.runState ≠ .loadingProgram → s.unit.pipe.runState.isHub = false → hubHook s = .next s

/-! ## The hub window -/

/-- R383, R384: the unit whose window a tick is, by the tick's counter modulo 16. -/
def Obligations.WindowRule : Prop :=
  ∀ c : Long, (∀ k : UnitIx, window c = some k ↔ c.toNat % 16 = 2 * k.val) ∧ (window c = none ↔ c.toNat % 2 = 1)

/-- R386: every unit owns exactly one tick in every sixteen consecutive ones. -/
def Obligations.OneWindowInSixteenTicks : Prop :=
  ∀ (c : Long) (k : UnitIx), ∃ j < 16, window (c + BitVec.ofNat 32 j) = some k ∧
    ∀ j' < 16, window (c + BitVec.ofNat 32 j') = some k → j' = j

/-- A unit blocked in a reading hub state gets its window, and with it the value, within sixteen ticks, whatever the other units
do, unless one of them restarts or stops it before, or the run is refused before (R157, R170, R386, R396, R397); where it is the only unit, the machine goes
on until then and hub memory is as before. -/
def Obligations.HubReadIsServed : Prop :=
  ∀ (s : State) (k : UnitIx), s.units[k].active = true →
    ∀ p ∈ [(RunState.hubReadByte, 1), (.hubReadWord, 2), (.hubReadLong, 4)], s.units[k].pipe.runState = p.1 →
      ∃ n, 1 ≤ n ∧ n ≤ 16 ∧ window (s.counter + BitVec.ofNat 32 n) = some k ∧
        (∀ t, stepN n s = .next t → (∀ m < n, ∀ q, stepN m s = .next q → ¬ q.overrides k) →
          (∀ m < n, ∃ q, stepN m s = .next q ∧ q.units[k].pipe = s.units[k].pipe) ∧
          t.counter = s.counter + BitVec.ofNat 32 n ∧
          t.units[k].pipe.wb.val = memRead t.mem s.units[k].pipe.opS p.2) ∧
        (s.alone k → ∃ t, stepN n s = .next t ∧ t.counter = s.counter + BitVec.ofNat 32 n ∧
          t.units[k].pipe.wb.val = memRead s.mem s.units[k].pipe.opS p.2 ∧ t.mem = s.mem ∧
          ∀ m < n, ∃ q, stepN m s = .next q ∧ q.units[k].pipe = s.units[k].pipe)

/-! ## The tick -/

/-- A step runs the decoded instruction: where the only unit is a native one at its execute tick and the long it has fetched is
that of a well-formed instruction `i`, the step is the execute tick of `i` with the start of the tick before it and the
unit's peripherals and the end of the tick after it (R142, R160, R380); and so is the step of one unit among others. -/
def Obligations.StepRunsDecoded : Prop :=
  ∀ (s : State) (k : UnitIx) (i : Instr), s.units[k].strategy = .native →
    s.units[k].pipe.runState = .executingInstruction → i.wellFormed = true → s.units[k].pipe.ir = encode i →
    (s.alone k → step s = andThen (exec i { beginTick s with cur := k }) fun t => .next (endTick (finishUnit t))) ∧
    (s.units[k].active = true → stepUnit k s = andThen (exec i { s with cur := k }) fun t => .next (finishUnit t))

/-- The bus in a tick: the counter advances by one, the input vector is the external drive where no unit drives and the
registered outputs elsewhere, a pin that is not bonded and that no unit drives reads 0, and the registered pins are recomputed
from the present units' output registers and from the contributions that their counters and generators hold (R380, R382, R480,
R482, R483, R486; what a generator holds: assumption 15; the drive of the bonded pins: assumption 19). -/
def Obligations.BusInATick : Prop :=
  ∀ s t : State, step s = .next t →
    t.counter = s.counter + 1 ∧ t.pinIn = (s.drive &&& ~~~s.pinDir) ||| (s.pinOut &&& s.pinDir) ∧
    (∀ n, 32 ≤ n → s.pinDir.getLsbD n = false → t.pinIn.getLsbD n = false) ∧
    let out (u : CogUnit) : Pins := (u.outb ++ u.outa : BitVec 64) ||| u.ctrA.held ||| u.ctrB.held ||| u.vid.held
    let dir (u : CogUnit) : Pins := (u.dirb ++ u.dira : BitVec 64)
    ∀ n < 64,
      (t.pinOut.getLsbD n = true ↔ ∃ k : UnitIx, t.units[k].active = true ∧ (out t.units[k]).getLsbD n = true ∧
        (dir t.units[k]).getLsbD n = true) ∧
      (t.pinDir.getLsbD n = true ↔ ∃ k : UnitIx, t.units[k].active = true ∧ (dir t.units[k]).getLsbD n = true)

/-- R196, R390: an ordinary step of a unit changes no other unit, no byte of hub memory, no lock, not the counter, not the pin
vectors and not the clock register. -/
def Obligations.OrdinaryStepIsPrivate : Prop :=
  ∀ (k : UnitIx) (s t : State), stepUnit k s = .next t →
    (∀ j : UnitIx, j ≠ k → t.units[j] = s.units[j]) ∧ t.mem = s.mem ∧ t.lockAlloc = s.lockAlloc ∧
      t.lockState = s.lockState ∧ t.clk = s.clk ∧ t.counter = s.counter ∧ t.pinIn = s.pinIn ∧ t.pinOut = s.pinOut ∧
      t.pinDir = s.pinDir

/-- R144, R381: the step returns false exactly in the tick in which the program counter of some unit arrives at its breakpoint,
be it in the last tick of an instruction or in the tick of its boot. The first part says so of every legal state of native
units, the second of every state, legal or not, whose only unit is in the last tick of an instruction or at an execute tick. -/
def Obligations.BreakpointReport : Prop :=
  (∀ s t : State, s.legal → (∀ k : UnitIx, s.units[k].active = true → s.units[k].strategy = .native) → step s = .next t →
    (t.stepOk = false ↔ ∃ (k : UnitIx) (a : CogAddr), s.arrives k a ∧ t.units[k].breakpoint = some a)) ∧
  ∀ (s t : State) (k : UnitIx), s.alone k → s.units[k].strategy = .native → step s = .next t →
    (s.units[k].pipe.runState = .waitingCycles → s.units[k].pipe.nextState = .executingInstruction →
      s.units[k].pipe.stateArg = 1 →
      (t.stepOk = false ↔ s.units[k].breakpoint = some s.units[k].pipe.pcNext)) ∧
    (s.units[k].pipe.runState = .executingInstruction → s.units[k].pcFresh = false → t.stepOk = true)

/-- Every state that a step leaves is legal if the state before it was: memory and cells in their canonical form, latches and
run states as R171 lists them, counts in their ranges, the video acknowledge and the generator's link as R466 and R471 say,
no pin contribution of a disabled generator (R462, assumption 15), empty slots empty, and the registered pins those of the
present units. -/
def Obligations.StepKeepsLegal : Prop := ∀ s t : State, s.legal → step s = .next t → t.legal

/-- The state after reset is legal. -/
def Obligations.ResetIsLegal : Prop := State.reset.legal

/-- Nothing but a reserved opcode stops the machine (R109, R500, R503): from a legal state whose units are all native, a step
answers a next state, which is again legal with all its units native, or it is refused, and the refusal is that of MUL, MULS,
ENC or ONES. That a COGINIT creates a native unit is the parameter COGINIT_STRATEGY (assumption 7). -/
def Obligations.OnlyReservedOpcodesStop : Prop :=
  ∀ s : State, s.legal → (∀ k : UnitIx, s.units[k].active = true → s.units[k].strategy = .native) →
    (∃ t, step s = .next t ∧ t.legal ∧ ∀ k : UnitIx, t.units[k].active = true → t.units[k].strategy = .native) ∨
      ∃ r, step s = .refused r ∧ r.isReserved = true

/-- In the whole machine, a skipped instruction of the only unit takes four ticks, any of the 83: then the unit is at the next
address with the same cells, flags, output and direction registers, parameter, control and frequency registers of its
counters, configuration, scale and link of its generator, and breakpoint; hub memory, the locks, the clock register and the
other slots are as before (R161, R169). What goes on by itself meanwhile (the phases and taps of the counters, the shifters of
the generator, the pins) is not the instruction's. -/
def Obligations.SkippedTakesFourTicks : Prop :=
  ∀ (s : State) (k : UnitIx) (i : Instr), s.alone k → s.units[k].strategy = .native →
    s.units[k].pipe.runState = .executingInstruction → i.wellFormed = true → s.units[k].pipe.ir = encode i →
    evaluate i.fields.cond s.units[k].c s.units[k].z = false →
    ∃ t, stepN 4 s = .next t ∧
      (let u := s.units[k]
       let v := t.units[k]
       v.pc = u.pc + 1 ∧ v.pipe.runState = .executingInstruction ∧ v.mem = u.mem ∧ v.c = u.c ∧ v.z = u.z ∧
       v.par = u.par ∧ v.outa = u.outa ∧ v.outb = u.outb ∧ v.dira = u.dira ∧ v.dirb = u.dirb ∧
       v.ctrA.ctr = u.ctrA.ctr ∧ v.ctrB.ctr = u.ctrB.ctr ∧ v.ctrA.frq = u.ctrA.frq ∧ v.ctrB.frq = u.ctrB.frq ∧
       v.vid.vcfg = u.vid.vcfg ∧ v.vid.vscl = u.vid.vscl ∧ v.vid.pllAttached = u.vid.pllAttached ∧
       v.breakpoint = u.breakpoint ∧ v.strategy = u.strategy ∧ v.active = u.active ∧
       v.programAddress = u.programAddress ∧ v.count = u.count ∧
       ((u.pc + 1).toNat < 0x1F0 → v.pipe.ir = Cells.get u.mem (u.pc + 1).toNat)) ∧
      t.mem = s.mem ∧ t.lockAlloc = s.lockAlloc ∧ t.lockState = s.lockState ∧ t.clk = s.clk ∧ t.counter = s.counter + 4 ∧
      ∀ j : UnitIx, j ≠ k → t.units[j] = s.units[j]

/-- In the whole machine: an instruction of the only unit that completes `n` ticks after its execute tick, as the result
statements say, is complete after `n + 1` ticks of the machine, whatever its peripherals do meanwhile: the unit is at the
target; of its 512 cog addresses exactly the destination has changed, to the result, under `wr` and if it is not read-only,
the special registers included; only the phases, which run on by themselves, are said apart: one that is written (the
condition holds) has the result, or the result and one addition of its frequency (R430); the flags change under `wc` and `wz`, the generator's link under a
write of VCFG; and hub memory, the locks, the clock register and the other slots are as before (R142, R167, R168, R380,
R547). -/
def Obligations.CompletionInTheMachine : Prop :=
  ∀ (s : State) (k : UnitIx) (i : Instr) (n : Nat) (r : Long) (c z : Bool) (target : CogAddr), s.alone k →
    s.units[k].strategy = .native → s.units[k].memWf = true → s.units[k].pipe.runState = .executingInstruction →
    i.wellFormed = true → s.units[k].pipe.ir = encode i → Completes i { beginTick s with cur := k } n r c z target →
    ∃ t, stepN (n + 1) s = .next t ∧
      (let f := i.fields
       let u := s.units[k]
       let v := t.units[k]
       v.pc = target ∧ v.pipe.runState = .executingInstruction ∧
       (∀ (w : View) (a : CogAddr), a ≠ 0x1FC → a ≠ 0x1FD →
         v.read w a = if f.wr = true ∧ a = f.d ∧ readOnly a = false then r else u.read w a) ∧
       (evaluate f.cond u.c u.z = true → f.wr = true →
         (f.d = 0x1FC → v.ctrA.phs = r ∨ v.ctrA.phs = r + v.ctrA.frq) ∧
         (f.d = 0x1FD → v.ctrB.phs = r ∨ v.ctrB.phs = r + v.ctrB.frq)) ∧
       v.c = (if f.wc then c else u.c) ∧ v.z = (if f.wz then z else u.z) ∧
       v.vid.pllAttached = (if f.wr = true ∧ f.d = 0x1FE then vmode r != 0 else u.vid.pllAttached) ∧
       v.breakpoint = u.breakpoint ∧ v.strategy = u.strategy ∧ v.active = u.active ∧
       v.programAddress = u.programAddress ∧ v.count = u.count ∧
       (target.toNat < 0x1F0 → v.pipe.ir = Cells.get u.mem target.toNat)) ∧
      t.mem = s.mem ∧ t.lockAlloc = s.lockAlloc ∧ t.lockState = s.lockState ∧ t.clk = s.clk ∧
      t.counter = s.counter + BitVec.ofNat 32 (n + 1) ∧ ∀ j : UnitIx, j ≠ k → t.units[j] = s.units[j]

/-! ## Counters, waveform generator -/

/-- R421, R424: one tick of a counter, by the rows of the mode table: the phase accumulates under the mode's condition on the
old taps, the outputs are those of the mode from the new phase, the carry and the old tap, and the taps sample the pins. -/
def Obligations.CounterTick : Prop :=
  ∀ (g : Counter) (pins : Pins) (pll : Bool),
    let mode := (g.ctr.extractLsb' 26 5).toNat
    let acc := modeAccumulates mode g.a1 g.a2 g.b1
    let carry := acc && decide (2 ^ 32 ≤ g.phs.toNat + g.frq.toNat)
    let t := g.clock pins pll
    t.phs = (if acc then g.phs + g.frq else g.phs) ∧ t.ctr = g.ctr ∧ t.frq = g.frq ∧
    t.outA = modeOutA mode t.phs carry pll ∧ t.outB = modeOutB mode t.phs carry pll g.a1 ∧
    t.a2 = g.a1 ∧ t.a1 = pins.getLsbD (g.ctr.extractLsb' 0 6).toNat ∧ t.b1 = pins.getLsbD (g.ctr.extractLsb' 9 6).toNat

/-- The sixteen LOGIC modes accumulate (the spec's derived rule R425, from the table of R424) by the truth table in the low
four bits of the mode, indexed by (B1, A1). -/
def Obligations.LogicModes : Prop :=
  ∀ (g : Counter) (pins : Pins) (pll : Bool), g.ctr.getLsbD 30 = true →
    ((g.clock pins pll).phs = g.phs + g.frq ∨ (g.clock pins pll).phs = g.phs) ∧
    (g.ctr.getLsbD (26 + 2 * g.b1.toNat + g.a1.toNat) = true → (g.clock pins pll).phs = g.phs + g.frq) ∧
    (g.ctr.getLsbD (26 + 2 * g.b1.toNat + g.a1.toNat) = false → (g.clock pins pll).phs = g.phs)

/-- R420, R422, R427: the contribution that a counter's tick returns has a bit exactly at APIN if outA is 1 and at BPIN if outB
is 1; it is held, because no register write changes it. -/
def Obligations.CounterContribution : Prop :=
  (∀ (g : Counter) (pins : Pins) (pll : Bool) (n : Nat), n < 64 →
    let t := g.clock pins pll
    (t.held.getLsbD n = true ↔
      (t.outA = true ∧ (g.ctr.extractLsb' 0 6).toNat = n) ∨ (t.outB = true ∧ (g.ctr.extractLsb' 9 6).toNat = n))) ∧
  ∀ (u : CogUnit) (a : CogAddr) (x : Long),
    (u.write a x).ctrA.held = u.ctrA.held ∧ (u.write a x).ctrB.held = u.ctrB.held

/-- R464, R466: one video-clock edge. On the last clock of a frame the counts reload, and a pending WAITVID that is not yet
acknowledged hands over its data and is acknowledged; else the pixel count runs, and at its end the next pixel comes. The
output byte is the colour that the pixel selects. The pixel count is then refilled from the present VSCL, as the code of R464
reads, or with the count of the frame, as R461 and R552 say: which of the two is left open (assumption 20). They are the same
where VSCL still gives what the last reload took; in the second case no write of VSCL alters anything of the running frame,
and in either case it alters no more than the length of its coming pixels. -/
def Obligations.VideoEdge : Prop :=
  let perPixel (vscl : Long) : Nat :=
    if vscl.toNat / 2 ^ 12 % 2 ^ 8 = 0 then 256 else vscl.toNat / 2 ^ 12 % 2 ^ 8
  (∀ (g : Video) (r : Reload), g.legal = true →
    let t := g.edge r
    let width := if g.vcfg.getLsbD 28 then 2 else 1
    (t.frameCnt.toNat = if g.frameCnt = 1 then
      (if g.vscl.toNat % 2 ^ 12 = 0 then 4096 else g.vscl.toNat % 2 ^ 12) else g.frameCnt.toNat - 1) ∧
    (g.frameCnt = 1 → t.pixelCnt.toNat = perPixel g.vscl ∧ t.pixelLen.toNat = perPixel g.vscl) ∧
    (g.frameCnt = 1 → r.pending = true → g.vidAck = false →
      t.colors = r.opD ∧ t.pixels = r.opS ∧ t.vidAck = true) ∧
    (g.frameCnt = 1 → ¬(r.pending = true ∧ g.vidAck = false) →
      t.colors = r.anyColors ∧ t.pixels = r.anyPixels ∧ t.vidAck = g.vidAck) ∧
    (g.frameCnt ≠ 1 → t.colors = g.colors ∧ t.vidAck = g.vidAck ∧ t.pixelLen = g.pixelLen ∧
      (g.pixelCnt ≠ 1 → t.pixels = g.pixels ∧ t.pixelCnt = g.pixelCnt - 1) ∧
      (g.pixelCnt = 1 →
        t.pixelCnt.toNat = (if r.pixelFromVscl then perPixel g.vscl else g.pixelLen.toNat) ∧
        (g.pixelLen.toNat = perPixel g.vscl → t.pixelCnt.toNat = perPixel g.vscl) ∧
        ∀ j < 32, t.pixels.getLsbD j = g.pixels.getLsbD (if j + width < 32 then j + width else j))) ∧
    t.vidOut = t.colors.extractLsb' (8 * (t.pixels.toNat % 2 ^ width)) 8 ∧
    t.vcfg = g.vcfg ∧ t.vscl = g.vscl ∧ t.pllAttached = g.pllAttached) ∧
  (∀ (g : Video) (r : Reload) (x : Long), g.frameCnt ≠ 1 →
    let t := { g with vscl := x }.edge r
    (r.pixelFromVscl = false ∨ g.pixelCnt ≠ 1 → t = { g.edge r with vscl := x }) ∧
    t = { g.edge r with vscl := x, pixelCnt := t.pixelCnt }) ∧
  ∀ (u : CogUnit) (x : Long), (u.write 0x1FF x).vid = { u.vid with vscl := x }

/-- R461 to R463, R467, for the two digital modes: in a tick with a video clock the generator's pin contribution is recomputed:
disabled, nothing; in VGA mode, the colour byte under VPINS at the pin group VGROUP. In a tick without one nothing of the
generator changes, and a register write does not change the contribution, except that a write of VCFG with VMODE 0 ends it
(assumption 15). -/
def Obligations.VideoContribution : Prop :=
  (∀ (g : Video) (reload : Nat → Reload) (tick m n : Nat), n < 64 →
    let t := g.clock reload tick (m + 1)
    g.clock reload tick 0 = g ∧ t.vcfg = g.vcfg ∧
    (g.vcfg.extractLsb' 29 2 = 0 → t.held.getLsbD n = false) ∧
    (g.vcfg.extractLsb' 29 2 = 1 → (t.held.getLsbD n = true ↔
      n / 8 = (g.vcfg.extractLsb' 9 3).toNat ∧ t.vidOut.getLsbD (n % 8) = true ∧ g.vcfg.getLsbD (n % 8) = true))) ∧
  ∀ (u : CogUnit) (a : CogAddr) (x : Long),
    (u.write a x).vid.held = if a = 0x1FE ∧ x.extractLsb' 29 2 = 0 then 0 else u.vid.held

/-! ## Reset and the host port -/

/-- The machine after reset (R63, R530, R532): hub RAM zero, counter, pins, locks and clock register zero, and only unit 0
present, created with program address and parameter 0 (the boot vector, assumption 7) in LoadingProgram, its registers,
flags, counters and generator at their creation values. The clause that the unit is exactly a newly created one also fixes
its instruction latches, which the spec leaves unspecified, at the model's zeros (assumption 10), and the pixel length of its
generator (assumption 20). -/
def Obligations.AfterReset : Prop :=
  let s := State.reset
  (∀ a < 0x8000, hubByte s.mem a = 0) ∧ s.counter = 0 ∧ s.pinOut = 0 ∧ s.pinDir = 0 ∧ s.pinIn = 0 ∧ s.lockAlloc = 0 ∧
    s.lockState = 0 ∧ s.clk = 0 ∧ s.alone 0 ∧
    let u := s.units[(0 : UnitIx)]
    u = CogUnit.create .native 0 0 ∧ u.pipe.runState = .loadingProgram ∧ u.pipe.nextState = .executingInstruction ∧
      u.pipe.stateArg = 0 ∧ u.count = 0 ∧ u.pc = 0 ∧ u.c = false ∧ u.z = false ∧ u.breakpoint = none ∧ u.pcFresh = false ∧
      u.programAddress = 0 ∧ u.vid.frameCnt = 4096 ∧ u.vid.pixelCnt = 256 ∧ u.vid.pllAttached = false ∧
      u.vid.vidAck = false ∧ ∀ (v : View) (a : CogAddr), readOnly a = false → u.read v a = 0

/-- R531: loading an image that fits zeroes hub RAM, lays the image from address 0 and resets the chip; an image that does not
fit is refused. That the units are those of reset, so that no fetched instruction outlives the load, is the model's choice:
the parenthesis of R546 is set aside (assumption 18), the boot vector is the parameter's (assumption 7), and the instruction
latches of the new unit are the model's zeros (assumption 10) and the pixel length of its generator 256 (assumption 20). -/
def Obligations.LoadImage : Prop :=
  ∀ (s : State) (bytes : List Byte),
    (bytes.length ≤ 0x8000 → ∃ t, hostLoadImage s bytes = .next t ∧ Memory.wf t.mem = true ∧
      (∀ a < 0x8000, hubByte t.mem a = bytes.getD a 0) ∧ t.units = State.reset.units ∧ t.counter = 0 ∧ t.pinOut = 0 ∧
      t.pinDir = 0 ∧ t.pinIn = 0 ∧ t.lockAlloc = 0 ∧ t.lockState = 0 ∧ t.clk = 0) ∧
    (0x8000 < bytes.length → hostLoadImage s bytes = .refused .imageTooLong)

/-- R512, R546: a host write to a unit's cog memory is a register write that leaves the fetched instruction alone; a host set
of the program counter at an execute tick fetches the instruction at the new address and leaves the rest alone. -/
def Obligations.HostAccess : Prop :=
  ∀ (s : State) (k : UnitIx) (a v : Nat) (x : Long), s.units[k].active = true →
    (∃ t, hostWrite s k a x = .next t ∧ t.units[k] = s.units[k].write (BitVec.ofNat 9 a) x ∧
      t.units[k].pipe.ir = s.units[k].pipe.ir ∧ t.mem = s.mem ∧ ∀ j : UnitIx, j ≠ k → t.units[j] = s.units[j]) ∧
    (s.units[k].pipe.runState = .executingInstruction → ∃ t, hostSetPc s k v = .next t ∧
      t.units[k].pc = BitVec.ofNat 9 v ∧ t.units[k].pcFresh = s.units[k].pcFresh ∧
      t.units[k].pipe.ir = s.units[k].read (s.viewOf k) (BitVec.ofNat 9 v) ∧ t.units[k].mem = s.units[k].mem ∧ t.mem = s.mem)
end

