-- ==== Sys2Proof/Laws/Encoding.lean ====
section
/-! SUPPORT. The fields of an assembled long, and the long of its fields (spec/30_encoding.md R100, R114). -/

namespace Sys2Proof

theorem opField_assemble (op : BitVec 6) (f : Fields) : opField (assemble op f) = op := by
  unfold opField assemble
  ext i hi
  simp [BitVec.getElem_extractLsb']
  grind

/-- The bits of a source are those of its literal or its address. -/
theorem Src.ofBits_bits (s : Src) : (if s.immBit then Src.imm s.bits else Src.reg s.bits) = s := by
  cases s <;> rfl

theorem fieldsOf_assemble (op : BitVec 6) (f : Fields) : fieldsOf (assemble op f) = f := by
  have hwz : (assemble op f).getLsbD 25 = f.wz := by
    simp only [assemble, BitVec.getLsbD_append, BitVec.getLsbD_ofBool]; simp
  have hwc : (assemble op f).getLsbD 24 = f.wc := by
    simp only [assemble, BitVec.getLsbD_append, BitVec.getLsbD_ofBool]; simp
  have hwr : (assemble op f).getLsbD 23 = f.wr := by
    simp only [assemble, BitVec.getLsbD_append, BitVec.getLsbD_ofBool]; simp
  have himm : (assemble op f).getLsbD 22 = f.src.immBit := by
    simp only [assemble, BitVec.getLsbD_append, BitVec.getLsbD_ofBool]; simp
  have hcond : (assemble op f).extractLsb' 18 4 = f.cond := by
    unfold assemble
    ext i hi
    simp [BitVec.getElem_extractLsb']
    grind
  have hd : (assemble op f).extractLsb' 9 9 = f.d := by
    unfold assemble
    ext i hi
    simp [BitVec.getElem_extractLsb']
    grind
  have hs : (assemble op f).extractLsb' 0 9 = f.src.bits := by
    unfold assemble
    ext i hi
    simp [BitVec.getElem_extractLsb']
    grind
  simp only [fieldsOf, hwz, hwc, hwr, himm, hcond, hd, hs, Src.ofBits_bits]

theorem assemble_fieldsOf (w : Long) : assemble (opField w) (fieldsOf w) = w := by
  have hb : (fieldsOf w).src.bits = w.extractLsb' 0 9 := by simp only [fieldsOf]; split <;> rfl
  have hi : (fieldsOf w).src.immBit = w.getLsbD 22 := by
    simp only [fieldsOf]; split <;> simp_all [Src.immBit, Src.isImm]
  unfold assemble
  rw [hb, hi]
  apply BitVec.eq_of_getLsbD_eq
  intro i hi
  simp only [BitVec.getLsbD_append, opField, fieldsOf, BitVec.getLsbD_extractLsb', BitVec.getLsbD_ofBool]
  interval_cases i <;> simp

theorem opField_encode (i : Instr) : opField (encode i) = i.opcode := opField_assemble _ _

theorem fieldsOf_encode (i : Instr) : fieldsOf (encode i) = i.fields := fieldsOf_assemble _ _

end Sys2Proof
end

