-- ==== Sys2Proof/Laws/Memory.lean ====
section
/-! SUPPORT. Read-after-write and the canonical form of cells and of hub memory (spec/20_memory.md R73 to R77). -/

namespace Sys2Proof.Machine

variable {w : Nat}

/-! ## Cells -/

theorem Cells.canonicalFrom_cons {bound lo a : Nat} {v : BitVec w} {m : Cells w} :
    Cells.canonicalFrom bound lo ((a, v) :: m) = true ↔
      lo ≤ a ∧ a < bound ∧ v ≠ 0#w ∧ Cells.canonicalFrom bound (a + 1) m = true := by
  simp [Cells.canonicalFrom, and_assoc]

theorem Cells.canonicalFrom_mono {bound lo lo' : Nat} {m : Cells w} (h : lo' ≤ lo)
    (hm : Cells.canonicalFrom bound lo m = true) : Cells.canonicalFrom bound lo' m = true := by
  cases m with
  | nil => rfl
  | cons c m =>
    obtain ⟨a, v⟩ := c
    rw [Cells.canonicalFrom_cons] at hm ⊢
    exact ⟨le_trans h hm.1, hm.2⟩

/-- Below the first listed address everything is zero. -/
theorem Cells.get_of_lt {bound lo a : Nat} {m : Cells w} (hm : Cells.canonicalFrom bound lo m = true) (h : a < lo) :
    Cells.get m a = 0#w := by
  induction m generalizing lo with
  | nil => rfl
  | cons c m ih =>
    obtain ⟨b, v⟩ := c
    rw [Cells.canonicalFrom_cons] at hm
    have hne : a ≠ b := by omega
    simpa [Cells.get, hne] using ih hm.2.2.2 (by omega)

theorem Cells.get_put_of_ne (m : Cells w) {a b : Nat} (v : BitVec w) (h : b ≠ a) :
    Cells.get (Cells.put m a v) b = Cells.get m b := by
  induction m with
  | nil => by_cases hv : v = 0#w <;> simp [Cells.put, Cells.get, hv, h]
  | cons c m ih =>
    obtain ⟨d, x⟩ := c
    simp only [Cells.put]
    split
    · split <;> simp [Cells.get, h]
    · split
      · split <;> simp_all [Cells.get]
      · simp only [Cells.get, ih]

theorem Cells.get_put_self {bound lo a : Nat} {m : Cells w} (v : BitVec w) (hm : Cells.canonicalFrom bound lo m = true) :
    Cells.get (Cells.put m a v) a = v := by
  induction m generalizing lo with
  | nil => by_cases hv : v = 0#w <;> simp [Cells.put, Cells.get, hv]
  | cons c m ih =>
    obtain ⟨d, x⟩ := c
    rw [Cells.canonicalFrom_cons] at hm
    have below : a ≤ d → Cells.get m a = 0#w := fun h => Cells.get_of_lt hm.2.2.2 (by omega)
    simp only [Cells.put]
    split
    · have hne : a ≠ d := by omega
      split <;> simp_all [Cells.get, below (by omega)]
    · split
      · split <;> simp_all [Cells.get]
      · rename_i hne
        simp [Cells.get, hne, ih hm.2.2.2]

theorem Cells.canonicalFrom_put {bound lo a : Nat} {m : Cells w} (v : BitVec w) (hlo : lo ≤ a) (hb : a < bound)
    (hm : Cells.canonicalFrom bound lo m = true) : Cells.canonicalFrom bound lo (Cells.put m a v) = true := by
  induction m generalizing lo with
  | nil => by_cases hv : v = 0#w <;> simp [Cells.put, hv, Cells.canonicalFrom, hlo, hb]
  | cons c m ih =>
    obtain ⟨d, x⟩ := c
    have hm' := hm
    rw [Cells.canonicalFrom_cons] at hm
    simp only [Cells.put]
    split
    · split
      · exact hm'
      · rename_i hv
        rw [Cells.canonicalFrom_cons, Cells.canonicalFrom_cons]
        exact ⟨hlo, hb, hv, by omega, hm.2⟩
    · split
      · split
        · exact Cells.canonicalFrom_mono (by omega) hm.2.2.2
        · rename_i hv
          subst a
          rw [Cells.canonicalFrom_cons]
          exact ⟨hlo, hb, hv, hm.2.2.2⟩
      · rw [Cells.canonicalFrom_cons]
        exact ⟨hm.1, hm.2.1, hm.2.2.1, ih (by omega) hm.2.2.2⟩

theorem Cells.canonical_put {bound a : Nat} {m : Cells w} (v : BitVec w) (hb : a < bound)
    (hm : Cells.canonical bound m = true) : Cells.canonical bound (Cells.put m a v) = true :=
  Cells.canonicalFrom_put v (Nat.zero_le a) hb hm

/-! ## Hub memory -/

theorem hubPutByte_wf {m : List Host.Cell} (a : Nat) (v : Byte) (hm : Memory.wf m = true) :
    Memory.wf (hubPutByte m a v) = true := by
  unfold hubPutByte
  split
  · exact Cells.canonical_put v ‹_› hm
  · exact hm

theorem hubPutBytesLE_wf {m : List Host.Cell} (a : Nat) (v : Long) (n : Nat) (hm : Memory.wf m = true) :
    Memory.wf (hubPutBytesLE m a v n) = true := by
  induction n with
  | zero => exact hm
  | succ n ih => exact hubPutByte_wf _ _ ih

/-- Every hub write keeps the canonical form. -/
theorem memWrite_wf {m : List Host.Cell} (addr : Long) (n : Nat) (v : Long) (hm : Memory.wf m = true) :
    Memory.wf (memWrite m addr n v) = true := hubPutBytesLE_wf _ _ _ hm

/-- What a byte reads as after a byte is stored: the stored byte in RAM, else what it read as before. -/
theorem hubByte_hubPutByte {m : List Host.Cell} (a b : Nat) (v : Byte) (hm : Memory.wf m = true) :
    hubByte (hubPutByte m a v) b = if b = a ∧ a < hubRamBytes then v else hubByte m b := by
  by_cases ha : a < hubRamBytes
  · by_cases hb : b = a
    · subst hb
      simpa [hubByte, hubPutByte, ha] using Cells.get_put_self v hm
    · simp [hubByte, hubPutByte, ha, hb, Cells.get_put_of_ne]
  · simp [hubPutByte, ha]

/-- The cells of an image are canonical if the image fits. -/
theorem imageCells_canonicalFrom (bytes : List Byte) (a : Nat) (h : a + bytes.length ≤ hubRamBytes) :
    Cells.canonicalFrom hubRamBytes a (imageCells a bytes) = true := by
  induction bytes generalizing a with
  | nil => rfl
  | cons v rest ih =>
    have hlen : a + (rest.length + 1) ≤ hubRamBytes := h
    have hrest := ih (a + 1) (by omega)
    unfold imageCells
    split
    · exact Cells.canonicalFrom_mono (by omega) hrest
    · rename_i hv
      rw [Cells.canonicalFrom_cons]
      exact ⟨le_refl a, by omega, hv, hrest⟩

/-! ## Cog memory -/

/-- A register write keeps the canonical form of a unit's cells. -/
theorem CogUnit.write_memWf {u : CogUnit} (a : CogAddr) (x : Long) (h : u.memWf = true) : (u.write a x).memWf = true := by
  unfold CogUnit.write locate
  by_cases ha : a.toNat < sprBase
  · simpa [idSlot, ha, CogUnit.writeLoc, CogUnit.memWf] using Cells.canonical_put x ha h
  · simp only [idSlot, ha, reduceCtorEq, if_false]
    unfold sprAt
    split <;> exact h

/-- The program load keeps it too. -/
theorem CogUnit.loadCell_memWf {u : CogUnit} (a : Nat) (x : Long) (h : u.memWf = true) : (u.loadCell a x).memWf = true := by
  unfold CogUnit.loadCell
  split
  · exact Cells.canonical_put x ‹_› h
  · exact h

theorem reset_mem_wf : Memory.wf State.reset.mem = true := rfl

end Sys2Proof.Machine
end

