-- ==== Sys2Proof/Laws/State.lean ====
section
/-! SUPPORT. One lemma per field per update of the state records, so that no proof unfolds an update. -/

namespace Sys2Proof.Machine

variable (s : State) (u v : CogUnit) (p q : Pipe) (k j : UnitIx)

/-! ## Slots -/

theorem State.unit_def : s.unit = s.units[s.cur] := rfl

@[simp] theorem State.units_setSlot_self : (s.setSlot k u).units[k] = u := by simp [State.setSlot]

theorem State.units_setSlot_of_ne (h : k ≠ j) : (s.setSlot k u).units[j] = s.units[j] := by
  have : k.val ≠ j.val := fun e => h (Fin.ext e)
  simp [State.setSlot, this]

@[simp] theorem State.unit_setUnit : (s.setUnit u).unit = u := by
  simp [State.unit_def, State.setUnit, State.setSlot]

theorem State.units_setUnit_of_ne (h : s.cur ≠ j) : (s.setUnit u).units[j] = s.units[j] := s.units_setSlot_of_ne u s.cur j h

@[simp] theorem State.setSlot_setSlot : (s.setSlot k u).setSlot k v = s.setSlot k v := by
  simp [State.setSlot]

@[simp] theorem State.setUnit_setUnit : (s.setUnit u).setUnit v = s.setUnit v := by
  simp [State.setUnit, State.setSlot]

@[simp] theorem State.setUnit_unit : s.setUnit s.unit = s := by
  simp [State.setUnit, State.setSlot, State.unit]

@[simp] theorem State.unit_setPipe : (s.setPipe p).unit = { s.unit with pipe := p } := by simp [State.setPipe]

@[simp] theorem State.setPipe_setPipe : (s.setPipe p).setPipe q = s.setPipe q := by simp [State.setPipe]

@[simp] theorem State.setUnit_setPipe : (s.setPipe p).setUnit u = s.setUnit u := by simp [State.setPipe]

@[simp] theorem State.setPipe_setUnit : (s.setUnit u).setPipe p = s.setUnit { u with pipe := p } := by
  simp [State.setPipe]

@[simp] theorem State.setPipe_pipe : s.setPipe s.unit.pipe = s := s.setUnit_unit

theorem State.units_setPipe_of_ne (h : s.cur ≠ j) : (s.setPipe p).units[j] = s.units[j] := s.units_setUnit_of_ne _ j h

/-! ## Fields after setSlot -/

@[simp] theorem State.setSlot_mem : (s.setSlot k u).mem = s.mem := rfl
@[simp] theorem State.setSlot_counter : (s.setSlot k u).counter = s.counter := rfl
@[simp] theorem State.setSlot_pinOut : (s.setSlot k u).pinOut = s.pinOut := rfl
@[simp] theorem State.setSlot_pinDir : (s.setSlot k u).pinDir = s.pinDir := rfl
@[simp] theorem State.setSlot_pinIn : (s.setSlot k u).pinIn = s.pinIn := rfl
@[simp] theorem State.setSlot_lockAlloc : (s.setSlot k u).lockAlloc = s.lockAlloc := rfl
@[simp] theorem State.setSlot_lockState : (s.setSlot k u).lockState = s.lockState := rfl
@[simp] theorem State.setSlot_clk : (s.setSlot k u).clk = s.clk := rfl
@[simp] theorem State.setSlot_stepOk : (s.setSlot k u).stepOk = s.stepOk := rfl
@[simp] theorem State.setSlot_cur : (s.setSlot k u).cur = s.cur := rfl
@[simp] theorem State.setSlot_tick : (s.setSlot k u).tick = s.tick := rfl
@[simp] theorem State.setSlot_extQueue : (s.setSlot k u).extQueue = s.extQueue := rfl

/-! ## Fields after setUnit -/

@[simp] theorem State.setUnit_mem : (s.setUnit u).mem = s.mem := rfl
@[simp] theorem State.setUnit_counter : (s.setUnit u).counter = s.counter := rfl
@[simp] theorem State.setUnit_pinOut : (s.setUnit u).pinOut = s.pinOut := rfl
@[simp] theorem State.setUnit_pinDir : (s.setUnit u).pinDir = s.pinDir := rfl
@[simp] theorem State.setUnit_pinIn : (s.setUnit u).pinIn = s.pinIn := rfl
@[simp] theorem State.setUnit_lockAlloc : (s.setUnit u).lockAlloc = s.lockAlloc := rfl
@[simp] theorem State.setUnit_lockState : (s.setUnit u).lockState = s.lockState := rfl
@[simp] theorem State.setUnit_clk : (s.setUnit u).clk = s.clk := rfl
@[simp] theorem State.setUnit_stepOk : (s.setUnit u).stepOk = s.stepOk := rfl
@[simp] theorem State.setUnit_cur : (s.setUnit u).cur = s.cur := rfl
@[simp] theorem State.setUnit_tick : (s.setUnit u).tick = s.tick := rfl
@[simp] theorem State.setUnit_extQueue : (s.setUnit u).extQueue = s.extQueue := rfl

/-! ## Fields after setPipe -/

@[simp] theorem State.setPipe_mem : (s.setPipe p).mem = s.mem := rfl
@[simp] theorem State.setPipe_counter : (s.setPipe p).counter = s.counter := rfl
@[simp] theorem State.setPipe_pinOut : (s.setPipe p).pinOut = s.pinOut := rfl
@[simp] theorem State.setPipe_pinDir : (s.setPipe p).pinDir = s.pinDir := rfl
@[simp] theorem State.setPipe_pinIn : (s.setPipe p).pinIn = s.pinIn := rfl
@[simp] theorem State.setPipe_lockAlloc : (s.setPipe p).lockAlloc = s.lockAlloc := rfl
@[simp] theorem State.setPipe_lockState : (s.setPipe p).lockState = s.lockState := rfl
@[simp] theorem State.setPipe_clk : (s.setPipe p).clk = s.clk := rfl
@[simp] theorem State.setPipe_stepOk : (s.setPipe p).stepOk = s.stepOk := rfl
@[simp] theorem State.setPipe_cur : (s.setPipe p).cur = s.cur := rfl
@[simp] theorem State.setPipe_tick : (s.setPipe p).tick = s.tick := rfl
@[simp] theorem State.setPipe_extQueue : (s.setPipe p).extQueue = s.extQueue := rfl

/-! ## Fields of the run-state machine after an update -/

@[simp] theorem Pipe.beginTail_runState (n : Nat) : (p.beginTail n).runState = .waitingCycles := rfl
@[simp] theorem Pipe.beginTail_nextState (n : Nat) : (p.beginTail n).nextState = .executingInstruction := rfl
@[simp] theorem Pipe.beginTail_stateArg (n : Nat) : (p.beginTail n).stateArg = BitVec.ofNat 32 n := rfl
@[simp] theorem Pipe.beginTail_ir (n : Nat) : (p.beginTail n).ir = p.ir := rfl
@[simp] theorem Pipe.beginTail_wb (n : Nat) : (p.beginTail n).wb = p.wb := rfl
@[simp] theorem Pipe.beginTail_pcNext (n : Nat) : (p.beginTail n).pcNext = p.pcNext := rfl
@[simp] theorem Pipe.beginTail_opD (n : Nat) : (p.beginTail n).opD = p.opD := rfl
@[simp] theorem Pipe.beginTail_opS (n : Nat) : (p.beginTail n).opS = p.opS := rfl
@[simp] theorem Pipe.beginTail_opIR (n : Nat) : (p.beginTail n).opIR = p.opIR := rfl
@[simp] theorem Pipe.beginTail_hubKind (n : Nat) : (p.beginTail n).hubKind = p.hubKind := rfl

@[simp] theorem Pipe.prewait_runState (h : RunState) : (p.prewait h).runState = .waitingPrewait := rfl
@[simp] theorem Pipe.prewait_nextState (h : RunState) : (p.prewait h).nextState = h := rfl
@[simp] theorem Pipe.prewait_stateArg (h : RunState) : (p.prewait h).stateArg = BitVec.ofNat 32 hubPre := rfl
@[simp] theorem Pipe.prewait_ir (h : RunState) : (p.prewait h).ir = p.ir := rfl
@[simp] theorem Pipe.prewait_wb (h : RunState) : (p.prewait h).wb = p.wb := rfl
@[simp] theorem Pipe.prewait_pcNext (h : RunState) : (p.prewait h).pcNext = p.pcNext := rfl
@[simp] theorem Pipe.prewait_opD (h : RunState) : (p.prewait h).opD = p.opD := rfl
@[simp] theorem Pipe.prewait_opS (h : RunState) : (p.prewait h).opS = p.opS := rfl
@[simp] theorem Pipe.prewait_opIR (h : RunState) : (p.prewait h).opIR = p.opIR := rfl
@[simp] theorem Pipe.prewait_hubKind (h : RunState) : (p.prewait h).hubKind = p.hubKind := rfl

@[simp] theorem Pipe.offer_runState (f : Fields) (r : Result) : (p.offer f r).runState = p.runState := rfl
@[simp] theorem Pipe.offer_nextState (f : Fields) (r : Result) : (p.offer f r).nextState = p.nextState := rfl
@[simp] theorem Pipe.offer_stateArg (f : Fields) (r : Result) : (p.offer f r).stateArg = p.stateArg := rfl
@[simp] theorem Pipe.offer_ir (f : Fields) (r : Result) : (p.offer f r).ir = p.ir := rfl
@[simp] theorem Pipe.offer_wb (f : Fields) (r : Result) : (p.offer f r).wb = { destEn := f.wr, dest := f.d, val := r.r, zEn := f.wz, z := r.z, cEn := f.wc, c := r.c } := rfl
@[simp] theorem Pipe.offer_pcNext (f : Fields) (r : Result) : (p.offer f r).pcNext = p.pcNext := rfl
@[simp] theorem Pipe.offer_opD (f : Fields) (r : Result) : (p.offer f r).opD = p.opD := rfl
@[simp] theorem Pipe.offer_opS (f : Fields) (r : Result) : (p.offer f r).opS = p.opS := rfl
@[simp] theorem Pipe.offer_opIR (f : Fields) (r : Result) : (p.offer f r).opIR = p.opIR := rfl
@[simp] theorem Pipe.offer_hubKind (f : Fields) (r : Result) : (p.offer f r).hubKind = p.hubKind := rfl

@[simp] theorem Pipe.offerLatched_runState (r : Result) : (p.offerLatched r).runState = p.runState := rfl
@[simp] theorem Pipe.offerLatched_nextState (r : Result) : (p.offerLatched r).nextState = p.nextState := rfl
@[simp] theorem Pipe.offerLatched_stateArg (r : Result) : (p.offerLatched r).stateArg = p.stateArg := rfl
@[simp] theorem Pipe.offerLatched_ir (r : Result) : (p.offerLatched r).ir = p.ir := rfl
@[simp] theorem Pipe.offerLatched_wb (r : Result) : (p.offerLatched r).wb = (p.offer (fieldsOf p.opIR) r).wb := rfl
@[simp] theorem Pipe.offerLatched_pcNext (r : Result) : (p.offerLatched r).pcNext = p.pcNext := rfl
@[simp] theorem Pipe.offerLatched_opD (r : Result) : (p.offerLatched r).opD = p.opD := rfl
@[simp] theorem Pipe.offerLatched_opS (r : Result) : (p.offerLatched r).opS = p.opS := rfl
@[simp] theorem Pipe.offerLatched_opIR (r : Result) : (p.offerLatched r).opIR = p.opIR := rfl
@[simp] theorem Pipe.offerLatched_hubKind (r : Result) : (p.offerLatched r).hubKind = p.hubKind := rfl

@[simp] theorem Pipe.offerNothing_runState : (p.offerNothing).runState = p.runState := rfl
@[simp] theorem Pipe.offerNothing_nextState : (p.offerNothing).nextState = p.nextState := rfl
@[simp] theorem Pipe.offerNothing_stateArg : (p.offerNothing).stateArg = p.stateArg := rfl
@[simp] theorem Pipe.offerNothing_ir : (p.offerNothing).ir = p.ir := rfl
@[simp] theorem Pipe.offerNothing_wb : (p.offerNothing).wb = { p.wb with destEn := false, zEn := false, cEn := false } := rfl
@[simp] theorem Pipe.offerNothing_pcNext : (p.offerNothing).pcNext = p.pcNext := rfl
@[simp] theorem Pipe.offerNothing_opD : (p.offerNothing).opD = p.opD := rfl
@[simp] theorem Pipe.offerNothing_opS : (p.offerNothing).opS = p.opS := rfl
@[simp] theorem Pipe.offerNothing_opIR : (p.offerNothing).opIR = p.opIR := rfl
@[simp] theorem Pipe.offerNothing_hubKind : (p.offerNothing).hubKind = p.hubKind := rfl

/-! ## Fields of the pipe of an instruction just latched -/

@[simp] theorem State.latchInstr_runState (i : Instr) : (s.latchInstr i).runState = s.unit.pipe.runState := rfl
@[simp] theorem State.latchInstr_nextState (i : Instr) : (s.latchInstr i).nextState = s.unit.pipe.nextState := rfl
@[simp] theorem State.latchInstr_stateArg (i : Instr) : (s.latchInstr i).stateArg = s.unit.pipe.stateArg := rfl
@[simp] theorem State.latchInstr_ir (i : Instr) : (s.latchInstr i).ir = s.unit.pipe.ir := rfl
@[simp] theorem State.latchInstr_wb (i : Instr) : (s.latchInstr i).wb = s.unit.pipe.wb := rfl
@[simp] theorem State.latchInstr_pcNext (i : Instr) : (s.latchInstr i).pcNext = s.unit.pc + 1 := rfl
@[simp] theorem State.latchInstr_opD (i : Instr) : (s.latchInstr i).opD = s.unit.pipe.opD := rfl
@[simp] theorem State.latchInstr_opS (i : Instr) : (s.latchInstr i).opS = s.unit.pipe.opS := rfl
@[simp] theorem State.latchInstr_opIR (i : Instr) : (s.latchInstr i).opIR = encode i := rfl
@[simp] theorem State.latchInstr_hubKind (i : Instr) : (s.latchInstr i).hubKind = s.unit.pipe.hubKind := rfl

/-! ## The view of a unit -/

@[simp] theorem State.viewOf_setSlot : (s.setSlot j u).viewOf k = s.viewOf k := rfl

@[simp] theorem State.viewOf_setUnit : (s.setUnit u).viewOf k = s.viewOf k := rfl

@[simp] theorem State.viewOf_setPipe : (s.setPipe p).viewOf k = s.viewOf k := rfl

@[simp] theorem State.anyC_setPipe : (s.setPipe p).anyC = s.anyC := rfl

@[simp] theorem State.anyZ_setPipe : (s.setPipe p).anyZ = s.anyZ := rfl

@[simp] theorem State.anyResult_setPipe : (s.setPipe p).anyResult = s.anyResult := rfl

theorem CogUnit.readLoc_pipe (w : View) (l : CogLoc) : ({ u with pipe := p } : CogUnit).readLoc w l = u.readLoc w l := by
  cases l <;> rfl

@[simp] theorem CogUnit.read_pipe (w : View) (a : CogAddr) : ({ u with pipe := p } : CogUnit).read w a = u.read w a :=
  u.readLoc_pipe p w (locate a)

@[simp] theorem State.readReg_setPipe (a : CogAddr) : (s.setPipe p).readReg a = s.readReg a := by
  simp [State.readReg]

end Sys2Proof.Machine
end

