-- ==== Sys2Proof/Laws/Registers.lean ====
section
/-! SUPPORT. What a register write does to every register (spec/42_special_registers.md R190, R191), and what completion
commits (spec/41_unit_state_machine.md R168). -/

namespace Sys2Proof.Machine

theorem locate_cell {a : CogAddr} (h : a.toNat < sprBase) : locate a = .cell a.toNat := by
  simp [locate, idSlot, h]

theorem locate_spr {a : CogAddr} (h : ¬ a.toNat < sprBase) : locate a = sprAt (a.toNat - sprBase) := by
  simp [locate, idSlot, h]

/-- No two cog addresses name one place. -/
theorem locate_injective {a b : CogAddr} (h : locate a = locate b) : a = b := by
  have hbound : ∀ c : CogAddr, ¬ c.toNat < sprBase → c.toNat - sprBase < 16 := by
    intro c _; have := c.isLt; simp only [sprBase]; omega
  have hspr : ∀ m n : Nat, m < 16 → n < 16 → sprAt m = sprAt n → m = n := by
    intro m n hm hn
    interval_cases m <;> interval_cases n <;> simp [sprAt]
  have hcell : ∀ m n : Nat, m < 16 → sprAt m ≠ .cell n := by
    intro m n hm
    interval_cases m <;> simp [sprAt]
  by_cases ha : a.toNat < sprBase <;> by_cases hb : b.toNat < sprBase
  · rw [locate_cell ha, locate_cell hb] at h
    exact BitVec.eq_of_toNat_eq (CogLoc.cell.inj h)
  · rw [locate_cell ha, locate_spr hb] at h
    exact absurd h.symm (hcell _ _ (hbound b hb))
  · rw [locate_spr ha, locate_cell hb] at h
    exact absurd h (hcell _ _ (hbound a ha))
  · rw [locate_spr ha, locate_spr hb] at h
    have := hspr _ _ (hbound a ha) (hbound b hb) h
    exact BitVec.eq_of_toNat_eq (by omega)

/-- The places that discard writes. -/
def CogLoc.fixed : CogLoc → Bool
  | .cnt | .ina | .inb | .ident => true
  | _ => false

theorem readOnly_eq_fixed (a : CogAddr) : readOnly a = (locate a).fixed := by
  revert a; decide +kernel

theorem CogUnit.readLoc_writeLoc {u : CogUnit} (v : View) (l m : CogLoc) (x : Long) (h : u.memWf = true) :
    (u.writeLoc x l).readLoc v m = if m = l ∧ l.fixed = false then x else u.readLoc v m := by
  cases l with
  | cell a =>
    cases m with
    | cell b =>
      by_cases hb : b = a
      · subst hb; simpa [writeLoc, readLoc, CogLoc.fixed] using Cells.get_put_self x h
      · simpa [writeLoc, readLoc, CogLoc.fixed, hb] using Cells.get_put_of_ne u.mem x hb
    | _ => rfl
  | _ => cases m <;> rfl

/-- A register reads as what was last written to it, unless it discards writes; every other register reads as before. -/
theorem CogUnit.read_write {u : CogUnit} (v : View) (a b : CogAddr) (x : Long) (h : u.memWf = true) :
    (u.write a x).read v b = if b = a ∧ readOnly a = false then x else u.read v b := by
  unfold CogUnit.read CogUnit.write
  rw [CogUnit.readLoc_writeLoc v _ _ x h, readOnly_eq_fixed]
  have : locate b = locate a ↔ b = a := ⟨locate_injective, fun e => e ▸ rfl⟩
  simp [this]

/-- The fields that a register write can change are the registers and the generator's link. -/
theorem CogUnit.hidden_write (u : CogUnit) (a : CogAddr) (x : Long) : (u.write a x).hidden = u.hidden := by
  unfold CogUnit.write
  cases locate a <;> rfl

theorem CogUnit.write_pc (u : CogUnit) (a : CogAddr) (x : Long) : (u.write a x).pc = u.pc := by
  unfold CogUnit.write
  cases locate a <;> rfl

theorem CogUnit.write_c (u : CogUnit) (a : CogAddr) (x : Long) : (u.write a x).c = u.c := by
  unfold CogUnit.write
  cases locate a <;> rfl

theorem CogUnit.write_z (u : CogUnit) (a : CogAddr) (x : Long) : (u.write a x).z = u.z := by
  unfold CogUnit.write
  cases locate a <;> rfl

theorem CogUnit.write_pipe (u : CogUnit) (a : CogAddr) (x : Long) : (u.write a x).pipe = u.pipe := by
  unfold CogUnit.write
  cases locate a <;> rfl

theorem CogUnit.write_active (u : CogUnit) (a : CogAddr) (x : Long) : (u.write a x).active = u.active := by
  unfold CogUnit.write
  cases locate a <;> rfl

theorem CogUnit.write_strategy (u : CogUnit) (a : CogAddr) (x : Long) : (u.write a x).strategy = u.strategy := by
  unfold CogUnit.write
  cases locate a <;> rfl

theorem CogUnit.write_pllAttached (u : CogUnit) (a : CogAddr) (x : Long) :
    (u.write a x).vid.pllAttached = if a = 0x1FE then vmode x != 0 else u.vid.pllAttached := by
  have h : (a = 0x1FE) ↔ locate a = .vcfg := by revert a; decide +kernel
  unfold CogUnit.write
  by_cases e : locate a = .vcfg
  · rw [if_pos (h.2 e), e]
    rfl
  · rw [if_neg fun x => e (h.1 x)]
    cases hl : locate a <;> first | rfl | exact absurd hl e

theorem CogUnit.write_held (u : CogUnit) (a : CogAddr) (x : Long) :
    (u.write a x).vid.held = if a = 0x1FE ∧ vmode x = 0 then 0 else u.vid.held := by
  have h : (a = 0x1FE) ↔ locate a = .vcfg := by revert a; decide +kernel
  unfold CogUnit.write
  simp only [h]
  cases locate a <;> simp [CogUnit.writeLoc, Video.writeVcfg]

/-- What of a unit a read looks at. -/
theorem CogUnit.read_flags (u : CogUnit) (v : View) (a : CogAddr) (p : Pipe) (pc : CogAddr) (c z fresh : Bool) :
    ({ u with pipe := p, pc := pc, c := c, z := z, pcFresh := fresh } : CogUnit).read v a = u.read v a := by
  unfold CogUnit.read
  cases locate a <;> rfl

/-! ## The completion tick -/

theorem CogUnit.commit_pipe (u : CogUnit) (wb : WriteBack) : (u.commit wb).pipe = u.pipe := by
  unfold CogUnit.commit
  cases wb.destEn
  · rfl
  · exact u.write_pipe _ _

theorem CogUnit.complete_pc (u : CogUnit) (v : View) : (u.complete v).pc = u.pipe.pcNext := by
  simp [CogUnit.complete, commit_pipe]

theorem CogUnit.complete_pcFresh (u : CogUnit) (v : View) : (u.complete v).pcFresh = true := rfl

theorem CogUnit.complete_pipe (u : CogUnit) (v : View) :
    (u.complete v).pipe = { u.pipe with ir := u.read v u.pipe.pcNext } := by
  simp [CogUnit.complete, commit_pipe]

theorem CogUnit.complete_c (u : CogUnit) (v : View) :
    (u.complete v).c = if u.pipe.wb.cEn then u.pipe.wb.c else u.c := by
  simp only [CogUnit.complete, CogUnit.commit]
  cases u.pipe.wb.destEn
  · rfl
  · simp only [if_true]; rw [write_c]

theorem CogUnit.complete_z (u : CogUnit) (v : View) :
    (u.complete v).z = if u.pipe.wb.zEn then u.pipe.wb.z else u.z := by
  simp only [CogUnit.complete, CogUnit.commit]
  cases u.pipe.wb.destEn
  · rfl
  · simp only [if_true]; rw [write_z]

theorem CogUnit.complete_read {u : CogUnit} (v : View) (a : CogAddr) (h : u.memWf = true) :
    (u.complete v).read v a =
      if u.pipe.wb.destEn = true ∧ a = u.pipe.wb.dest ∧ readOnly a = false then u.pipe.wb.val else u.read v a := by
  simp only [CogUnit.complete, CogUnit.commit]
  cases hd : u.pipe.wb.destEn
  · simp only [Bool.false_eq_true, if_false, false_and]
    exact read_flags u v a _ _ _ _ _
  · simp only [if_true, true_and]
    rw [read_flags, read_write v _ _ _ h]
    by_cases e : a = u.pipe.wb.dest
    · subst e; rfl
    · simp [e]

theorem CogUnit.complete_pllAttached (u : CogUnit) (v : View) :
    (u.complete v).vid.pllAttached =
      if u.pipe.wb.destEn = true ∧ u.pipe.wb.dest = 0x1FE then vmode u.pipe.wb.val != 0 else u.vid.pllAttached := by
  simp only [CogUnit.complete, CogUnit.commit]
  cases hd : u.pipe.wb.destEn
  · rfl
  · simp only [if_true, true_and]
    exact u.write_pllAttached _ _

theorem CogUnit.complete_held (u : CogUnit) (v : View) :
    (u.complete v).vid.held =
      if u.pipe.wb.destEn = true ∧ u.pipe.wb.dest = 0x1FE ∧ vmode u.pipe.wb.val = 0 then 0 else u.vid.held := by
  simp only [CogUnit.complete, CogUnit.commit]
  cases hd : u.pipe.wb.destEn
  · rfl
  · simp only [if_true, true_and]
    exact u.write_held _ _

theorem CogUnit.complete_hidden (u : CogUnit) (v : View) : (u.complete v).hidden = u.hidden := by
  have strip : ∀ w : CogUnit, ∀ p c z pc, ({ w with pipe := p, c := c, z := z, pc := pc, pcFresh := true } : CogUnit).hidden
      = w.hidden := fun _ _ _ _ _ => rfl
  simp only [CogUnit.complete, CogUnit.commit]
  cases u.pipe.wb.destEn
  · exact strip u _ _ _ _
  · simp only [if_true]
    exact (strip _ _ _ _ _).trans (u.hidden_write _ _)

/-- What the completion tick commits, from a write-back latch loaded under the fields `f`. -/
theorem CogUnit.complete_committed {b : State} {p : Pipe} {f : Fields} {res : Result} (hmem : b.unit.memWf = true)
    (hrun : p.runState = .executingInstruction)
    (hdest : p.wb.destEn = f.wr ∧ (f.wr = true → p.wb.dest = f.d ∧ p.wb.val = res.r))
    (hz : p.wb.zEn = f.wz ∧ (f.wz = true → p.wb.z = res.z)) (hc : p.wb.cEn = f.wc ∧ (f.wc = true → p.wb.c = res.c)) :
    Committed b (b.setUnit (({ b.unit with pipe := p } : CogUnit).complete (b.viewOf b.cur))) f res.r res.c res.z p.pcNext where
  runs := by rw [State.unit_setUnit, complete_pipe]; exact hrun
  pc := by rw [State.unit_setUnit, complete_pc]
  fresh := by rw [State.unit_setUnit]; exact complete_pcFresh _ _
  fetched := by rw [State.unit_setUnit, complete_pipe]; exact CogUnit.read_pipe b.unit p _ _
  flagC := by
    rw [State.unit_setUnit, complete_c]
    simp only [hc.1]
    split
    · exact hc.2 ‹_›
    · rfl
  flagZ := by
    rw [State.unit_setUnit, complete_z]
    simp only [hz.1]
    split
    · exact hz.2 ‹_›
    · rfl
  regs := by
    intro a
    simp only [State.readReg, State.unit_setUnit, State.viewOf_setUnit, State.setUnit_cur]
    rw [complete_read _ _ (show ({ b.unit with pipe := p } : CogUnit).memWf = true from hmem), CogUnit.read_pipe]
    simp only [hdest.1]
    cases hw : f.wr
    · simp
    · obtain ⟨h1, h2⟩ := hdest.2 hw
      simp only [h1, h2]
  link := by
    rw [State.unit_setUnit, complete_pllAttached]
    simp only [hdest.1]
    cases hw : f.wr
    · simp
    · obtain ⟨h1, h2⟩ := hdest.2 hw
      simp only [h1, h2]
  held := by
    rw [State.unit_setUnit, complete_held]
    simp only [hdest.1]
    cases hw : f.wr
    · simp
    · obtain ⟨h1, h2⟩ := hdest.2 hw
      simp only [h1, h2]
  rest := by rw [State.unit_setUnit, complete_hidden]; rfl
  outside := by rw [State.unit_setUnit]

end Sys2Proof.Machine
end

