-- ==== Sys2Proof/Laws/Ops.lean ====
section
/-! SUPPORT. One lemma per shared operation that says all it can do, and what a burn leads to
(spec/41_unit_state_machine.md R153, R154, R160 to R165). -/

namespace Sys2Proof.Machine

/-! ## The execute tick -/

/-- The pipe of an instruction whose condition holds, before the instruction's own rule. -/
def State.operandPipe (s : State) (i : Instr) : Pipe :=
  { s.latchInstr i with opD := (s.inputs i.fields).d, opS := (s.inputs i.fields).s }

theorem guarded_holds {i : Instr} {s : State} (rule : Inputs → Pipe → Out) (h : s.holds i.fields) :
    guarded i s rule = rule (s.inputs i.fields) (s.operandPipe i) := by
  unfold State.holds at h
  unfold guarded
  rw [if_pos h]
  rfl

theorem guarded_skips {i : Instr} {s : State} (rule : Inputs → Pipe → Out) (h : ¬ s.holds i.fields) :
    guarded i s rule = skip i s := by
  unfold State.holds at h
  unfold guarded
  rw [if_neg h]

theorem plain_holds {i : Instr} {s : State} (rule : Inputs → Result) (h : s.holds i.fields) :
    plain i s rule =
      .next (s.setPipe (((s.operandPipe i).offer i.fields (rule (s.inputs i.fields))).beginTail (tInstr - 1))) :=
  guarded_holds _ h

theorem branch_taken {i : Instr} {s : State} {a : CogAddr} (rule : Inputs → Result) (target : Inputs → Option CogAddr)
    (h : s.holds i.fields) (ht : target (s.inputs i.fields) = some a) :
    branch i s rule target =
      .next (s.setPipe (({ s.operandPipe i with pcNext := a }.offer i.fields (rule (s.inputs i.fields))).beginTail
        (tInstr - 1))) := by
  unfold branch
  rw [guarded_holds _ h, ht]

theorem branch_not_taken {i : Instr} {s : State} (rule : Inputs → Result) (target : Inputs → Option CogAddr)
    (h : s.holds i.fields) (ht : target (s.inputs i.fields) = none) :
    branch i s rule target =
      .next (s.setPipe (((s.operandPipe i).offer i.fields (rule (s.inputs i.fields))).beginTail (tNoJump - 1))) := by
  unfold branch
  rw [guarded_holds _ h, ht]

theorem hubReadSeq_holds {i : Instr} {s : State} (state : RunState) (h : s.holds i.fields) :
    hubReadSeq i s state = .next (s.setPipe ((s.operandPipe i).prewait state)) := guarded_holds _ h

theorem hubOpSeq_holds {i : Instr} {s : State} (kind : Inputs → HubKind) (h : s.holds i.fields) :
    hubOpSeq i s kind =
      .next (s.setPipe ({ s.operandPipe i with hubKind := kind (s.inputs i.fields) }.prewait .hubOperation)) :=
  guarded_holds _ h

theorem waitSeq_holds {i : Instr} {s : State} (state : RunState) (h : s.holds i.fields) :
    waitSeq i s state = .next (s.setPipe { s.operandPipe i with runState := state }) := guarded_holds _ h

theorem reserved_holds {i : Instr} {s : State} (why : Refusal) (h : s.holds i.fields) : reserved i s why = .refused why :=
  guarded_holds _ h

/-- Whatever the rule of an instruction, its execute tick changes nothing but the running unit's latches. -/
theorem guarded_frame {i : Instr} {s t : State} {rule : Inputs → Pipe → Out}
    (hrule : ∀ x p t, rule x p = .next t → t = s.setPipe t.unit.pipe) (h : guarded i s rule = .next t) :
    t = s.setPipe t.unit.pipe := by
  unfold guarded at h
  split at h
  · exact hrule _ _ _ h
  · unfold skip at h
    cases h
    simp

/-! ## Burning -/

theorem progressN_succ (n : Nat) (s : State) : progressN (n + 1) s = andThen (progress s) (progressN n) := rfl

/-- A burn with more than one tick left only counts down. -/
theorem progress_burn_more {b : State} {p : Pipe} {n : Nat} (hrun : p.runState = .waitingCycles)
    (harg : p.stateArg = BitVec.ofNat 32 (n + 2)) (hn : n + 2 < 2 ^ 32) :
    progress (b.setPipe p) = .next (b.setPipe { p with stateArg := BitVec.ofNat 32 (n + 1) }) := by
  have hne : BitVec.ofNat 32 (n + 2) ≠ 0 := by
    intro e; have := congrArg BitVec.toNat e; simp at this; omega
  have hsub : BitVec.ofNat 32 (n + 2) - 1 = BitVec.ofNat 32 (n + 1) := by
    apply BitVec.eq_of_toNat_eq; simp; omega
  have hne' : BitVec.ofNat 32 (n + 1) ≠ 0 := by
    intro e; have := congrArg BitVec.toNat e; simp at this; omega
  have hc : countdown p.stateArg = BitVec.ofNat 32 (n + 1) := by rw [countdown, harg, if_neg hne, hsub]
  unfold progress
  simp only [State.unit_setPipe, hrun, CogUnit.burn, hc]
  rw [if_neg hne', State.setUnit_setPipe]
  simp only [State.setPipe]

/-- The last tick of a burn completes the instruction. -/
theorem progress_burn_last {b : State} {p : Pipe} (hrun : p.runState = .waitingCycles) (harg : p.stateArg = BitVec.ofNat 32 1)
    (hnext : p.nextState = .executingInstruction) (hnat : b.unit.strategy = .native) :
    progress (b.setPipe p) = .next (b.setUnit
      (({ b.unit with pipe := { p with stateArg := 0, runState := .executingInstruction } } : CogUnit).complete
        (b.viewOf b.cur))) := by
  have hc : countdown p.stateArg = 0 := by rw [harg]; decide
  unfold progress
  simp only [State.unit_setPipe, hrun, CogUnit.burn, hc, if_true, hnext, hnat]
  rw [State.setUnit_setPipe]
  rfl

/-- `n + 1` ticks of burning: nothing but the latches changes before the last, which completes the instruction. -/
theorem burn_completes {b : State} {p : Pipe} {f : Fields} {res : Result} {n : Nat} (hnat : b.native)
    (hrun : p.runState = .waitingCycles) (harg : p.stateArg = BitVec.ofNat 32 (n + 1)) (hn : n + 1 < 2 ^ 32)
    (hnext : p.nextState = .executingInstruction)
    (hdest : p.wb.destEn = f.wr ∧ (f.wr = true → p.wb.dest = f.d ∧ p.wb.val = res.r))
    (hz : p.wb.zEn = f.wz ∧ (f.wz = true → p.wb.z = res.z)) (hc : p.wb.cEn = f.wc ∧ (f.wc = true → p.wb.c = res.c)) :
    (∀ m < n + 1, ∃ q, progressN m (b.setPipe p) = .next q ∧ q = b.setPipe q.unit.pipe ∧
      q.unit.pipe.runState = .waitingCycles) ∧
    ∃ t, progressN (n + 1) (b.setPipe p) = .next t ∧ Committed b t f res.r res.c res.z p.pcNext := by
  induction n generalizing p with
  | zero =>
    refine ⟨fun m hm => ⟨b.setPipe p, ?_, ?_, ?_⟩, ?_⟩
    · obtain rfl : m = 0 := by omega
      rfl
    · simp
    · simpa using hrun
    · refine ⟨_, ?_, CogUnit.complete_committed (p := { p with stateArg := 0, runState := .executingInstruction })
        hnat.2 rfl hdest hz hc⟩
      rw [progressN_succ, progress_burn_last hrun harg hnext hnat.1]
      rfl
  | succ n ih =>
    have hstep := progress_burn_more (b := b) hrun harg hn
    obtain ⟨h1, t, h2, h3⟩ := ih (p := { p with stateArg := BitVec.ofNat 32 (n + 1) }) hrun rfl (by omega) hnext hdest hz hc
    refine ⟨fun m hm => ?_, t, ?_, h3⟩
    · cases m with
      | zero => exact ⟨b.setPipe p, rfl, by simp, by simpa using hrun⟩
      | succ m =>
        obtain ⟨q, hq⟩ := h1 m (by omega)
        exact ⟨q, by rw [progressN_succ, hstep]; exact hq.1, hq.2⟩
    · rw [progressN_succ, hstep]
      exact h2

/-! ## Completion of the shared operations -/

/-- A plain instruction completes three ticks after its execute tick with the result of its rule. -/
theorem plain_completes {i : Instr} {s : State} (rule : Inputs → Result) (hi : exec i s = plain i s rule) (hnat : s.native)
    (h : s.holds i.fields) :
    Completes i s 3 (rule (s.inputs i.fields)).r (rule (s.inputs i.fields)).c (rule (s.inputs i.fields)).z (s.unit.pc + 1) := by
  rw [plain_holds rule h] at hi
  exact ⟨_, hi, burn_completes (n := 2) hnat rfl rfl (by decide) rfl ⟨rfl, fun _ => ⟨rfl, rfl⟩⟩ ⟨rfl, fun _ => rfl⟩
    ⟨rfl, fun _ => rfl⟩⟩

/-- A taken jump completes three ticks after its execute tick, at its target. -/
theorem branch_taken_completes {i : Instr} {s : State} {a : CogAddr} (rule : Inputs → Result)
    (target : Inputs → Option CogAddr) (hi : exec i s = branch i s rule target) (hnat : s.native) (h : s.holds i.fields)
    (ht : target (s.inputs i.fields) = some a) :
    Completes i s 3 (rule (s.inputs i.fields)).r (rule (s.inputs i.fields)).c (rule (s.inputs i.fields)).z a := by
  rw [branch_taken rule target h ht] at hi
  exact ⟨_, hi, burn_completes (n := 2) hnat rfl rfl (by decide) rfl ⟨rfl, fun _ => ⟨rfl, rfl⟩⟩ ⟨rfl, fun _ => rfl⟩
    ⟨rfl, fun _ => rfl⟩⟩

/-- A jump that is not taken completes seven ticks after its execute tick, at the following address. -/
theorem branch_not_taken_completes {i : Instr} {s : State} (rule : Inputs → Result) (target : Inputs → Option CogAddr)
    (hi : exec i s = branch i s rule target) (hnat : s.native) (h : s.holds i.fields)
    (ht : target (s.inputs i.fields) = none) :
    Completes i s 7 (rule (s.inputs i.fields)).r (rule (s.inputs i.fields)).c (rule (s.inputs i.fields)).z (s.unit.pc + 1) := by
  rw [branch_not_taken rule target h ht] at hi
  exact ⟨_, hi, burn_completes (n := 6) hnat rfl rfl (by decide) rfl ⟨rfl, fun _ => ⟨rfl, rfl⟩⟩ ⟨rfl, fun _ => rfl⟩
    ⟨rfl, fun _ => rfl⟩⟩

/-- A skipped instruction completes three ticks later and commits nothing. -/
theorem skip_completes (i : Instr) {s : State} (hnat : s.native) :
    ∃ s1, skip i s = .next s1 ∧
      (∀ m < 3, ∃ q, progressN m s1 = .next q ∧ q = s.setPipe q.unit.pipe ∧ q.unit.pipe.runState = .waitingCycles) ∧
      ∃ t, progressN 3 s1 = .next t ∧
        Committed s t { i.fields with wr := false, wc := false, wz := false } 0 false false (s.unit.pc + 1) := by
  exact ⟨_, rfl, burn_completes (n := 2) (res := { r := 0, c := false, z := false }) hnat rfl rfl (by decide) rfl
    ⟨rfl, fun e => nomatch e⟩ ⟨rfl, fun e => nomatch e⟩ ⟨rfl, fun e => nomatch e⟩⟩

/-- Two ticks after the execute tick of a hub instruction the unit is in its hub state. -/
theorem prewait_arrives {b : State} {p : Pipe} (state : RunState) :
    progressN 2 (b.setPipe (p.prewait state)) = .next (b.setPipe { p with runState := state, nextState := state, stateArg := 0 }) := by
  have h1 : progress (b.setPipe (p.prewait state)) = .next (b.setPipe { p.prewait state with stateArg := 1 }) := by
    unfold progress
    simp only [State.unit_setPipe, Pipe.prewait_runState, CogUnit.burnPrewait, Pipe.prewait_stateArg]
    rw [show countdown (BitVec.ofNat 32 hubPre) = 1 from by decide, if_neg (by decide), State.setUnit_setPipe]
    rfl
  have h2 : progress (b.setPipe { p.prewait state with stateArg := 1 }) =
      .next (b.setPipe { p with runState := state, nextState := state, stateArg := 0 }) := by
    unfold progress
    simp only [State.unit_setPipe, Pipe.prewait_runState, CogUnit.burnPrewait]
    rw [show countdown (1 : BitVec 32) = 0 from by decide, if_pos rfl, State.setUnit_setPipe]
    rfl
  rw [progressN_succ, h1]
  simp only [andThen]
  rw [progressN_succ, h2]
  rfl

/-- The tail of a hub transaction: five ticks of progress, then what the transaction offered is committed. -/
theorem endTransaction_completes {w : State} {i : Instr} (res : Result) (hnat : w.native) (hir : w.unit.pipe.opIR = encode i) :
    (∀ m < 5, ∃ q, progressN m (endTransaction w res) = .next q ∧ q = w.setPipe q.unit.pipe ∧
      q.unit.pipe.runState = .waitingCycles) ∧
    ∃ t, progressN 5 (endTransaction w res) = .next t ∧
      Committed w t i.fields res.r res.c res.z w.unit.pipe.pcNext := by
  have hf : fieldsOf w.unit.pipe.opIR = i.fields := by rw [hir, fieldsOf_encode]
  refine burn_completes (p := (w.unit.pipe.offerLatched res).beginTail hubTail) (n := 4) hnat rfl rfl (by decide) rfl ?_ ?_ ?_
  · simp [hf]
  · simp [hf]
  · simp [hf]

/-- The tail of a satisfied wait. -/
theorem satisfied_completes {w : State} {i : Instr} (res : Result) (n : Nat) (hn : n + 1 < 2 ^ 32) (hnat : w.native)
    (hir : w.unit.pipe.opIR = encode i) :
    (∀ m < n + 1, ∃ q, progressN m (satisfied w res (n + 1)) = .next q ∧ q = w.setPipe q.unit.pipe ∧
      q.unit.pipe.runState = .waitingCycles) ∧
    ∃ t, progressN (n + 1) (satisfied w res (n + 1)) = .next t ∧
      Committed w t i.fields res.r res.c res.z w.unit.pipe.pcNext := by
  have hf : fieldsOf w.unit.pipe.opIR = i.fields := by rw [hir, fieldsOf_encode]
  refine burn_completes (p := (w.unit.pipe.offerLatched res).beginTail (n + 1)) (n := n) hnat rfl rfl hn rfl ?_ ?_ ?_
  · simp [hf]
  · simp [hf]
  · simp [hf]

/-- A hub instruction completes as `CompletesHub` says, if its execute tick enters the prewait and the hub hook ends the
transaction `done`. -/
theorem hub_completes {i : Instr} {s : State} {state : RunState} {good : State → Prop} {done : State → State}
    {offer : State → Result → Prop} (p : Pipe) (hexec : exec i s = .next (s.setPipe (p.prewait state)))
    (hir : p.opIR = encode i) (hpc : p.pcNext = s.unit.pc + 1)
    (hook : ∀ w, w.cur = s.cur → w.unit.pipe = { p with runState := state, nextState := state, stateArg := 0 } → w.native →
      good w → ∃ res, hubHook w = .next (endTransaction (done w) res) ∧ offer w res ∧ (done w).native ∧
        (done w).unit.pipe = w.unit.pipe) :
    CompletesHub i s state good done offer := by
  refine ⟨_, _, hexec, prewait_arrives state, by simp, by simp, fun w hw hg => ?_⟩
  have hp : w.unit.pipe = { p with runState := state, nextState := state, stateArg := 0 } := by simpa using hw.2.1
  obtain ⟨res, h1, h2, h3, h4⟩ := hook w hw.1 hp hw.2.2 hg
  obtain ⟨h5, t, h6, h7⟩ := endTransaction_completes (w := done w) (i := i) res h3 (by rw [h4, hp]; exact hir)
  rw [h4, hp] at h7
  simp only [hpc] at h7
  exact ⟨_, t, res, h1, fun m hm => let ⟨q, ha, hb, _⟩ := h5 m hm; ⟨q, ha, hb⟩, h6, h2, h7⟩

/-- A wait completes as `CompletesWait` says, if its execute tick enters the waiting state and a poll there does nothing or is
satisfied. -/
theorem wait_completes {i : Instr} {s : State} {state : RunState} {n : Nat} {ready : State → Prop} {done : State → State}
    {offer : State → Result → Prop} (p : Pipe) (hn : n + 1 < 2 ^ 32)
    (hexec : exec i s = .next (s.setPipe { p with runState := state })) (hir : p.opIR = encode i)
    (hpc : p.pcNext = s.unit.pc + 1)
    (poll : ∀ w, w.cur = s.cur → w.unit.pipe = { p with runState := state } → w.native →
      (¬ ready w → progress w = .next w) ∧ (ready w → ∃ res, progress w = .next (satisfied (done w) res (n + 1)) ∧
        offer w res ∧ (done w).native ∧ (done w).unit.pipe = w.unit.pipe)) :
    CompletesWait i s state (n + 1) ready done offer := by
  refine ⟨_, hexec, by simp, by simp, fun w hw => ?_⟩
  have hp : w.unit.pipe = { p with runState := state } := by simpa using hw.2.1
  obtain ⟨hno, hyes⟩ := poll w hw.1 hp hw.2.2
  refine ⟨hno, fun hr => ?_⟩
  obtain ⟨res, h1, h2, h3, h4⟩ := hyes hr
  obtain ⟨h5, t, h6, h7⟩ := satisfied_completes (w := done w) (i := i) res n hn h3 (by rw [h4, hp]; exact hir)
  rw [h4, hp] at h7
  simp only [hpc] at h7
  exact ⟨_, t, res, h1, fun m hm => let ⟨q, ha, hb, _⟩ := h5 m hm; ⟨q, ha, hb⟩, h6, h2, h7⟩

end Sys2Proof.Machine
end

