-- ==== Sys2Proof/Laws/Exec.lean ====
section
/-! SUPPORT. The shape of the execute tick of all 83 instructions, and what a tick of one unit can change
(spec/41_unit_state_machine.md R142, R143, R160). -/

namespace Sys2Proof.Machine

/-- The execute tick of an instruction is one of the shared operations. -/
inductive ExecShape (i : Instr) (s : State) : Prop where
  | plain (rule : Inputs → Result) (h : exec i s = plain i s rule)
  | branch (rule : Inputs → Result) (target : Inputs → Option CogAddr) (h : exec i s = branch i s rule target)
  | hubRead (state : RunState) (hub : state.isHub = true) (h : exec i s = hubReadSeq i s state)
  | hubOp (kind : Inputs → HubKind) (h : exec i s = hubOpSeq i s kind)
  | wait (state : RunState)
      (legal : state ∈ [RunState.waitingPinsEqual, .waitingPinsNotEqual, .waitingCounter, .waitingVideo])
      (h : exec i s = waitSeq i s state)
  | reserved (why : Refusal) (res : why.isReserved = true) (h : exec i s = reserved i s why)
  | skip (never : ¬ s.holds i.fields) (h : exec i s = skip i s)

theorem not_holds_nop (s : State) : ¬ s.holds Instr.nop.fields := by
  unfold State.holds evaluate
  simp [Instr.fields, Fields.zero]

theorem exec_shape (i : Instr) (s : State) : ExecShape i s := by
  cases i with
  | rdbyte f => exact .hubRead .hubReadByte rfl rfl
  | rdword f => exact .hubRead .hubReadWord rfl rfl
  | rdlong f => exact .hubRead .hubReadLong rfl rfl
  | wrbyte f => exact .hubOp (fun _ => .wrbyte) rfl
  | wrword f => exact .hubOp (fun _ => .wrword) rfl
  | wrlong f => exact .hubOp (fun _ => .wrlong) rfl
  | clkset f => exact .hubOp hubSelect rfl
  | cogid f => exact .hubOp hubSelect rfl
  | coginit f => exact .hubOp hubSelect rfl
  | cogstop f => exact .hubOp hubSelect rfl
  | locknew f => exact .hubOp hubSelect rfl
  | lockret f => exact .hubOp hubSelect rfl
  | lockset f => exact .hubOp hubSelect rfl
  | lockclr f => exact .hubOp hubSelect rfl
  | hubop f => exact .hubOp hubSelect rfl
  | mul f => exact .reserved .reservedMul rfl rfl
  | muls f => exact .reserved .reservedMuls rfl rfl
  | enc f => exact .reserved .reservedEnc rfl rfl
  | ones f => exact .reserved .reservedOnes rfl rfl
  | jmpret f => exact .branch (resJmpret s.unit.pc s.anyC) always rfl
  | jmp f => exact .branch (resJmpret s.unit.pc s.anyC) always rfl
  | call f => exact .branch (resJmpret s.unit.pc s.anyC) always rfl
  | ret f => exact .branch (resJmpret s.unit.pc s.anyC) always rfl
  | djnz f => exact .branch resDjnz (takenIf fun x => (resDjnz x).r != 0) rfl
  | tjnz f => exact .branch resTest (takenIf fun x => x.d != 0) rfl
  | tjz f => exact .branch resTest (takenIf fun x => x.d == 0) rfl
  | waitpeq f => exact .wait .waitingPinsEqual (by decide) rfl
  | waitpne f => exact .wait .waitingPinsNotEqual (by decide) rfl
  | waitcnt f => exact .wait .waitingCounter (by decide) rfl
  | waitvid f => exact .wait .waitingVideo (by decide) rfl
  | nop => exact .skip (not_holds_nop s) rfl
  | ror f => exact .plain resRor rfl
  | rol f => exact .plain resRol rfl
  | shr f => exact .plain resShr rfl
  | shl f => exact .plain resShl rfl
  | rcr f => exact .plain resRcr rfl
  | rcl f => exact .plain resRcl rfl
  | sar f => exact .plain resSar rfl
  | rev f => exact .plain resRev rfl
  | mins f => exact .plain resMins rfl
  | maxs f => exact .plain resMaxs rfl
  | min f => exact .plain resMin rfl
  | max f => exact .plain resMax rfl
  | movs f => exact .plain (resMovs s.anyC) rfl
  | movd f => exact .plain (resMovd s.anyC) rfl
  | movi f => exact .plain (resMovi s.anyC) rfl
  | and f => exact .plain resAnd rfl
  | test f => exact .plain resAnd rfl
  | andn f => exact .plain resAndn rfl
  | testn f => exact .plain resAndn rfl
  | or f => exact .plain resOr rfl
  | xor f => exact .plain resXor rfl
  | muxc f => exact .plain (fun x => resMux x.c x) rfl
  | muxnc f => exact .plain (fun x => resMux (!x.c) x) rfl
  | muxz f => exact .plain (fun x => resMux x.z x) rfl
  | muxnz f => exact .plain (fun x => resMux (!x.z) x) rfl
  | add f => exact .plain resAdd rfl
  | sub f => exact .plain resSub rfl
  | cmp f => exact .plain resSub rfl
  | addabs f => exact .plain resAddabs rfl
  | subabs f => exact .plain resSubabs rfl
  | sumc f => exact .plain (fun x => resSum x.c x) rfl
  | sumnc f => exact .plain (fun x => resSum (!x.c) x) rfl
  | sumz f => exact .plain (fun x => resSum x.z x) rfl
  | sumnz f => exact .plain (fun x => resSum (!x.z) x) rfl
  | mov f => exact .plain resMov rfl
  | neg f => exact .plain resNeg rfl
  | abs f => exact .plain resAbs rfl
  | absneg f => exact .plain resAbsneg rfl
  | negc f => exact .plain (fun x => resNegIf x.c x) rfl
  | negnc f => exact .plain (fun x => resNegIf (!x.c) x) rfl
  | negz f => exact .plain (fun x => resNegIf x.z x) rfl
  | negnz f => exact .plain (fun x => resNegIf (!x.z) x) rfl
  | cmps f => exact .plain resCmps rfl
  | cmpsx f => exact .plain resCmpsx rfl
  | addx f => exact .plain resAddx rfl
  | subx f => exact .plain resSubx rfl
  | cmpx f => exact .plain resSubx rfl
  | adds f => exact .plain resAdds rfl
  | subs f => exact .plain resSubs rfl
  | addsx f => exact .plain resAddsx rfl
  | subsx f => exact .plain resSubsx rfl
  | cmpsub f => exact .plain resCmpsub rfl

/-- What the execute tick leaves in the latches of the running unit, by its shape. -/
inductive ExecOutcome (i : Instr) (s : State) : Out → Prop where
  | tail (p : Pipe) (n : Nat) (h : n = tInstr - 1 ∨ n = tNoJump - 1) (hir : p.ir = s.unit.pipe.ir) (hop : p.opIR = encode i)
      (hd : s.holds i.fields → p.opD = s.readReg i.fields.d ∧ p.opS = s.source i.fields.src) :
      ExecOutcome i s (.next (s.setPipe (p.beginTail n)))
  | prewait (p : Pipe) (state : RunState) (h : state.isHub = true) (hir : p.ir = s.unit.pipe.ir) (hop : p.opIR = encode i)
      (hd : p.opD = s.readReg i.fields.d ∧ p.opS = s.source i.fields.src) :
      ExecOutcome i s (.next (s.setPipe (p.prewait state)))
  | wait (p : Pipe) (state : RunState)
      (h : state ∈ [RunState.waitingPinsEqual, .waitingPinsNotEqual, .waitingCounter, .waitingVideo])
      (hir : p.ir = s.unit.pipe.ir) (hop : p.opIR = encode i)
      (hd : p.opD = s.readReg i.fields.d ∧ p.opS = s.source i.fields.src) :
      ExecOutcome i s (.next (s.setPipe { p with runState := state }))
  | refused (why : Refusal) (h : why.isReserved = true) (holds : s.holds i.fields) : ExecOutcome i s (.refused why)

theorem skip_outcome (i : Instr) (s : State) (h : ¬ s.holds i.fields) : ExecOutcome i s (skip i s) :=
  .tail _ _ (.inl rfl) rfl rfl fun e => absurd e h

theorem exec_outcome (i : Instr) (s : State) : ExecOutcome i s (exec i s) := by
  by_cases h : s.holds i.fields
  · cases exec_shape i s with
    | plain rule e =>
      rw [e, plain_holds rule h]
      exact .tail _ _ (.inl rfl) rfl rfl fun _ => ⟨rfl, rfl⟩
    | branch rule target e =>
      rw [e]
      cases ht : target (s.inputs i.fields) with
      | some a =>
        rw [branch_taken rule target h ht]
        exact .tail _ _ (.inl rfl) rfl rfl fun _ => ⟨rfl, rfl⟩
      | none =>
        rw [branch_not_taken rule target h ht]
        exact .tail _ _ (.inr rfl) rfl rfl fun _ => ⟨rfl, rfl⟩
    | hubRead state hub e =>
      rw [e, hubReadSeq_holds state h]
      exact .prewait _ _ hub rfl rfl ⟨rfl, rfl⟩
    | hubOp kind e =>
      rw [e, hubOpSeq_holds kind h]
      exact .prewait _ _ rfl rfl rfl ⟨rfl, rfl⟩
    | wait state legal e =>
      rw [e, waitSeq_holds state h]
      exact .wait _ _ legal rfl rfl ⟨rfl, rfl⟩
    | reserved why res e =>
      rw [e, reserved_holds why h]
      exact .refused _ res h
    | skip never e => exact absurd h never
  · have : exec i s = skip i s := by
      cases exec_shape i s with
      | plain rule e => rw [e]; exact guarded_skips _ h
      | branch rule target e => rw [e]; exact guarded_skips _ h
      | hubRead state hub e => rw [e]; exact guarded_skips _ h
      | hubOp kind e => rw [e]; exact guarded_skips _ h
      | wait state legal e => rw [e]; exact guarded_skips _ h
      | reserved why res e => rw [e]; exact guarded_skips _ h
      | skip never e => exact e
    rw [this]
    exact skip_outcome i s h

/-! ## One tick of progress -/

/-- The execute tick changes nothing but the running unit's latches. -/
theorem exec_frame {i : Instr} {s t : State} (h : exec i s = .next t) : t = s.setPipe t.unit.pipe := by
  have := exec_outcome i s
  rw [h] at this
  cases this <;> simp

/-- A tick of progress changes nothing but the running unit. -/
theorem progress_frame {s t : State} (h : progress s = .next t) : t = s.setUnit t.unit := by
  unfold progress at h
  split at h
  case h_2 =>
    unfold executeTick at h
    split at h
    · rw [exec_frame h]; simp [State.setPipe]
    · cases h
  all_goals cases h
  case h_8.refl => unfold pollPinsEqual satisfied; split <;> simp [State.setPipe]
  case h_9.refl => unfold pollPinsNotEqual satisfied; split <;> simp [State.setPipe]
  case h_10.refl => unfold pollCounter satisfied; split <;> simp [State.setPipe]
  case h_11.refl => unfold pollVideo satisfied; split <;> simp [State.setPipe]
  all_goals simp

end Sys2Proof.Machine
end

