-- ==== Sys2Proof/Laws/Hub.lean ====
section
/-! SUPPORT. What a hub read gives and what a hub write stores, byte by byte (spec/20_memory.md R75 to R78). -/

namespace Sys2Proof.Machine

/-- The aligned hub address as a quotient. -/
theorem hubAlign_eq (a : Long) (n : Nat) : hubAlign a n = a.toNat % 0x10000 / n * n := by
  unfold hubAlign
  simp only [hubBytes]
  have := Nat.div_add_mod (a.toNat % 0x10000) n
  rw [Nat.mul_comm] at this
  omega

/-- Every byte of hub memory after a store. -/
theorem hubByte_hubPutBytesLE {m : List Host.Cell} (hm : Memory.wf m = true) (a : Nat) (v : Long) (n b : Nat) :
    hubByte (hubPutBytesLE m a v n) b =
      if a ≤ b ∧ b < a + n ∧ b < hubRamBytes then byteOf v (b - a) else hubByte m b := by
  induction n with
  | zero => simp [hubPutBytesLE]; intro h1 h2; omega
  | succ n ih =>
    simp only [hubPutBytesLE]
    rw [hubByte_hubPutByte _ _ _ (hubPutBytesLE_wf a v n hm), ih]
    by_cases e : b = a + n
    · subst e
      by_cases r : a + n < hubRamBytes <;> simp [r]
    · by_cases h1 : a ≤ b ∧ b < a + n ∧ b < hubRamBytes
      · have h2 : a ≤ b ∧ b < a + (n + 1) ∧ b < hubRamBytes := by omega
        simp [e, h1, h2]
      · have h2 : ¬(a ≤ b ∧ b < a + (n + 1) ∧ b < hubRamBytes) := by omega
        rw [if_neg h1, if_neg h2, if_neg (by tauto)]

/-- A read of up to four bytes is a number below `2 ^ (8 * n)`. -/
theorem hubBytesLE_bound (m : List Host.Cell) (a n : Nat) (h : n ≤ 4) : (hubBytesLE m a n).toNat < 2 ^ (8 * n) := by
  have hp : n = 0 ∨ n = 1 ∨ n = 2 ∨ n = 3 ∨ n = 4 := by omega
  induction n generalizing a with
  | zero => simp [hubBytesLE]
  | succ n ih =>
    have h1 := ih (a + 1) (by omega) (by omega)
    have h2 := (hubByte m a).isLt
    simp only [hubBytesLE, BitVec.toNat_or, BitVec.toNat_shiftLeft, BitVec.toNat_setWidth]
    apply Nat.or_lt_two_pow
    · refine Nat.lt_of_le_of_lt (Nat.mod_le _ _) ?_
      rw [Nat.shiftLeft_eq, show 8 * (n + 1) = 8 * n + 8 by omega, Nat.pow_add]
      omega
    · refine Nat.lt_of_le_of_lt (Nat.mod_le _ _) (Nat.lt_of_lt_of_le h2 (Nat.pow_le_pow_right (by decide) (by omega)))

/-- A read of up to four bytes: the lowest byte least significant. -/
theorem hubBytesLE_succ (m : List Host.Cell) (a n : Nat) (h : n < 4) :
    (hubBytesLE m a (n + 1)).toNat = (hubByte m a).toNat + 256 * (hubBytesLE m (a + 1) n).toNat := by
  have h1 := hubBytesLE_bound m (a + 1) n (by omega)
  have h2 := (hubByte m a).isLt
  have hp : 2 ^ (8 * n) * 256 ≤ 2 ^ 32 := by
    have : n = 0 ∨ n = 1 ∨ n = 2 ∨ n = 3 := by omega
    rcases this with rfl | rfl | rfl | rfl <;> decide
  simp only [hubBytesLE, BitVec.toNat_or, BitVec.toNat_shiftLeft, BitVec.toNat_setWidth]
  rw [Nat.mod_eq_of_lt (by rw [Nat.shiftLeft_eq]; omega), Nat.mod_eq_of_lt (by omega),
    ← Nat.shiftLeft_add_eq_or_of_lt (by simpa using h2), Nat.shiftLeft_eq]
  omega

end Sys2Proof.Machine
end

