-- ==== Sys2Proof/Laws/PerInstr.lean ====
section
/-! SUPPORT. A law of every instruction: the long that stands for it holds its opcode and its fields, and nothing of them is
lost (spec/30_encoding.md R100, R114). -/

namespace Sys2Proof.Laws.EncodingFields

/-- The opcode and the fields of an instruction can be read back from its long. -/
def Statement (i : Instr) : Prop := opField (encode i) = i.opcode ∧ fieldsOf (encode i) = i.fields

/-- The law holds of every instruction, because one format serves them all. -/
theorem holds (i : Instr) : Statement i := ⟨opField_encode i, fieldsOf_encode i⟩

theorem rdbyte (f : Fields) : Statement (.rdbyte f) := holds _
theorem wrbyte (f : Fields) : Statement (.wrbyte f) := holds _
theorem rdword (f : Fields) : Statement (.rdword f) := holds _
theorem wrword (f : Fields) : Statement (.wrword f) := holds _
theorem rdlong (f : Fields) : Statement (.rdlong f) := holds _
theorem wrlong (f : Fields) : Statement (.wrlong f) := holds _
theorem clkset (f : Fields) : Statement (.clkset f) := holds _
theorem cogid (f : Fields) : Statement (.cogid f) := holds _
theorem coginit (f : Fields) : Statement (.coginit f) := holds _
theorem cogstop (f : Fields) : Statement (.cogstop f) := holds _
theorem locknew (f : Fields) : Statement (.locknew f) := holds _
theorem lockret (f : Fields) : Statement (.lockret f) := holds _
theorem lockset (f : Fields) : Statement (.lockset f) := holds _
theorem lockclr (f : Fields) : Statement (.lockclr f) := holds _
theorem hubop (f : Fields) : Statement (.hubop f) := holds _
theorem mul (f : Fields) : Statement (.mul f) := holds _
theorem muls (f : Fields) : Statement (.muls f) := holds _
theorem enc (f : Fields) : Statement (.enc f) := holds _
theorem ones (f : Fields) : Statement (.ones f) := holds _
theorem ror (f : Fields) : Statement (.ror f) := holds _
theorem rol (f : Fields) : Statement (.rol f) := holds _
theorem shr (f : Fields) : Statement (.shr f) := holds _
theorem shl (f : Fields) : Statement (.shl f) := holds _
theorem rcr (f : Fields) : Statement (.rcr f) := holds _
theorem rcl (f : Fields) : Statement (.rcl f) := holds _
theorem sar (f : Fields) : Statement (.sar f) := holds _
theorem rev (f : Fields) : Statement (.rev f) := holds _
theorem mins (f : Fields) : Statement (.mins f) := holds _
theorem maxs (f : Fields) : Statement (.maxs f) := holds _
theorem min (f : Fields) : Statement (.min f) := holds _
theorem max (f : Fields) : Statement (.max f) := holds _
theorem movs (f : Fields) : Statement (.movs f) := holds _
theorem movd (f : Fields) : Statement (.movd f) := holds _
theorem movi (f : Fields) : Statement (.movi f) := holds _
theorem jmpret (f : Fields) : Statement (.jmpret f) := holds _
theorem jmp (f : Fields) : Statement (.jmp f) := holds _
theorem call (f : Fields) : Statement (.call f) := holds _
theorem ret (f : Fields) : Statement (.ret f) := holds _
theorem and (f : Fields) : Statement (.and f) := holds _
theorem test (f : Fields) : Statement (.test f) := holds _
theorem andn (f : Fields) : Statement (.andn f) := holds _
theorem testn (f : Fields) : Statement (.testn f) := holds _
theorem or (f : Fields) : Statement (.or f) := holds _
theorem xor (f : Fields) : Statement (.xor f) := holds _
theorem muxc (f : Fields) : Statement (.muxc f) := holds _
theorem muxnc (f : Fields) : Statement (.muxnc f) := holds _
theorem muxz (f : Fields) : Statement (.muxz f) := holds _
theorem muxnz (f : Fields) : Statement (.muxnz f) := holds _
theorem add (f : Fields) : Statement (.add f) := holds _
theorem sub (f : Fields) : Statement (.sub f) := holds _
theorem cmp (f : Fields) : Statement (.cmp f) := holds _
theorem addabs (f : Fields) : Statement (.addabs f) := holds _
theorem subabs (f : Fields) : Statement (.subabs f) := holds _
theorem sumc (f : Fields) : Statement (.sumc f) := holds _
theorem sumnc (f : Fields) : Statement (.sumnc f) := holds _
theorem sumz (f : Fields) : Statement (.sumz f) := holds _
theorem sumnz (f : Fields) : Statement (.sumnz f) := holds _
theorem mov (f : Fields) : Statement (.mov f) := holds _
theorem neg (f : Fields) : Statement (.neg f) := holds _
theorem abs (f : Fields) : Statement (.abs f) := holds _
theorem absneg (f : Fields) : Statement (.absneg f) := holds _
theorem negc (f : Fields) : Statement (.negc f) := holds _
theorem negnc (f : Fields) : Statement (.negnc f) := holds _
theorem negz (f : Fields) : Statement (.negz f) := holds _
theorem negnz (f : Fields) : Statement (.negnz f) := holds _
theorem cmps (f : Fields) : Statement (.cmps f) := holds _
theorem cmpsx (f : Fields) : Statement (.cmpsx f) := holds _
theorem addx (f : Fields) : Statement (.addx f) := holds _
theorem subx (f : Fields) : Statement (.subx f) := holds _
theorem cmpx (f : Fields) : Statement (.cmpx f) := holds _
theorem adds (f : Fields) : Statement (.adds f) := holds _
theorem subs (f : Fields) : Statement (.subs f) := holds _
theorem addsx (f : Fields) : Statement (.addsx f) := holds _
theorem subsx (f : Fields) : Statement (.subsx f) := holds _
theorem cmpsub (f : Fields) : Statement (.cmpsub f) := holds _
theorem djnz (f : Fields) : Statement (.djnz f) := holds _
theorem tjnz (f : Fields) : Statement (.tjnz f) := holds _
theorem tjz (f : Fields) : Statement (.tjz f) := holds _
theorem waitpeq (f : Fields) : Statement (.waitpeq f) := holds _
theorem waitpne (f : Fields) : Statement (.waitpne f) := holds _
theorem waitcnt (f : Fields) : Statement (.waitcnt f) := holds _
theorem waitvid (f : Fields) : Statement (.waitvid f) := holds _
theorem nop : Statement .nop := holds _

end Sys2Proof.Laws.EncodingFields
end

