-- ==== Sys2Proof/Laws/Peripherals.lean ====
section
/-! SUPPORT. What the counters' tick and the generator's clock can do: what they hold and what they leave alone
(spec/48_counter.md R420 to R427, spec/49_video_pll_pins.md R461 to R467). -/

namespace Sys2Proof.Machine

/-! ## Counters -/

variable (g : Counter) (pins : Pins) (pll : Bool)

@[simp] theorem Counter.clock_ctr : (g.clock pins pll).ctr = g.ctr := rfl
@[simp] theorem Counter.clock_frq : (g.clock pins pll).frq = g.frq := rfl

/-- What a tick returns is the contribution of its outputs at the pins of its control register. -/
theorem Counter.clock_held :
    (g.clock pins pll).held = ctrContribution g.ctr (g.clock pins pll).outA (g.clock pins pll).outB := rfl

/-- A tick adds the frequency to the phase or leaves the phase. -/
theorem Counter.clock_phs : (g.clock pins pll).phs = g.phs ∨ (g.clock pins pll).phs = g.phs + g.frq := by
  show (if _ then _ else _) = _ ∨ (if _ then _ else _) = _
  split
  · right; simp [BitVec.ofNat_add]
  · left; rfl

/-! ## Waveform generator -/

/-- Where VSCL has not been written since the frame reload, the next pixel has the length that VSCL gives, on either reading of
the spec (R464, R552, assumption 20). -/
theorem Video.nextPixelLen_of_kept {g : Video} (fromVscl : Bool) (h : g.pixelLen = pixelClocks g.vscl) :
    g.nextPixelLen fromVscl = pixelClocks g.vscl := by
  unfold Video.nextPixelLen; rw [h, ite_self]

/-- What a video-clock edge leaves alone. -/
theorem Video.edge_kept (g : Video) (r : Reload) :
    (g.edge r).vcfg = g.vcfg ∧ (g.edge r).vscl = g.vscl ∧ (g.edge r).pllAttached = g.pllAttached ∧
      (g.edge r).held = g.held := by
  unfold Video.edge
  simp only
  split
  · split <;> exact ⟨rfl, rfl, rfl, rfl⟩
  · split <;> exact ⟨rfl, rfl, rfl, rfl⟩

theorem Video.edges_kept (g : Video) (reload : Nat → Reload) (n : Nat) :
    (g.edges reload n).vcfg = g.vcfg ∧ (g.edges reload n).vscl = g.vscl ∧
      (g.edges reload n).pllAttached = g.pllAttached ∧ (g.edges reload n).held = g.held := by
  induction n with
  | zero => exact ⟨rfl, rfl, rfl, rfl⟩
  | succ n ih =>
    have e := Video.edge_kept (g.edges reload n) (reload n)
    exact ⟨e.1.trans ih.1, e.2.1.trans ih.2.1, e.2.2.1.trans ih.2.2.1, e.2.2.2.trans ih.2.2.2⟩

/-- With no edge nothing changes (R463). -/
@[simp] theorem Video.clock_zero (g : Video) (reload : Nat → Reload) (tick : Nat) : g.clock reload tick 0 = g := rfl

/-- With an edge the contribution is recomputed after the edges (R463, R467). -/
theorem Video.clock_succ (g : Video) (reload : Nat → Reload) (tick n : Nat) :
    g.clock reload tick (n + 1) =
      { g.edges reload (n + 1) with held := (g.edges reload (n + 1)).contribution tick } := rfl

theorem Video.clock_kept (g : Video) (reload : Nat → Reload) (tick n : Nat) :
    (g.clock reload tick n).vcfg = g.vcfg ∧ (g.clock reload tick n).vscl = g.vscl ∧
      (g.clock reload tick n).pllAttached = g.pllAttached := by
  cases n with
  | zero => exact ⟨rfl, rfl, rfl⟩
  | succ n => have e := g.edges_kept reload (n + 1); exact ⟨e.1, e.2.1, e.2.2.1⟩

/-- A disabled generator contributes nothing (R462, R467). -/
theorem Video.contribution_disabled {g : Video} (tick : Nat) (h : vmode g.vcfg = 0) : g.contribution tick = 0 := by
  unfold Video.contribution Video.outByte; rw [h]; simp

/-- A disabled generator that holds no contribution holds none after its clock (R462). -/
theorem Video.clock_disabled {g : Video} (reload : Nat → Reload) (tick n : Nat) (h : vmode g.vcfg = 0) (hh : g.held = 0) :
    (g.clock reload tick n).held = 0 := by
  cases n with
  | zero => exact hh
  | succ n => exact Video.contribution_disabled tick ((congrArg vmode (g.edges_kept reload (n + 1)).1).trans h)

/-! ## The peripheral part of a unit's step -/

/-- What the peripherals leave of a unit: everything but the phases, outputs and taps of the counters and the shifters of the
generator. -/
theorem CogUnit.clockPeripherals_kept (u : CogUnit) (k : UnitIx) (pins : Pins) (tick : Nat) :
    ∃ a b v, u.clockPeripherals k pins tick = { u with ctrA := a, ctrB := b, vid := v } ∧
      (a.ctr = u.ctrA.ctr ∧ a.frq = u.ctrA.frq ∧ (a.phs = u.ctrA.phs ∨ a.phs = u.ctrA.phs + u.ctrA.frq)) ∧
      (b.ctr = u.ctrB.ctr ∧ b.frq = u.ctrB.frq ∧ (b.phs = u.ctrB.phs ∨ b.phs = u.ctrB.phs + u.ctrB.frq)) ∧
      (v.vcfg = u.vid.vcfg ∧ v.vscl = u.vid.vscl ∧ v.pllAttached = u.vid.pllAttached) :=
  ⟨_, _, _, rfl, ⟨rfl, rfl, Counter.clock_phs _ _ _⟩, ⟨rfl, rfl, Counter.clock_phs _ _ _⟩, Video.clock_kept _ _ _ _⟩

end Sys2Proof.Machine
end

