-- ==== Sys2Proof/Laws/Results.lean ====
section
/-! SUPPORT. What the shared flag and result operations compute: the exact sums narrowed to 32 bits, the parity, the filled
bits, the replaced field. -/

namespace Sys2Proof.Machine

/-! ## Exact sums and differences, narrowed (R300, R301, R302) -/

theorem ofInt_toNat_add (x y : Long) : BitVec.ofInt 32 ((x.toNat : Int) + y.toNat) = x + y := by
  apply BitVec.eq_of_toNat_eq; simp [BitVec.toNat_ofInt]; omega

theorem ofInt_toNat_sub (x y : Long) : BitVec.ofInt 32 ((x.toNat : Int) - y.toNat) = x - y := by
  apply BitVec.eq_of_toNat_eq; simp [BitVec.toNat_ofInt, BitVec.toNat_sub]; omega

theorem ofInt_toInt_add (x y : Long) : BitVec.ofInt 32 (x.toInt + y.toInt) = x + y := by
  rw [BitVec.ofInt_add, BitVec.ofInt_toInt, BitVec.ofInt_toInt]

theorem ofInt_toInt_sub (x y : Long) : BitVec.ofInt 32 (x.toInt - y.toInt) = x - y := by
  rw [Int.sub_eq_add_neg, BitVec.ofInt_add, BitVec.ofInt_neg, BitVec.ofInt_toInt, BitVec.ofInt_toInt, BitVec.sub_eq_add_neg]

/-- The carry of an unsigned sum as a number, and as a long. -/
theorem carryIn_eq (x : Inputs) : carryIn x = ((if x.c then 1 else 0 : Long).toNat : Int) := by
  unfold carryIn; cases x.c <;> rfl

theorem ofInt_carryIn (x : Inputs) : BitVec.ofInt 32 (carryIn x) = if x.c then 1 else 0 := by
  unfold carryIn; cases x.c <;> rfl

theorem ofInt_neg_carryIn (x : Inputs) : BitVec.ofInt 32 (-(carryIn x)) = -(if x.c then 1 else 0) := by
  unfold carryIn; cases x.c <;> rfl

/-- The magnitude of a long; that of 0x80000000 is itself. -/
theorem absLong_toNat (v : Long) : (absLong v).toNat = v.toInt.natAbs := by
  have h := v.isLt
  unfold absLong negate
  split <;> rename_i hm <;> simp [BitVec.msb_eq_decide, BitVec.toInt_eq_toNat_cond] at * <;> omega

/-! ## Bits (R12, R265, R273, R282) -/

theorem parity_eq_oddOnes (v : Long) : parity v = oddOnes v := by
  unfold parity oddOnes
  have key : ∀ (l : List Nat) (a : Bool), l.foldl (fun p i => p ^^ v.getLsbD i) a =
      (a ^^ decide ((l.filter v.getLsbD).length % 2 = 1)) := by
    intro l
    induction l with
    | nil => simp
    | cons i l ih =>
      intro a
      rw [List.foldl_cons, ih]
      by_cases h : v.getLsbD i
      · rw [List.filter_cons_of_pos h, h]
        simp only [List.length_cons]
        by_cases h2 : (l.filter v.getLsbD).length % 2 = 1
        · have : ((l.filter v.getLsbD).length + 1) % 2 ≠ 1 := by omega
          simp [h2, this]
        · have : ((l.filter v.getLsbD).length + 1) % 2 = 1 := by omega
          simp [h2, this]
      · rw [List.filter_cons_of_neg h]
        simp at h
        simp [h]
  rw [key]
  simp

theorem fill_bit (b : Bool) (i : Nat) : (fill b).getLsbD i = (decide (i < 32) && b) := by
  unfold fill
  cases b
  · simp
  · rw [if_pos rfl, BitVec.getLsbD_allOnes]; simp

theorem replaceField_bit (x : Inputs) (lo j : Nat) (h : lo = 0 ∨ lo = 9 ∨ lo = 23) (hj : j < 32) :
    (replaceField x lo).getLsbD j = if lo ≤ j ∧ j < lo + 9 then x.s.getLsbD (j - lo) else x.d.getLsbD j := by
  have mask : (0x1FF#32).getLsbD = fun i => decide (i < 9) := by
    funext i
    by_cases hi : i < 32
    · interval_cases i <;> rfl
    · rw [BitVec.getLsbD_of_ge _ _ (by omega)]; simp; omega
  simp only [replaceField, Inputs.field, BitVec.getLsbD_or, BitVec.getLsbD_and, BitVec.getLsbD_not, BitVec.getLsbD_shiftLeft,
    mask, BitVec.getLsbD_setWidth, hj]
  rcases h with rfl | rfl | rfl <;>
    (by_cases h1 : j < 9 <;> by_cases h2 : j - 9 < 9 <;> by_cases h3 : j - 23 < 9 <;> simp [h1, h2, h3] <;> grind)

end Sys2Proof.Machine
end

