-- ==== Sys2Proof/Laws/Tick.lean ====
section
/-! SUPPORT. What a tick can do: the steps of empty and of present slots, the tick of a unit that is alone, what no part of a
tick but its start changes, and the bits of the registered pins (spec/47_hub_arbiter.md R380, spec/49_video_pll_pins.md R482). -/

namespace Sys2Proof.Machine

/-! ## The ordinary steps -/

theorem stepUnit_vacant {k : UnitIx} {s : State} (h : s.units[k].active = false) : stepUnit k s = .next s := by
  unfold stepUnit; rw [h]; simp

theorem stepUnit_present {k : UnitIx} {s : State} (h : s.units[k].active = true) :
    stepUnit k s = andThen (progress { s with cur := k }) fun t => .next (finishUnit t) := by
  unfold stepUnit; rw [h]; rfl

theorem stepUnits_vacant (l : List UnitIx) (s : State) (h : ∀ j ∈ l, s.units[j].active = false) : stepUnits l s = .next s := by
  induction l with
  | nil => rfl
  | cons k l ih =>
    simp only [stepUnits]
    rw [stepUnit_vacant (h k (by simp))]
    exact ih fun j hj => h j (by simp [hj])

theorem stepUnits_append (l1 l2 : List UnitIx) (s : State) :
    stepUnits (l1 ++ l2) s = andThen (stepUnits l1 s) (stepUnits l2) := by
  induction l1 generalizing s with
  | nil => rfl
  | cons k l ih =>
    simp only [List.cons_append, stepUnits]
    cases stepUnit k s with
    | next t => exact ih t
    | fault r => rfl
    | refused r => rfl

theorem progress_units {s t : State} (h : progress s = .next t) (j : UnitIx) (hj : j ≠ s.cur) : t.units[j] = s.units[j] := by
  rw [progress_frame h]; exact State.units_setUnit_of_ne s _ j (Ne.symm hj)

theorem progress_cur {s t : State} (h : progress s = .next t) : t.cur = s.cur := by rw [progress_frame h]; rfl

theorem finishUnit_units {t : State} (j : UnitIx) (hj : j ≠ t.cur) : (finishUnit t).units[j] = t.units[j] := by
  unfold finishUnit; exact State.units_setUnit_of_ne t _ j (Ne.symm hj)

/-- The list of the slots around one of them. -/
theorem slots_split (k : UnitIx) :
    ∃ l1 l2, ([0, 1, 2, 3, 4, 5, 6, 7] : List UnitIx) = l1 ++ k :: l2 ∧ k ∉ l1 ∧ k ∉ l2 := by
  refine ⟨([0, 1, 2, 3, 4, 5, 6, 7] : List UnitIx).take k.val, ([0, 1, 2, 3, 4, 5, 6, 7] : List UnitIx).drop (k.val + 1), ?_⟩
  revert k; decide

/-- Where one slot alone holds a unit, the ordinary steps are that unit's step. -/
theorem stepUnits_alone {k : UnitIx} {s : State} (h : s.alone k) :
    stepUnits [0, 1, 2, 3, 4, 5, 6, 7] s = andThen (progress { s with cur := k }) fun t => .next (finishUnit t) := by
  obtain ⟨l1, l2, e, h1, h2⟩ := slots_split k
  rw [e, stepUnits_append, stepUnits_vacant l1 s (fun j hj => h.2 j (by rintro rfl; exact h1 hj))]
  simp only [andThen, stepUnits]
  rw [stepUnit_present h.1]
  cases hp : progress { s with cur := k } with
  | fault r => rfl
  | refused r => rfl
  | next t =>
    simp only [andThen]
    refine stepUnits_vacant l2 _ fun j hj => ?_
    have hne : j ≠ k := by rintro rfl; exact h2 hj
    have hc := progress_cur hp
    rw [finishUnit_units j (by rw [hc]; exact hne), progress_units hp j hne]
    exact h.2 j hne

/-- Where one slot alone holds a unit that does not use the hub window, a tick is that unit's step. -/
theorem step_alone {k : UnitIx} {s : State} (h : s.alone k)
    (hh : hubHook { beginTick s with cur := k } = .next { beginTick s with cur := k }) :
    step s = andThen (progress { beginTick s with cur := k }) fun t => .next (endTick (finishUnit t)) := by
  have hb : (beginTick s).alone k := h
  have hg : hubGrant (beginTick s) = .next (beginTick s) ∨ hubGrant (beginTick s) = .next { beginTick s with cur := k } := by
    unfold hubGrant
    split
    · rename_i g _
      by_cases e : g = k
      · subst e; right; rw [if_pos hb.1]; exact hh
      · left; rw [if_neg]; rw [hb.2 g e]; decide
    · left; rfl
  have fin : ∀ g : State, g.alone k → ({ g with cur := k } : State) = { beginTick s with cur := k } →
      andThen (stepUnits [0, 1, 2, 3, 4, 5, 6, 7] g) (fun s => Host.Outcome.next (endTick s)) =
        andThen (progress { beginTick s with cur := k }) fun t => .next (endTick (finishUnit t)) := by
    intro g hga e
    rw [stepUnits_alone hga, e]
    cases progress { beginTick s with cur := k } <;> rfl
  unfold step hubStep
  rcases hg with e | e
  · rw [e]; exact fin _ hb rfl
  · rw [e]; exact fin { beginTick s with cur := k } hb rfl

theorem stepN_succ (n : Nat) {s t : State} (h : step s = .next t) : stepN (n + 1) s = stepN n t := by
  show andThen (step s) (stepN n) = _; rw [h]; rfl

/-! ## What only the start of a tick changes -/

theorem stepUnit_clock {k : UnitIx} {s t : State} (h : stepUnit k s = .next t) :
    t.counter = s.counter ∧ t.pinIn = s.pinIn ∧ t.tick = s.tick := by
  unfold stepUnit at h
  split at h
  · cases hp : progress { s with cur := k } with
    | fault r => rw [hp] at h; cases h
    | refused r => rw [hp] at h; cases h
    | next q => rw [hp] at h; cases h; rw [progress_frame hp]; exact ⟨rfl, rfl, rfl⟩
  · cases h; exact ⟨rfl, rfl, rfl⟩

theorem stepUnits_clock (l : List UnitIx) {s t : State} (h : stepUnits l s = .next t) :
    t.counter = s.counter ∧ t.pinIn = s.pinIn ∧ t.tick = s.tick := by
  induction l generalizing s with
  | nil => cases h; exact ⟨rfl, rfl, rfl⟩
  | cons k l ih =>
    simp only [stepUnits] at h
    cases hp : stepUnit k s with
    | fault r => rw [hp] at h; cases h
    | refused r => rw [hp] at h; cases h
    | next q =>
      rw [hp] at h
      have a := stepUnit_clock hp
      have b := ih h
      exact ⟨b.1.trans a.1, b.2.1.trans a.2.1, b.2.2.trans a.2.2⟩

theorem hubHook_clock {s t : State} (h : hubHook s = .next t) :
    t.counter = s.counter ∧ t.pinIn = s.pinIn ∧ t.tick = s.tick := by
  unfold hubHook at h
  split at h
  · unfold loadLong at h
    simp only at h
    split at h
    · unfold boot at h; split at h <;> cases h; exact ⟨rfl, rfl, rfl⟩
    · cases h; exact ⟨rfl, rfl, rfl⟩
  · cases h; exact ⟨rfl, rfl, rfl⟩
  · cases h; exact ⟨rfl, rfl, rfl⟩
  · cases h; exact ⟨rfl, rfl, rfl⟩
  · cases h
    unfold hubTransact
    split <;> first | exact ⟨rfl, rfl, rfl⟩ | skip
    · unfold hubCoginit; simp only; split
      · split <;> exact ⟨rfl, rfl, rfl⟩
      · split <;> exact ⟨rfl, rfl, rfl⟩
    · unfold hubCogstop; simp only; split <;> exact ⟨rfl, rfl, rfl⟩
    · unfold hubLocknew; split <;> exact ⟨rfl, rfl, rfl⟩
  · cases h; exact ⟨rfl, rfl, rfl⟩

theorem hubGrant_clock {s t : State} (h : hubGrant s = .next t) :
    t.counter = s.counter ∧ t.pinIn = s.pinIn ∧ t.tick = s.tick := by
  unfold hubGrant at h
  split at h
  · split at h
    · have := hubHook_clock h
      exact this
    · cases h; exact ⟨rfl, rfl, rfl⟩
  · cases h; exact ⟨rfl, rfl, rfl⟩

/-! ## The registered pins -/

theorem foldl_or_bit (l : List CogUnit) (g : CogUnit → Pins) (acc : Pins) (n : Nat) :
    (l.foldl (fun acc u => if u.active then acc ||| g u else acc) acc).getLsbD n = true ↔
      acc.getLsbD n = true ∨ ∃ u ∈ l, u.active = true ∧ (g u).getLsbD n = true := by
  induction l generalizing acc with
  | nil => simp
  | cons u l ih =>
    simp only [List.foldl_cons, ih]
    cases ha : u.active <;> simp [ha, or_assoc]

/-- A bit of the union of the present units' contributions. -/
theorem unionUnits_bit (s : State) (g : CogUnit → Pins) (n : Nat) :
    (s.unionUnits g).getLsbD n = true ↔ ∃ k : UnitIx, s.units[k].active = true ∧ (g s.units[k]).getLsbD n = true := by
  unfold State.unionUnits
  rw [foldl_or_bit]
  simp only [Vector.mem_toList_iff, Vector.mem_iff_getElem]
  constructor
  · rintro (h | ⟨u, ⟨i, hi, rfl⟩, h⟩)
    · simp at h
    · exact ⟨⟨i, hi⟩, h⟩
  · rintro ⟨k, h⟩; exact .inr ⟨_, ⟨k.val, k.isLt, rfl⟩, h⟩

end Sys2Proof.Machine
end

