-- ==== Sys2Proof/Tests/Slice0.lean ====
section
/-! SUPPORT. The model's own tests: the well-formedness checks, the decoding of words written out from the spec's encodings,
the worked examples of the spec's rules, and a witness for every statement that has hypotheses. -/

namespace Sys2Proof.Tests

open Sys2Proof Sys2Proof.Machine

set_option Elab.async false

/-! ## Small states -/

/-- Fields with condition always, destination 0x010 and source cell 0x011. -/
def fields (wz wc wr : Bool) : Fields := { wz := wz, wc := wc, wr := wr, cond := 0b1111, d := 0x010, src := .reg 0x011 }

/-- Two cells. -/
def twoCells (d s : Long) : Cells 32 := Cells.put (Cells.put [] 0x010 d) 0x011 s

/-- The reset state with another unit 0. -/
def withUnit (u : CogUnit) : State := State.reset.setSlot 0 u

/-- Unit 0 at the execute tick of `i` at address 5, with the cells 0x010 and 0x011 and the flags given. -/
def atExecute (i : Instr) (d s : Long) (c z : Bool) : State :=
  withUnit { CogUnit.create .native 0 0 with
    mem := twoCells d s, pc := 5, c := c, z := z,
    pipe := { Pipe.created with runState := .executingInstruction, ir := encode i } }

/-- The next state of an outcome; the reset state where there is none. -/
def after (o : Out) : State :=
  match o with
  | .next s => s
  | .fault _ => State.reset
  | .refused _ => State.reset

/-- What the execute tick of an instruction loads for write-back, on `D`, `S` and the flags: result, C, Z. -/
def offered (i : Fields → Instr) (d s : Long) (c z : Bool) : Long × Bool × Bool :=
  let f := fields true true true
  let wb := (after (exec (i f) (atExecute (i f) d s c z))).unit.pipe.wb
  (wb.val, wb.c, wb.z)

/-- The same without C, for the instructions that leave it open: result and Z. -/
def offeredRZ (i : Fields → Instr) (d s : Long) : Long × Bool :=
  let f := fields true true true
  let wb := (after (exec (i f) (atExecute (i f) d s false false))).unit.pipe.wb
  (wb.val, wb.z)

/-- Where the execute tick sends the unit, and for how many ticks: the next address and the countdown. -/
def sent (i : Fields → Instr) (d s : Long) : CogAddr × BitVec 32 :=
  let f := fields true true true
  let p := (after (exec (i f) (atExecute (i f) d s false false))).unit.pipe
  (p.pcNext, p.stateArg)

/-- The state two ticks of progress after the execute tick: blocked for the hub window. -/
def blocked (i : Instr) (d s : Long) : State := after (progressN 2 (after (exec i (atExecute i d s false false))))

/-! ## Decoding -/

/-- RDBYTE, WRBYTE, RDWORD, WRWORD, RDLONG, WRLONG, CLKSET, COGID, COGINIT, COGSTOP: words written out from the encodings of the opcode table. -/
theorem test_decode_hub_1 :
    decode 0b000000_1010_1000_000110101_001011100 =
      .rdbyte ⟨true, false, true, 0b1000, 0b000110101, .reg 0b001011100⟩ ∧
    decode 0b000000_0100_1101_001011010_010110111 =
      .wrbyte ⟨false, true, false, 0b1101, 0b001011010, .reg 0b010110111⟩ ∧
    decode 0b000001_1111_0010_001111111_100010010 =
      .rdword ⟨true, true, true, 0b0010, 0b001111111, .imm 0b100010010⟩ ∧
    decode 0b000001_0001_0111_010100100_101101101 =
      .wrword ⟨false, false, false, 0b0111, 0b010100100, .imm 0b101101101⟩ ∧
    decode 0b000010_1011_1100_011001001_111001000 =
      .rdlong ⟨true, false, true, 0b1100, 0b011001001, .imm 0b111001000⟩ ∧
    decode 0b000010_0100_0001_011101110_000100011 =
      .wrlong ⟨false, true, false, 0b0001, 0b011101110, .reg 0b000100011⟩ ∧
    decode 0b000011_1101_0110_100010011_000000000 =
      .clkset ⟨true, true, false, 0b0110, 0b100010011, .imm 0b000000000⟩ ∧
    decode 0b000011_0011_1011_100111000_000000001 =
      .cogid ⟨false, false, true, 0b1011, 0b100111000, .imm 0b000000001⟩ ∧
    decode 0b000011_1011_0000_101011101_000000010 =
      .coginit ⟨true, false, true, 0b0000, 0b101011101, .imm 0b000000010⟩ ∧
    decode 0b000011_0111_0101_110000010_000000011 =
      .cogstop ⟨false, true, true, 0b0101, 0b110000010, .imm 0b000000011⟩ := by decide

/-- LOCKNEW, LOCKRET, LOCKSET, LOCKCLR, HUBOP: words written out from the encodings of the opcode table. -/
theorem test_decode_hub_2 :
    decode 0b000011_1111_1010_110100111_000000100 =
      .locknew ⟨true, true, true, 0b1010, 0b110100111, .imm 0b000000100⟩ ∧
    decode 0b000011_0001_1111_111001100_000000101 =
      .lockret ⟨false, false, false, 0b1111, 0b111001100, .imm 0b000000101⟩ ∧
    decode 0b000011_1001_0100_111110001_000000110 =
      .lockset ⟨true, false, false, 0b0100, 0b111110001, .imm 0b000000110⟩ ∧
    decode 0b000011_0101_1001_000010110_000000111 =
      .lockclr ⟨false, true, false, 0b1001, 0b000010110, .imm 0b000000111⟩ ∧
    decode 0b000011_1101_1110_000111011_101010110 =
      .hubop ⟨true, true, false, 0b1110, 0b000111011, .imm 0b101010110⟩ := by decide

/-- MUL, MULS, ENC, ONES: words written out from the encodings of the opcode table. -/
theorem test_decode_reserved :
    decode 0b000100_0011_0011_001100000_110110001 =
      .mul ⟨false, false, true, 0b0011, 0b001100000, .imm 0b110110001⟩ ∧
    decode 0b000101_1011_1000_010000101_000001100 =
      .muls ⟨true, false, true, 0b1000, 0b010000101, .imm 0b000001100⟩ ∧
    decode 0b000110_0110_1101_010101010_001100111 =
      .enc ⟨false, true, true, 0b1101, 0b010101010, .reg 0b001100111⟩ ∧
    decode 0b000111_1110_0010_011001111_011000010 =
      .ones ⟨true, true, true, 0b0010, 0b011001111, .reg 0b011000010⟩ := by decide

/-- ROR, ROL, SHR, SHL, RCR, RCL, SAR, REV, MINS, MAXS: words written out from the encodings of the opcode table. -/
theorem test_decode_plain_1 :
    decode 0b001000_0000_0111_011110100_100011101 =
      .ror ⟨false, false, false, 0b0111, 0b011110100, .reg 0b100011101⟩ ∧
    decode 0b001001_1001_1100_100011001_101111000 =
      .rol ⟨true, false, false, 0b1100, 0b100011001, .imm 0b101111000⟩ ∧
    decode 0b001010_0101_0001_100111110_111010011 =
      .shr ⟨false, true, false, 0b0001, 0b100111110, .imm 0b111010011⟩ ∧
    decode 0b001011_1101_0110_101100011_000101110 =
      .shl ⟨true, true, false, 0b0110, 0b101100011, .imm 0b000101110⟩ ∧
    decode 0b001100_0010_1011_110001000_010001001 =
      .rcr ⟨false, false, true, 0b1011, 0b110001000, .reg 0b010001001⟩ ∧
    decode 0b001101_1010_0000_110101101_011100100 =
      .rcl ⟨true, false, true, 0b0000, 0b110101101, .reg 0b011100100⟩ ∧
    decode 0b001110_0110_0101_111010010_100111111 =
      .sar ⟨false, true, true, 0b0101, 0b111010010, .reg 0b100111111⟩ ∧
    decode 0b001111_1111_1010_111110111_110011010 =
      .rev ⟨true, true, true, 0b1010, 0b111110111, .imm 0b110011010⟩ ∧
    decode 0b010000_0001_1111_000011100_111110101 =
      .mins ⟨false, false, false, 0b1111, 0b000011100, .imm 0b111110101⟩ ∧
    decode 0b010001_1001_0100_001000001_001010000 =
      .maxs ⟨true, false, false, 0b0100, 0b001000001, .imm 0b001010000⟩ := by decide

/-- MIN, MAX, MOVS, MOVD, MOVI, JMPRET, JMP, CALL, RET, AND: words written out from the encodings of the opcode table. -/
theorem test_decode_plain_2 :
    decode 0b010010_0100_1001_001100110_010101011 =
      .min ⟨false, true, false, 0b1001, 0b001100110, .reg 0b010101011⟩ ∧
    decode 0b010011_1100_1110_010001011_100000110 =
      .max ⟨true, true, false, 0b1110, 0b010001011, .reg 0b100000110⟩ ∧
    decode 0b010100_0010_0011_010110000_101100001 =
      .movs ⟨false, false, true, 0b0011, 0b010110000, .reg 0b101100001⟩ ∧
    decode 0b010101_1011_1000_011010101_110111100 =
      .movd ⟨true, false, true, 0b1000, 0b011010101, .imm 0b110111100⟩ ∧
    decode 0b010110_0111_1101_011111010_000010111 =
      .movi ⟨false, true, true, 0b1101, 0b011111010, .imm 0b000010111⟩ ∧
    decode 0b010111_1110_0010_100011111_001110010 =
      .jmpret ⟨true, true, true, 0b0010, 0b100011111, .reg 0b001110010⟩ ∧
    decode 0b010111_0000_0111_101000100_011001101 =
      .jmp ⟨false, false, false, 0b0111, 0b101000100, .reg 0b011001101⟩ ∧
    decode 0b010111_1011_1100_101101001_100101000 =
      .call ⟨true, false, true, 0b1100, 0b101101001, .imm 0b100101000⟩ ∧
    decode 0b010111_0101_0001_000000000_000000000 =
      .ret ⟨false, true, false, 0b0001, 0b000000000, .imm 0b000000000⟩ ∧
    decode 0b011000_1111_0110_110110011_111011110 =
      .and ⟨true, true, true, 0b0110, 0b110110011, .imm 0b111011110⟩ := by decide

/-- TEST, ANDN, TESTN, OR, XOR, MUXC, MUXNC, MUXZ, MUXNZ, ADD: words written out from the encodings of the opcode table. -/
theorem test_decode_plain_3 :
    decode 0b011000_0001_1011_111011000_000111001 =
      .test ⟨false, false, false, 0b1011, 0b111011000, .imm 0b000111001⟩ ∧
    decode 0b011001_1011_0000_111111101_010010100 =
      .andn ⟨true, false, true, 0b0000, 0b111111101, .imm 0b010010100⟩ ∧
    decode 0b011001_0100_0101_000100010_011101111 =
      .testn ⟨false, true, false, 0b0101, 0b000100010, .reg 0b011101111⟩ ∧
    decode 0b011010_1110_1010_001000111_101001010 =
      .or ⟨true, true, true, 0b1010, 0b001000111, .reg 0b101001010⟩ ∧
    decode 0b011011_0000_1111_001101100_110100101 =
      .xor ⟨false, false, false, 0b1111, 0b001101100, .reg 0b110100101⟩ ∧
    decode 0b011100_1001_0100_010010001_000000000 =
      .muxc ⟨true, false, false, 0b0100, 0b010010001, .imm 0b000000000⟩ ∧
    decode 0b011101_0101_1001_010110110_001011011 =
      .muxnc ⟨false, true, false, 0b1001, 0b010110110, .imm 0b001011011⟩ ∧
    decode 0b011110_1101_1110_011011011_010110110 =
      .muxz ⟨true, true, false, 0b1110, 0b011011011, .imm 0b010110110⟩ ∧
    decode 0b011111_0010_0011_100000000_100010001 =
      .muxnz ⟨false, false, true, 0b0011, 0b100000000, .reg 0b100010001⟩ ∧
    decode 0b100000_1010_1000_100100101_101101100 =
      .add ⟨true, false, true, 0b1000, 0b100100101, .reg 0b101101100⟩ := by decide

/-- SUB, CMP, ADDABS, SUBABS, SUMC, SUMNC, SUMZ, SUMNZ, MOV, NEG: words written out from the encodings of the opcode table. -/
theorem test_decode_plain_4 :
    decode 0b100001_0110_1101_101001010_111000111 =
      .sub ⟨false, true, true, 0b1101, 0b101001010, .reg 0b111000111⟩ ∧
    decode 0b100001_1101_0010_101101111_000100010 =
      .cmp ⟨true, true, false, 0b0010, 0b101101111, .imm 0b000100010⟩ ∧
    decode 0b100010_0001_0111_110010100_001111101 =
      .addabs ⟨false, false, false, 0b0111, 0b110010100, .imm 0b001111101⟩ ∧
    decode 0b100011_1001_1100_110111001_011011000 =
      .subabs ⟨true, false, false, 0b1100, 0b110111001, .imm 0b011011000⟩ ∧
    decode 0b100100_0100_0001_111011110_100110011 =
      .sumc ⟨false, true, false, 0b0001, 0b111011110, .reg 0b100110011⟩ ∧
    decode 0b100101_1100_0110_000000011_110001110 =
      .sumnc ⟨true, true, false, 0b0110, 0b000000011, .reg 0b110001110⟩ ∧
    decode 0b100110_0010_1011_000101000_111101001 =
      .sumz ⟨false, false, true, 0b1011, 0b000101000, .reg 0b111101001⟩ ∧
    decode 0b100111_1011_0000_001001101_001000100 =
      .sumnz ⟨true, false, true, 0b0000, 0b001001101, .imm 0b001000100⟩ ∧
    decode 0b101000_0111_0101_001110010_010011111 =
      .mov ⟨false, true, true, 0b0101, 0b001110010, .imm 0b010011111⟩ ∧
    decode 0b101001_1111_1010_010010111_011111010 =
      .neg ⟨true, true, true, 0b1010, 0b010010111, .imm 0b011111010⟩ := by decide

/-- ABS, ABSNEG, NEGC, NEGNC, NEGZ, NEGNZ, CMPS, CMPSX, ADDX, SUBX: words written out from the encodings of the opcode table. -/
theorem test_decode_plain_5 :
    decode 0b101010_0000_1111_010111100_101010101 =
      .abs ⟨false, false, false, 0b1111, 0b010111100, .reg 0b101010101⟩ ∧
    decode 0b101011_1000_0100_011100001_110110000 =
      .absneg ⟨true, false, false, 0b0100, 0b011100001, .reg 0b110110000⟩ ∧
    decode 0b101100_0100_1001_100000110_000001011 =
      .negc ⟨false, true, false, 0b1001, 0b100000110, .reg 0b000001011⟩ ∧
    decode 0b101101_1101_1110_100101011_001100110 =
      .negnc ⟨true, true, false, 0b1110, 0b100101011, .imm 0b001100110⟩ ∧
    decode 0b101110_0011_0011_101010000_011000001 =
      .negz ⟨false, false, true, 0b0011, 0b101010000, .imm 0b011000001⟩ ∧
    decode 0b101111_1011_1000_101110101_100011100 =
      .negnz ⟨true, false, true, 0b1000, 0b101110101, .imm 0b100011100⟩ ∧
    decode 0b110000_0110_1101_110011010_101110111 =
      .cmps ⟨false, true, true, 0b1101, 0b110011010, .reg 0b101110111⟩ ∧
    decode 0b110001_1110_0010_110111111_111010010 =
      .cmpsx ⟨true, true, true, 0b0010, 0b110111111, .reg 0b111010010⟩ ∧
    decode 0b110010_0000_0111_111100100_000101101 =
      .addx ⟨false, false, false, 0b0111, 0b111100100, .reg 0b000101101⟩ ∧
    decode 0b110011_1011_1100_000001001_010001000 =
      .subx ⟨true, false, true, 0b1100, 0b000001001, .imm 0b010001000⟩ := by decide

/-- CMPX, ADDS, SUBS, ADDSX, SUBSX, CMPSUB: words written out from the encodings of the opcode table. -/
theorem test_decode_plain_6 :
    decode 0b110011_0101_0001_000101110_011100011 =
      .cmpx ⟨false, true, false, 0b0001, 0b000101110, .imm 0b011100011⟩ ∧
    decode 0b110100_1101_0110_001010011_100111110 =
      .adds ⟨true, true, false, 0b0110, 0b001010011, .imm 0b100111110⟩ ∧
    decode 0b110101_0010_1011_001111000_110011001 =
      .subs ⟨false, false, true, 0b1011, 0b001111000, .reg 0b110011001⟩ ∧
    decode 0b110110_1010_0000_010011101_111110100 =
      .addsx ⟨true, false, true, 0b0000, 0b010011101, .reg 0b111110100⟩ ∧
    decode 0b110111_0110_0101_011000010_001001111 =
      .subsx ⟨false, true, true, 0b0101, 0b011000010, .reg 0b001001111⟩ ∧
    decode 0b111000_1111_1010_011100111_010101010 =
      .cmpsub ⟨true, true, true, 0b1010, 0b011100111, .imm 0b010101010⟩ := by decide

/-- DJNZ, TJNZ, TJZ: words written out from the encodings of the opcode table. -/
theorem test_decode_plain_or_jump_not_taken :
    decode 0b111001_0001_1111_100001100_100000101 =
      .djnz ⟨false, false, false, 0b1111, 0b100001100, .imm 0b100000101⟩ ∧
    decode 0b111010_1001_0100_100110001_101100000 =
      .tjnz ⟨true, false, false, 0b0100, 0b100110001, .imm 0b101100000⟩ ∧
    decode 0b111011_0100_1001_101010110_110111011 =
      .tjz ⟨false, true, false, 0b1001, 0b101010110, .reg 0b110111011⟩ := by decide

/-- WAITPEQ, WAITPNE, WAITCNT: words written out from the encodings of the opcode table. -/
theorem test_decode_wait :
    decode 0b111100_1100_1110_101111011_000010110 =
      .waitpeq ⟨true, true, false, 0b1110, 0b101111011, .reg 0b000010110⟩ ∧
    decode 0b111101_0010_0011_110100000_001110001 =
      .waitpne ⟨false, false, true, 0b0011, 0b110100000, .reg 0b001110001⟩ ∧
    decode 0b111110_1011_1000_111000101_011001100 =
      .waitcnt ⟨true, false, true, 0b1000, 0b111000101, .imm 0b011001100⟩ := by decide

/-- WAITVID: words written out from the encodings of the opcode table. -/
theorem test_decode_video_wait :
    decode 0b111111_0111_1101_111101010_100100111 =
      .waitvid ⟨false, true, true, 0b1101, 0b111101010, .imm 0b100100111⟩ := by decide

/-- NOP: words written out from the encodings of the opcode table. -/
theorem test_decode_skipped :
    decode 0b00000000000000000000000000000000 = .nop := by decide

/-! ## The worked examples of the rules -/

theorem test_ror : 
    offered .ror 0x80000001 4 false false = (0x18000000, true, false) ∧
    offered .ror 0x12345678 0 false false = (0x12345678, false, false) := by decide +kernel

theorem test_rol : offered .rol 0x80000001 4 false false = (0x00000018, true, false) := by decide +kernel

theorem test_shr : 
    offered .shr 0x80000001 1 false false = (0x40000000, true, false) ∧
    offered .shr 1 33 false false = (0, true, true) := by decide +kernel

theorem test_shl : 
    offered .shl 0x80000001 1 false false = (2, true, false) ∧
    offered .shl 0xC0000000 2 false false = (0, true, true) := by decide +kernel

theorem test_rcr : 
    offered .rcr 2 4 true false = (0xF0000000, false, false) ∧
    offered .rcr 3 1 false false = (1, true, false) := by decide +kernel

theorem test_rcl : 
    offered .rcl 0x40000000 4 true false = (0x0000000F, false, false) ∧
    offered .rcl 0x80000000 1 false false = (0, true, true) := by decide +kernel

theorem test_sar : 
    offered .sar 0x80000000 4 false false = (0xF8000000, false, false) ∧
    offered .sar 0x7FFFFFFF 31 false false = (0, true, true) := by decide +kernel

theorem test_rev : 
    offered .rev 0x0000000B 28 false false = (0x0000000D, true, false) ∧
    offered .rev 0x80000000 31 false false = (0, false, true) := by decide +kernel

theorem test_mins : 
    offered .mins 0xFFFFFFFF 1 false false = (1, true, false) ∧
    offered .mins 5 3 false false = (5, false, false) := by decide +kernel

theorem test_maxs : 
    offered .maxs 5 3 false false = (3, false, false) ∧
    offered .maxs 0xFFFFFFFF 1 false false = (0xFFFFFFFF, true, false) := by decide +kernel

theorem test_min : 
    offered .min 2 7 false false = (7, true, false) ∧
    offered .min 0xFFFFFFFF 1 false false = (0xFFFFFFFF, false, false) := by decide +kernel

theorem test_max : 
    offered .max 0xFFFFFFFF 1 false false = (1, false, false) ∧
    offered .max 5 0 false false = (0, false, true) := by decide +kernel

theorem test_and : 
    offered .and 0xF0F0F0F0 0x0FF00FF0 false false = (0x00F000F0, false, false) ∧
    offered .and 0xFF 0x100 false false = (0, false, true) := by decide +kernel

theorem test_andn : 
    offered .andn 0xFFFFFFFF 0x0000FFFF false false = (0xFFFF0000, false, false) ∧
    offered .andn 0xF 0xF false false = (0, false, true) := by decide +kernel

theorem test_or : 
    offered .or 0xF0 0x0F false false = (0xFF, false, false) ∧
    offered .or 0 0 false false = (0, false, true) := by decide +kernel

theorem test_xor : 
    offered .xor 0xFF 0x0F false false = (0xF0, false, false) ∧
    offered .xor 7 0 false false = (7, true, false) := by decide +kernel

theorem test_muxc : 
    offered .muxc 0x0000FF00 0x00000FF0 true false = (0x0000FFF0, false, false) ∧
    offered .muxc 0x0000FF00 0x00000FF0 false false = (0x0000F000, false, false) := by decide +kernel

theorem test_muxnc : offered .muxnc 0x0000FF00 0x00000FF0 false false = (0x0000FFF0, false, false) := by decide +kernel

theorem test_muxz : offered .muxz 0x0000FF00 0x00000FF0 false true = (0x0000FFF0, false, false) := by decide +kernel

theorem test_muxnz : 
    offered .muxnz 0x0000FF00 0x00000FF0 false true = (0x0000F000, false, false) ∧
    offered .muxnz 0x0000FF00 0x00000FF0 false false = (0x0000FFF0, false, false) := by decide +kernel

theorem test_add : 
    offered .add 0xFFFFFFFF 1 false false = (0, true, true) ∧
    offered .add 0x7FFFFFFF 1 false false = (0x80000000, false, false) := by decide +kernel

theorem test_sub : 
    offered .sub 5 7 false false = (0xFFFFFFFE, true, false) ∧
    offered .sub 7 7 false false = (0, false, true) := by decide +kernel

theorem test_addabs : 
    offered .addabs 10 0xFFFFFFFD false false = (13, false, false) ∧
    offered .addabs 1 0x80000000 false false = (0x80000001, false, false) := by decide +kernel

theorem test_subabs : 
    offered .subabs 2 0xFFFFFFFD false false = (0xFFFFFFFF, true, false) ∧
    offered .subabs 0 0x80000000 false false = (0x80000000, true, false) := by decide +kernel

theorem test_sumc : 
    offered .sumc 10 3 true false = (7, false, false) ∧
    offered .sumc 0x80000000 1 true false = (0x7FFFFFFF, true, false) := by decide +kernel

theorem test_sumnc : 
    offered .sumnc 10 3 true false = (13, false, false) ∧
    offered .sumnc 0x7FFFFFFF 0xFFFFFFFF false false = (0x80000000, true, false) := by decide +kernel

theorem test_sumz : 
    offered .sumz 10 3 false true = (7, false, false) ∧
    offered .sumz 10 3 false false = (13, false, false) := by decide +kernel

theorem test_sumnz : 
    offered .sumnz 10 3 false false = (7, false, false) ∧
    offered .sumnz 0x7FFFFFFF 1 false true = (0x80000000, true, false) := by decide +kernel

theorem test_mov : 
    offered .mov 7 0 false false = (0, false, true) ∧
    offered .mov 7 0x80000000 false false = (0x80000000, true, false) := by decide +kernel

theorem test_neg : 
    offered .neg 0 1 false false = (0xFFFFFFFF, false, false) ∧
    offered .neg 0 0x80000000 false false = (0x80000000, true, false) := by decide +kernel

theorem test_abs : 
    offered .abs 0 0xFFFFFFFB false false = (5, true, false) ∧
    offered .abs 0 0x80000000 false false = (0x80000000, true, false) := by decide +kernel

theorem test_absneg : 
    offered .absneg 0 7 false false = (0xFFFFFFF9, false, false) ∧
    offered .absneg 0 0xFFFFFFFB false false = (0xFFFFFFFB, true, false) := by decide +kernel

theorem test_negc : 
    offered .negc 0 5 true false = (0xFFFFFFFB, false, false) ∧
    offered .negc 0 5 false false = (5, false, false) := by decide +kernel

theorem test_negnc : 
    offered .negnc 0 5 false false = (0xFFFFFFFB, false, false) ∧
    offered .negnc 0 0xFFFFFFFB true false = (0xFFFFFFFB, true, false) := by decide +kernel

theorem test_negz : 
    offered .negz 0 5 false true = (0xFFFFFFFB, false, false) ∧
    offered .negz 0 0xFFFFFFFB false false = (0xFFFFFFFB, true, false) := by decide +kernel

theorem test_negnz : 
    offered .negnz 0 5 false false = (0xFFFFFFFB, false, false) ∧
    offered .negnz 0 5 false true = (5, false, false) := by decide +kernel

theorem test_cmps : 
    offered .cmps 0xFFFFFFFF 1 false false = (0xFFFFFFFE, true, false) ∧
    offered .cmps 0x80000000 1 false false = (0x7FFFFFFF, true, false) := by decide +kernel

theorem test_cmpsx : 
    offered .cmpsx 5 5 true true = (0xFFFFFFFF, true, false) ∧
    offered .cmpsx 5 5 false false = (0, false, false) := by decide +kernel

theorem test_addx : 
    offered .addx 0xFFFFFFFF 0 true true = (0, true, true) ∧
    offered .addx 1 2 true false = (4, false, false) := by decide +kernel

theorem test_subx : 
    offered .subx 0 0 true true = (0xFFFFFFFF, true, false) ∧
    offered .subx 5 4 true true = (0, false, true) := by decide +kernel

theorem test_adds : 
    offered .adds 0x7FFFFFFF 1 false false = (0x80000000, true, false) ∧
    offered .adds 0xFFFFFFFF 1 false false = (0, false, true) := by decide +kernel

theorem test_subs : 
    offered .subs 0x80000000 1 false false = (0x7FFFFFFF, true, false) ∧
    offered .subs 5 7 false false = (0xFFFFFFFE, false, false) := by decide +kernel

theorem test_addsx : 
    offered .addsx 0x7FFFFFFF 0 true false = (0x80000000, true, false) ∧
    offered .addsx 0xFFFFFFFF 0 true true = (0, false, true) := by decide +kernel

theorem test_subsx : 
    offered .subsx 0x80000000 0 true false = (0x7FFFFFFF, true, false) ∧
    offered .subsx 1 0 true true = (0, false, true) := by decide +kernel

theorem test_cmpsub : 
    offered .cmpsub 10 3 false false = (7, true, false) ∧
    offered .cmpsub 0 5 false false = (0, false, false) := by decide +kernel

theorem test_cmp : 
    offered .cmp 5 7 false false = (0xFFFFFFFE, true, false) ∧
    offered .cmp 7 7 false false = (0, false, true) := by decide +kernel

theorem test_cmpx : 
    offered .cmpx 5 5 false true = (0, false, true) ∧
    offered .cmpx 5 5 false false = (0, false, false) := by decide +kernel

theorem test_test : offered .test 6 1 false false = (0, false, true) := by decide +kernel

theorem test_testn : offered .testn 0xF 0xF false false = (0, false, true) := by decide +kernel

theorem test_movs : 
    offeredRZ .movs 0xFFFFFFFF 0x123 = (0xFFFFFF23, false) ∧
    offeredRZ .movs 0x5C7C0000 0xFFFFFE05 = (0x5C7C0005, false) := by decide +kernel

theorem test_movd : 
    offeredRZ .movd 0 0x1FF = (0x0003FE00, false) ∧ offeredRZ .movd 0xFFFFFFFF 0 = (0xFFFC01FF, false) := by decide +kernel

theorem test_movi : 
    offeredRZ .movi 0 0x1FF = (0xFF800000, false) ∧ offeredRZ .movi 0xA0BC0001 0x100 = (0x803C0001, false) := by decide +kernel

theorem test_jmpret : 
    offeredRZ .jmpret 0x5C7C0000 0x018 = (0x5C7C0006, false) ∧ sent .jmpret 0x5C7C0000 0x018 = (0x018, 3) := by decide +kernel

theorem test_jmp : sent .jmp 0 0x004 = (0x004, 3) := by decide +kernel

theorem test_call : 
    offeredRZ .call 0x5C7C0000 0x018 = (0x5C7C0006, false) ∧ sent .call 0x5C7C0000 0x018 = (0x018, 3) := by decide +kernel

theorem test_ret : sent .ret 0 0x1FF = (0x1FF, 3) := by decide +kernel

theorem test_djnz : 
    offered .djnz 1 0x20 false false = (0, false, true) ∧ offered .djnz 0 0x20 false false = (0xFFFFFFFF, true, false) := by decide +kernel

theorem test_djnz_sends : sent .djnz 3 0x20 = (0x20, 3) ∧ sent .djnz 1 0x20 = (6, 7) ∧ sent .djnz 0 0x20 = (0x20, 3) := by decide +kernel

theorem test_tjnz : sent .tjnz 5 0x20 = (0x20, 3) ∧ sent .tjnz 0 0x20 = (6, 7) := by decide +kernel

theorem test_tjz : sent .tjz 0 0x20 = (0x20, 3) ∧ sent .tjz 5 0x20 = (6, 7) := by decide +kernel

/-! ## The transactions in the hub window -/

theorem test_rdbyte :
    (after (hubHook { blocked (.rdbyte (fields true true true)) 0 0x00010123 with mem := [(0x0123, 0x80)] })).unit.pipe.wb.val
      = 0x00000080 := by decide +kernel

theorem test_rdword :
    (after (hubHook { blocked (.rdword (fields true true true)) 0 0x0011 with
      mem := [(0x0010, 0x34), (0x0011, 0x12)] })).unit.pipe.wb.val = 0x00001234 := by decide +kernel

theorem test_rdlong :
    (after (hubHook { blocked (.rdlong (fields true true true)) 0 0x0103 with
      mem := [(0x0100, 0xDD), (0x0101, 0xCC), (0x0102, 0xBB), (0x0103, 0xAA)] })).unit.pipe.wb.val = 0xAABBCCDD := by
  decide +kernel

theorem test_wrbyte : (after (hubHook (blocked (.wrbyte (fields true true false)) 0xAABBCCDD 0x0100))).mem = [(0x0100, 0xDD)] := by
  decide +kernel

theorem test_wrword :
    (after (hubHook (blocked (.wrword (fields true true false)) 0xAABBCCDD 0x0101))).mem
      = [(0x0100, 0xDD), (0x0101, 0xCC)] := by decide +kernel

theorem test_wrlong :
    (after (hubHook (blocked (.wrlong (fields true true false)) 0xAABBCCDD 0x0103))).mem
      = [(0x0100, 0xDD), (0x0101, 0xCC), (0x0102, 0xBB), (0x0103, 0xAA)] := by decide +kernel

theorem test_wrlong_in_rom :
    (after (hubHook (blocked (.wrlong (fields true true false)) 0xAABBCCDD 0x8000))).mem = [] := by decide +kernel

/-- The write-back latch of a hub operation on `D` and the selector `S`, in the unit's window: result, C, Z. -/
def hubOffer (d s : Long) (w : State → State) : Long × Bool × Bool :=
  let wb := (after (hubHook (w (blocked (.hubop (fields true true true)) d s)))).unit.pipe.wb
  (wb.val, wb.c, wb.z)

theorem test_clkset : (after (hubHook (blocked (.clkset (fields true true true)) 0x1236F 0))).clk = 0x6F := by decide +kernel

theorem test_cogid : hubOffer 0 1 id = (0, false, true) := by decide +kernel

/-- COGINIT into the lowest empty slot: parameter 0x3FFF * 4, program address 1 * 4. -/
theorem test_coginit :
    let t := after (hubHook (blocked (.coginit (fields true true true)) 0xFFFC0018 2))
    t.units[(1 : UnitIx)] = CogUnit.create .native 4 0xFFFC ∧ hubOffer 0xFFFC0018 2 id = (1, false, false) := by decide +kernel

theorem test_cogstop_self : (after (hubHook (blocked (.cogstop (fields true true true)) 0 3))).unit = CogUnit.vacant := by
  decide +kernel

theorem test_locknew : hubOffer 0 4 (fun w => { w with lockAlloc := 0b00000011 }) = (2, false, false) ∧
    hubOffer 0 4 (fun w => { w with lockAlloc := 0xFF }) = (7, true, false) := by decide +kernel

theorem test_lockret :
    (after (hubHook { blocked (.lockret (fields true true true)) 0x0B 5 with lockAlloc := 0xFF })).lockAlloc = 0xF7 := by
  decide +kernel

theorem test_lockset : hubOffer 2 6 (fun w => { w with lockState := 0b100 }) = (2, true, false) ∧
    (after (hubHook (blocked (.lockset (fields true true true)) 2 6))).lockState = 0b100 := by decide +kernel

theorem test_lockclr : hubOffer 0 7 id = (0, false, true) ∧
    (after (hubHook { blocked (.lockclr (fields true true true)) 2 7 with lockState := 0xFF })).lockState = 0xFB := by
  decide +kernel

/-! ## Counters, registers, load -/

/-- NCO with FRQ = 0x40000000: the output is bit 31 of the phase after the addition. -/
theorem test_nco :
    let g : Counter := { Counter.created with ctr := 0x10000000, frq := 0x40000000 }
    (g.clock 0 false).outA = false ∧ ((g.clock 0 false).clock 0 false).outA = true := by decide +kernel

/-- The contribution of a tick stays where that tick put it when the host moves the counter's pin: R420, R422, R480, with the
numbers of R434 (outA 1 at pin 5). -/
theorem test_contribution_is_held :
    let g : Counter := { Counter.created with ctr := 0x10000005, frq := 0x40000000, phs := 0x40000000 }
    let s := withUnit { CogUnit.create .native 0 0 with ctrA := g.clock 0 false }
    hostOutputs s 0 = .value 0x20 ∧ hostOutputs (after (hostWrite s 0 0x1F8 0x10000006)) 0 = .value 0x20 := by decide +kernel

/-- A generator with the data of R469 after `n` edges in one tick; `l` is the open choice of assumption 20. -/
def shown (l : Bool) (n : Nat) : Video :=
  let g : Video := { Video.created with vcfg := 0x200000FF, vscl := 0x00001004, frameCnt := 1, pllAttached := true }
  g.clock (fun _ => ⟨true, 0x0000AA55, 0b0110, 0, 0, l⟩) 0 n

/-- An edge with no WAITVID pending and open data 0. -/
def noData (l : Bool) : Nat → Reload := fun _ => ⟨false, 0, 0, 0, 0, l⟩

/-- R469: the pins after one to four edges, on either reading of assumption 20. -/
theorem test_vga : ∀ l, (shown l 1).held = 0x55 ∧ (shown l 2).held = 0xAA ∧ (shown l 3).held = 0xAA ∧
    (shown l 4).held = 0x55 := by
  decide +kernel

/-- A write of VSCL within the frame of R469 (PIXELCLOCKS 2 for 1): the pixels of the running frame stay one clock long (R552)
or become two clocks long (the code of R464), as assumption 20 leaves open; the next frame has the new counts. -/
theorem test_vscl_write_in_frame : ∀ l,
    let g := { shown l 1 with vscl := 0x00002003 }
    (g.edges (noData l) 1).pixels = 0b0011 ∧ (g.edges (noData l) 2).pixels = (if l then 0b0011 else 0b0001) ∧
      (g.edges (noData l) 3).frameCnt = 1 ∧ (g.edges (noData l) 4).frameCnt = 3 ∧
      (g.edges (noData l) 4).pixelCnt = 2 := by decide +kernel

/-- A write of VCFG leaves the pins until the next video clock (R461, R463), and ends them if VMODE is 0 (R462). -/
theorem test_vcfg_write_holds : ∀ l,
    let g := (shown l 2).writeVcfg 0x200002FF
    (g.clock (noData l) 0 0).held = 0xAA ∧ (g.clock (noData l) 0 1).held = 0xAA00 ∧
      ((shown l 2).writeVcfg 0x000000FF).held = 0 := by
  decide +kernel

/-- R487 and R486: what a driven pin reads, what the environment reaches, and what it does not. -/
theorem test_pins :
    let s : State := { State.reset with pinOut := 0x17, pinDir := 0x17, extQueue := [0xFFFFFFFFFFFFFF00] }
    s.sampledPins = 0x00000000FFFFFF17 := by decide +kernel

/-- The edge detector sees the pin one tick after it rises, once. -/
theorem test_posedge :
    let g : Counter := { Counter.created with ctr := 0x28000003, frq := 1 }
    (g.clock 8 false).phs = 0 ∧ ((g.clock 8 false).clock 8 false).phs = 1 ∧
      (((g.clock 8 false).clock 8 false).clock 8 false).phs = 1 := by decide +kernel

/-- The round trips of the spec's test vectors: VCFG attaches, PAR is writable, CNT is not. -/
theorem test_round_trip :
    let u := CogUnit.create .native 0 0
    let v : View := { index := 0, counter := 1000, pins := 0xF00F }
    (u.write 0x1FE 0xFFFFFFFF).read v 0x1FE = 0xFFFFFFFF ∧ (u.write 0x1FE 0xFFFFFFFF).vid.pllAttached = true ∧
      (u.write 0x1F0 0x12345678).read v 0x1F0 = 0x12345678 ∧ (u.write 0x1F1 0xDEADBEEF).read v 0x1F1 = 1000 ∧
      (u.write 0x1F2 0xFFFFFFFF).read v 0x1F2 = 0xF00F := by decide +kernel

/-- The 496th long boots the unit. -/
theorem test_boot :
    let t := after (hubHook (withUnit { CogUnit.create .native (4 * 495) 0 with count := 495, mem := [(0, 0xA0FC2005)] }))
    t.unit.pipe.runState = .executingInstruction ∧ t.unit.pipe.ir = 0xA0FC2005 ∧ t.unit.count = 0 := by decide +kernel

/-- The first word after reset runs where the host places it: the next tick is its execute tick. -/
theorem test_placed_word_runs : (after (step (State.reset.withFetchWord 32 0xA0FC2003))).units[(0 : UnitIx)].pipe.wb.val = 3 := by
  decide +kernel

/-! ## Refused terms -/

theorem test_ill_formed_hub_memory :
    (Instr.rdbyte (fields true true false)).wellFormed = false ∧ (Instr.wrbyte (fields true true true)).wellFormed = false ∧
      (Instr.wrbyte Fields.zero).wellFormed = false ∧ (Instr.rdword (fields true true false)).wellFormed = false ∧
      (Instr.wrword (fields true true true)).wellFormed = false ∧ (Instr.rdlong (fields true true false)).wellFormed = false ∧
      (Instr.wrlong (fields true true true)).wellFormed = false := by decide

/-- The same fields with a literal source. -/
def literal (wr : Bool) (n : BitVec 9) : Fields := { fields true true wr with src := .imm n }

theorem test_ill_formed_hub_operations :
    (Instr.clkset (literal true 1)).wellFormed = false ∧ (Instr.cogid (literal true 0)).wellFormed = false ∧
      (Instr.coginit (literal true 10)).wellFormed = false ∧ (Instr.cogstop (literal true 2)).wellFormed = false ∧
      (Instr.locknew (fields true true true)).wellFormed = false ∧ (Instr.lockret (literal true 4)).wellFormed = false ∧
      (Instr.lockset (literal true 7)).wellFormed = false ∧ (Instr.lockclr (literal true 8)).wellFormed = false ∧
      (Instr.hubop (literal true 7)).wellFormed = false ∧ (Instr.hubop (literal true 8)).wellFormed = true := by decide

theorem test_ill_formed_jumps :
    (Instr.jmpret (fields true true false)).wellFormed = false ∧ (Instr.jmpret (literal true 1)).wellFormed = false ∧
      (Instr.jmp (fields true true true)).wellFormed = false ∧
      (Instr.jmp { literal false 0 with d := 0 }).wellFormed = false ∧ (Instr.call (literal false 1)).wellFormed = false ∧
      (Instr.call (fields true true true)).wellFormed = false ∧ (Instr.ret (literal false 0)).wellFormed = false ∧
      (Instr.ret { literal true 0 with d := 0 }).wellFormed = false ∧
      (Instr.ret { literal false 1 with d := 0 }).wellFormed = false := by decide

theorem test_ill_formed_pairs :
    (Instr.and (fields true true false)).wellFormed = false ∧ (Instr.test (fields true true true)).wellFormed = false ∧
      (Instr.andn (fields true true false)).wellFormed = false ∧ (Instr.testn (fields true true true)).wellFormed = false ∧
      (Instr.sub (fields true true false)).wellFormed = false ∧ (Instr.cmp (fields true true true)).wellFormed = false ∧
      (Instr.subx (fields true true false)).wellFormed = false ∧ (Instr.cmpx (fields true true true)).wellFormed = false := by
  decide

/-! ## Witnesses: a concrete state and operands for every statement that has hypotheses -/

/-- The premises of the result statements. -/
abbrev Ready (f : Fields) (s : State) : Prop := s.native ∧ s.holds f

/-- The fields of a stored result, and of one that is not stored. -/
abbrev stored : Fields := fields true true true
abbrev unstored : Fields := fields true true false

/-- Fields whose condition is never. -/
abbrev never : Fields := { stored with cond := 0 }

/-- An outcome is a next state. -/
def isNext (o : Out) : Bool :=
  match o with
  | .next _ => true
  | .fault _ => false
  | .refused _ => false

theorem exists_next {o : Out} (h : isNext o = true) : ∃ t, o = .next t := by
  cases o with
  | next t => exact ⟨t, rfl⟩
  | fault r => cases h
  | refused r => cases h

theorem witness_DecodeOfEncode : (Instr.jmpret stored).wellFormed = true ∧ (Instr.hubop stored).wellFormed = true ∧
    (Instr.ret { literal false 0 with d := 0 }).wellFormed = true ∧ Instr.nop.wellFormed = true := by decide

theorem witness_SkippedInstruction :
    (atExecute (.rdlong never) 1 2 false false).native ∧ ¬(atExecute (.rdlong never) 1 2 false false).holds never := by
  unfold State.native State.holds; decide +kernel

theorem witness_NopCompletes : (atExecute .nop 1 2 true true).native := by unfold State.native; decide +kernel

theorem witness_ReservedOpcodes :
    Ready stored (atExecute (.mul stored) 1 2 false false) ∧ (atExecute (.mul never) 1 2 false false).native ∧
      ¬(atExecute (.mul never) 1 2 false false).holds never := by
  unfold Ready State.native State.holds; decide +kernel

theorem witness_ExecuteTickFrame :
    (∃ t, exec (.add stored) (atExecute (.add stored) 1 2 false false) = .next t) ∧
      (atExecute (.add stored) 1 2 false false).holds stored := by
  refine ⟨exists_next (by decide +kernel), ?_⟩; unfold State.holds; decide +kernel

theorem witness_ShiftResults : Ready stored (atExecute (.ror stored) 0x80000001 31 true false) := by
  unfold Ready State.native State.holds; decide +kernel

theorem witness_LimitResults : Ready stored (atExecute (.mins stored) 0xFFFFFFFF 1 false false) := by
  unfold Ready State.native State.holds; decide +kernel

theorem witness_FieldMoveResults : Ready stored (atExecute (.movs stored) 0xFFFFFFFF 0x123 false false) := by
  unfold Ready State.native State.holds; decide +kernel

theorem witness_LogicResults :
    Ready stored (atExecute (.and stored) 0xFF 0x0F false false) ∧ stored.wr = true ∧
      Ready unstored (atExecute (.test unstored) 0xFF 0x0F false false) ∧ unstored.wr = false := by
  unfold Ready State.native State.holds; decide +kernel

theorem witness_MultiplexResults : Ready stored (atExecute (.muxc stored) 0xFF00 0x0FF0 true false) := by
  unfold Ready State.native State.holds; decide +kernel

theorem witness_UnsignedResults :
    Ready stored (atExecute (.sub stored) 5 7 false false) ∧ stored.wr = true ∧
      Ready unstored (atExecute (.cmp unstored) 5 7 false false) ∧ unstored.wr = false := by
  unfold Ready State.native State.holds; decide +kernel

theorem witness_ConditionalSumResults : Ready stored (atExecute (.sumc stored) 10 3 true false) := by
  unfold Ready State.native State.holds; decide +kernel

theorem witness_MoveResults : Ready stored (atExecute (.abs stored) 0 0x80000000 false false) := by
  unfold Ready State.native State.holds; decide +kernel

theorem witness_SignedCompareResults : Ready stored (atExecute (.cmpsx stored) 5 5 true true) := by
  unfold Ready State.native State.holds; decide +kernel

theorem witness_ExtendedResults :
    Ready stored (atExecute (.subx stored) 0 0 true true) ∧ stored.wr = true ∧
      Ready unstored (atExecute (.cmpx unstored) 0 0 true true) ∧ unstored.wr = false := by
  unfold Ready State.native State.holds; decide +kernel

theorem witness_SignedResults : Ready stored (atExecute (.cmpsub stored) 10 3 false false) := by
  unfold Ready State.native State.holds; decide +kernel

theorem witness_JumpResults :
    Ready stored (atExecute (.jmpret stored) 0x5C7C0000 0x018 false false) ∧ stored.wr = true ∧
      Ready unstored (atExecute (.jmp unstored) 0 4 false false) ∧ unstored.wr = false ∧
      Ready (literal false 0) (atExecute (.ret (literal false 0)) 0 0 false false) ∧ (literal false 0).wr = false ∧
      (literal false 0).src = .imm 0 := by
  unfold Ready State.native State.holds; decide +kernel

/-- The premises of a loop instruction with `D` = d. -/
abbrev LoopReady (i : Fields → Instr) (d : Long) : Prop :=
  Ready stored (atExecute (i stored) d 0x20 false false) ∧ (atExecute (i stored) d 0x20 false false).readReg 0x010 = d

theorem witness_LoopResults :
    LoopReady .djnz 0 ∧ LoopReady .djnz 1 ∧ LoopReady .djnz 2 ∧ LoopReady .tjnz 0 ∧ LoopReady .tjnz 1 ∧ LoopReady .tjz 0 ∧
      LoopReady .tjz 1 := by
  unfold LoopReady Ready State.native State.holds; decide +kernel

/-- The state one tick after the execute tick of a wait: blocked in it. -/
def waiting (i : Instr) (d s : Long) : State := after (exec i (atExecute i d s false false))

theorem witness_PinWaits :
    let w := waiting (.waitpeq stored) 8 0xC
    Ready stored (atExecute (.waitpeq stored) 8 0xC false false) ∧
      (w.blockedAs w ∧ ¬w.pinIn.extractLsb' 0 32 &&& 0xC = 8) ∧
      (({ w with pinIn := 0xF9 } : State).blockedAs w ∧ (0xF9 : Pins).extractLsb' 0 32 &&& 0xC = (8 : Long)) := by
  unfold Ready State.blockedAs State.native State.holds; decide +kernel

theorem witness_CounterWait :
    let w := waiting (.waitcnt stored) 0xFFFFFFFF 1
    Ready stored (atExecute (.waitcnt stored) 0xFFFFFFFF 1 false false) ∧ (w.blockedAs w ∧ w.counter ≠ 0xFFFFFFFF) ∧
      ({ w with counter := 0xFFFFFFFF } : State).blockedAs w := by
  unfold Ready State.blockedAs State.native State.holds; decide +kernel

theorem witness_VideoWait :
    let w := waiting (.waitvid stored) 1 2
    let u := { w.unit with vid := { w.unit.vid with vidAck := true } }
    Ready stored (atExecute (.waitvid stored) 1 2 false false) ∧ (w.blockedAs w ∧ w.unit.vid.vidAck = false) ∧
      ((w.setUnit u).blockedAs w ∧ (w.setUnit u).unit.vid.vidAck = true) := by
  unfold Ready State.blockedAs State.native State.holds; decide +kernel

theorem witness_HopelessPinWait :
    (waiting (.waitpeq stored) 1 2).unit.pipe.runState = .waitingPinsEqual ∧
      (waiting (.waitpeq stored) 1 2).unit.pipe.opD &&& ~~~(waiting (.waitpeq stored) 1 2).unit.pipe.opS ≠ 0 := by
  decide +kernel

theorem witness_HubReads :
    Ready stored (atExecute (.rdword stored) 0 0xFFFF false false) ∧ stored.wr = true ∧
      (blocked (.rdbyte stored) 0 0xFFFF).blockedAs (blocked (.rdbyte stored) 0 0xFFFF) ∧
      (blocked (.rdword stored) 0 0xFFFF).blockedAs (blocked (.rdword stored) 0 0xFFFF) ∧
      (blocked (.rdlong stored) 0 0xFFFF).blockedAs (blocked (.rdlong stored) 0 0xFFFF) := by
  unfold Ready State.blockedAs State.native State.holds; decide +kernel

theorem witness_HubWrites :
    Ready unstored (atExecute (.wrlong unstored) 5 0x7FFC false false) ∧ unstored.wr = false ∧
      (blocked (.wrlong unstored) 5 0x7FFC).blockedAs (blocked (.wrlong unstored) 5 0x7FFC) ∧
      Memory.wf [(0x7FFF, 1)] = true ∧ hubAlign 0x7FFC 4 ≤ 0x7FFF ∧ 0x7FFF < hubAlign 0x7FFC 4 + 4 := by
  unfold Ready State.blockedAs State.native State.holds; decide +kernel

theorem witness_HubAddressesAreAligned :
    hubAlign 0x17FFF 4 = 0x7FFC ∧ hubAlign 0xFFFF 2 = 0xFFFE ∧ hubAlign 0xFFFFFFFF 1 = 0xFFFF := by decide

theorem witness_LongSeenByteByByte :
    Memory.wf [(0x7FFF, 1)] = true ∧ (0x7FFC : Long).toNat % 4 = 0 ∧ (0x7FFC : Long).toNat + 4 ≤ 0x8000 := by decide

/-- The premises of a hub operation with `D` = d and the selector n, and a state in which its window finds it. -/
abbrev HubReady (i : Fields → Instr) (d n : Long) : Prop :=
  Ready stored (atExecute (i stored) d n false false) ∧
    ((atExecute (i stored) d n false false).source stored.src).toNat % 8 = n.toNat % 8 ∧
    (atExecute (i stored) d n false false).readReg 0x010 = d ∧ (atExecute (i stored) d n false false).cur = 0 ∧
    (blocked (i stored) d n).blockedAs (blocked (i stored) d n)

theorem witness_ClockAndIdentity :
    HubReady .clkset 0x6F 0 ∧ HubReady .hubop 0x6F 8 ∧ HubReady .cogid 0x6F 1 ∧ HubReady .hubop 0x6F 9 := by
  unfold HubReady Ready State.blockedAs State.native State.holds; decide +kernel

theorem witness_LockOperations :
    HubReady .locknew 3 4 ∧ HubReady .lockret 3 5 ∧ HubReady .lockset 3 6 ∧ HubReady .lockclr 3 7 ∧ HubReady .hubop 3 15 := by
  unfold HubReady Ready State.blockedAs State.native State.holds; decide +kernel

/-- The window of LOCKNEW with lock 0 free, with lock 7 alone free, and with none free. -/
theorem witness_LockOperations_windows :
    let w := blocked (.locknew stored) 3 4
    (w.blockedAs w ∧ w.lockAlloc.getLsbD 0 = false) ∧
      (({ w with lockAlloc := 0x7F } : State).blockedAs w ∧ (0x7F : BitVec 8).getLsbD 7 = false ∧
        ∀ j < 7, (0x7F : BitVec 8).getLsbD j = true) ∧ ({ w with lockAlloc := 0xFF } : State).blockedAs w := by
  unfold State.blockedAs State.native; decide +kernel

theorem witness_CogStop :
    HubReady .cogstop 0 3 ∧ HubReady .cogstop 7 3 ∧ HubReady .hubop 7 11 ∧
    (Fin.ofNat 8 (7 : Long).toNat : UnitIx) ≠ 0 ∧ (Fin.ofNat 8 (0 : Long).toNat : UnitIx) = 0 := by
  unfold HubReady Ready State.blockedAs State.native State.holds; decide +kernel

/-- All eight slots hold a unit. -/
def full (s : State) : State := { s with units := s.units.map fun u => { u with active := true } }

/-- All slots but the last hold a unit. -/
def almostFull (s : State) : State := (full s).setSlot 7 CogUnit.vacant

theorem witness_CogInit :
    HubReady .coginit 0 2 ∧ HubReady .coginit 7 2 ∧ HubReady .coginit 8 2 ∧ HubReady .hubop 8 10 ∧
    ((8 : Long).getLsbD 3 = true ∧ (7 : Long).getLsbD 3 = false) ∧
    (Fin.ofNat 8 (7 : Long).toNat : UnitIx) ≠ 0 ∧ (Fin.ofNat 8 (0 : Long).toNat : UnitIx) = 0 := by
  unfold HubReady Ready State.blockedAs State.native State.holds; decide +kernel

/-- The window of COGINIT with slot 1 the lowest empty one, with slot 7 alone empty, and with none empty. -/
theorem witness_CogInit_windows :
    let w := blocked (.coginit stored) 8 2
    (w.blockedAs w ∧ w.units[w.cur].active = true ∧ w.units[(1 : UnitIx)].active = false ∧
      ∀ j : UnitIx, j < 1 → w.units[j].active = true) ∧
    ((almostFull w).blockedAs w ∧ (almostFull w).units[(7 : UnitIx)].active = false ∧
      ∀ j : UnitIx, j < 7 → (almostFull w).units[j].active = true) ∧
    ((full w).blockedAs w ∧ ∀ j : UnitIx, (full w).units[j].active = true) := by
  unfold State.blockedAs State.native; decide +kernel

theorem witness_RegisterReads : (0x1EF : CogAddr).toNat < 0x1F0 := by decide

theorem witness_RegisterRoundTrip : ({ CogUnit.create .native 0 0 with mem := [(0x1EF, 7)] } : CogUnit).memWf = true := by decide

theorem witness_VideoLink : (0x1FF : CogAddr) ≠ 0x1FE := by decide

/-- Unit 0 at the execute tick of an instruction at address 0x1EE that writes cell 0x1EF. -/
def selfModifying : State :=
  let f : Fields := { stored with d := 0x1EF }
  withUnit { CogUnit.create .native 0 0 with
    mem := [(0x1EF, 0xA0BC4011)], pc := 0x1EE,
    pipe := { Pipe.created with runState := .executingInstruction, ir := encode (.movs f) } }

theorem witness_FetchBeforeWriteBack :
    let f : Fields := { stored with d := 0x1EF }
    Ready f selfModifying ∧ f.wr = true ∧ f.d = selfModifying.unit.pc + 1 ∧ f.d.toNat < 0x1F0 := by
  unfold Ready State.native State.holds; decide +kernel

theorem witness_ProgramLoad :
    ∀ n ∈ [0, 494, 495], (withUnit { CogUnit.create .native 0 0 with count := n }).native ∧
      (withUnit { CogUnit.create .native 0 0 with count := n }).unit.pipe.runState = .loadingProgram ∧
      (withUnit { CogUnit.create .native 0 0 with count := n }).unit.count < 496 ∧
      (withUnit { CogUnit.create .native 0 0 with count := n }).unit.count = n := by
  unfold State.native; decide +kernel

theorem witness_UnusedWindow :
    (waiting (.waitcnt stored) 1 2).unit.pipe.runState ≠ .loadingProgram ∧
      (waiting (.waitcnt stored) 1 2).unit.pipe.runState.isHub = false := by decide +kernel

/-- A second unit, which starts slot `id` anew in its window. -/
def coginitBy1 (id : Long) : CogUnit :=
  { CogUnit.create .native 0 0 with
    pipe := { Pipe.created with runState := .hubOperation, hubKind := .coginit, opD := id, opIR := encode (.coginit stored) } }

theorem witness_HubReadIsServed :
    (∀ p ∈ [(Instr.rdbyte stored, RunState.hubReadByte), (.rdword stored, .hubReadWord), (.rdlong stored, .hubReadLong)],
      (blocked p.1 0 8).alone 0 ∧ (blocked p.1 0 8).units[(0 : UnitIx)].active = true ∧
        (blocked p.1 0 8).units[(0 : UnitIx)].pipe.runState = p.2) := by
  unfold State.alone; decide +kernel

/-- Another unit at work in the window before: it overrides unit 0 if its COGINIT names it, and not if it names itself; in the
latter case the window of unit 0 is the sixteenth tick of a run. -/
theorem witness_HubReadIsServed_others :
    let s (id : Long) : State := { (blocked (.rdlong stored) 0 8).setSlot 1 (coginitBy1 id) with counter := 1 }
    (s 0).overrides 0 ∧ (∀ q ∈ [s 1], ¬ q.overrides 0) ∧ isNext (step (s 1)) = true ∧
      window ((s 1).counter + BitVec.ofNat 32 15) = some 0 ∧ isNext (stepN 15 (s 1)) = true := by
  unfold State.overrides; decide +kernel

theorem witness_StepRunsDecoded :
    let s := atExecute (.add stored) 1 2 false false
    s.units[(0 : UnitIx)].strategy = .native ∧ s.units[(0 : UnitIx)].pipe.runState = .executingInstruction ∧
      (Instr.add stored).wellFormed = true ∧ s.units[(0 : UnitIx)].pipe.ir = encode (.add stored) ∧ s.alone 0 ∧
      s.units[(0 : UnitIx)].active = true := by
  unfold State.alone; decide +kernel

theorem witness_BusInATick : ∃ t, step (atExecute (.add stored) 1 2 false false) = .next t :=
  exists_next (by decide +kernel)

theorem witness_OrdinaryStepIsPrivate : ∃ t, stepUnit 0 (atExecute (.add stored) 1 2 false false) = .next t :=
  exists_next (by decide +kernel)

/-- Unit 0 in the last tick of an instruction whose next address is 6, with a breakpoint. -/
def arriving (breakpoint : Option CogAddr) : State :=
  withUnit { CogUnit.create .native 0 0 with
    pc := 5, breakpoint := breakpoint,
    pipe := { Pipe.created with runState := .waitingCycles, stateArg := 1, pcNext := 6 } }

/-- Unit 0 in the tick of its last window of the program load. -/
def booting (breakpoint : Option CogAddr) : State :=
  { withUnit { CogUnit.create .native (4 * 495) 0 with count := 495, breakpoint := breakpoint } with counter := 15 }

theorem witness_BreakpointReport_legal :
    ∀ s ∈ [arriving (some 6), arriving (some 7), booting (some 0), booting none, State.reset],
      s.legal ∧ (∀ k : UnitIx, s.units[k].active = true → s.units[k].strategy = .native) ∧ isNext (step s) = true := by
  unfold State.legal; decide +kernel

/-- The two ways of arriving, and the answers of the step (R144). -/
theorem test_breakpoint :
    (arriving (some 6)).arrives 0 6 ∧ (booting (some 0)).arrives 0 0 ∧
    (after (step (arriving (some 6)))).stepOk = false ∧ (after (step (arriving (some 7)))).stepOk = true ∧
    (after (step (booting (some 0)))).stepOk = false ∧ (after (step (booting none))).stepOk = true := by
  unfold State.arrives; decide +kernel

theorem witness_BreakpointReport :
    (∀ b ∈ [none, some 6, some 7], (arriving b).alone 0 ∧ (arriving b).units[(0 : UnitIx)].strategy = .native ∧
      isNext (step (arriving b)) = true ∧ (arriving b).units[(0 : UnitIx)].pipe.runState = .waitingCycles ∧
      (arriving b).units[(0 : UnitIx)].pipe.nextState = .executingInstruction ∧
      (arriving b).units[(0 : UnitIx)].pipe.stateArg = 1) ∧
    (let s := atExecute (.add stored) 1 2 false false
     s.alone 0 ∧ s.units[(0 : UnitIx)].strategy = .native ∧ isNext (step s) = true ∧
       s.units[(0 : UnitIx)].pipe.runState = .executingInstruction ∧ s.units[(0 : UnitIx)].pcFresh = false) := by
  unfold State.alone; decide +kernel

theorem witness_StepKeepsLegal :
    (atExecute (.wrlong unstored) 1 2 false false).legal ∧ ∃ t, step (atExecute (.wrlong unstored) 1 2 false false) = .next t := by
  refine ⟨?_, exists_next (by decide +kernel)⟩
  unfold State.legal
  decide +kernel

theorem witness_OnlyReservedOpcodesStop :
    (atExecute (.wrlong unstored) 1 2 false false).legal ∧
      ∀ k : UnitIx, (atExecute (.wrlong unstored) 1 2 false false).units[k].active = true →
        (atExecute (.wrlong unstored) 1 2 false false).units[k].strategy = .native := by
  refine ⟨witness_StepKeepsLegal.1, ?_⟩
  decide +kernel

theorem witness_SkippedTakesFourTicks :
    let s := atExecute (.add never) 1 2 false false
    s.alone 0 ∧ s.units[(0 : UnitIx)].strategy = .native ∧ s.units[(0 : UnitIx)].pipe.runState = .executingInstruction ∧
      (Instr.add never).wellFormed = true ∧ s.units[(0 : UnitIx)].pipe.ir = encode (.add never) ∧
      evaluate never.cond s.units[(0 : UnitIx)].c s.units[(0 : UnitIx)].z = false ∧
      (s.units[(0 : UnitIx)].pc + 1).toNat < 0x1F0 := by
  unfold State.alone; decide +kernel

theorem witness_CompletionInTheMachine :
    let s := atExecute (.mov stored) 1 2 false false
    s.alone 0 ∧ s.units[(0 : UnitIx)].strategy = .native ∧ s.units[(0 : UnitIx)].memWf = true ∧
      s.units[(0 : UnitIx)].pipe.runState = .executingInstruction ∧ (Instr.mov stored).wellFormed = true ∧
      s.units[(0 : UnitIx)].pipe.ir = encode (.mov stored) ∧
      (∃ r c z target, Completes (.mov stored) { beginTick s with cur := 0 } 3 r c z target ∧ target.toNat < 0x1F0) := by
  refine ⟨by unfold State.alone; decide +kernel, by decide +kernel, by decide +kernel, by decide +kernel, by decide,
    by decide +kernel, ?_⟩
  refine ⟨_, _, _, _, plain_completes resMov rfl ⟨by decide +kernel, by decide +kernel⟩ ?_, by decide +kernel⟩
  unfold State.holds; decide +kernel

/-- The clauses of the statement at their boundaries: a destination that is the phase of a counter, VCFG, the last plain cell,
a read-only register, an output register. -/
theorem witness_CompletionInTheMachine_destinations :
    ∀ d ∈ [(0x1EF : CogAddr), 0x1F1, 0x1F4, 0x1FC, 0x1FD, 0x1FE], ∃ r c z target,
      Completes (.mov { stored with d := d }) { beginTick (atExecute (.mov { stored with d := d }) 1 2 false false) with cur := 0 }
        3 r c z target := by
  intro d _
  exact ⟨_, _, _, _, plain_completes resMov rfl ⟨rfl, rfl⟩ (show evaluate 0b1111 false false = true from rfl)⟩

theorem witness_LogicModes : ({ Counter.created with ctr := 0x40000000 } : Counter).ctr.getLsbD 30 = true := by decide

theorem witness_CounterContribution : (0 : Nat) < 64 ∧ (63 : Nat) < 64 := by decide

/-- A generator at the end of a frame, at the end of a pixel, and within a pixel; each with and without a pending WAITVID. -/
theorem witness_VideoEdge :
    ({ Video.created with frameCnt := 1 } : Video).legal = true ∧
      ({ Video.created with frameCnt := 1, vidAck := true } : Video).legal = true ∧
      ({ Video.created with pixelCnt := 1 } : Video).legal = true ∧ Video.created.legal = true ∧
      ({ Video.created with pixelCnt := 1, pixelLen := 1 } : Video).legal = true ∧ Video.created.frameCnt ≠ 1 ∧
      (⟨true, 1, 2, 3, 4, true⟩ : Reload).pending = true ∧ (⟨false, 1, 2, 3, 4, false⟩ : Reload).pending = false := by decide

theorem witness_VideoContribution :
    ({ Video.created with vcfg := 0x200000FF } : Video).vcfg.extractLsb' 29 2 = 1 ∧
      Video.created.vcfg.extractLsb' 29 2 = 0 ∧ (63 : Nat) < 64 := by decide

theorem witness_LoadImage :
    (List.replicate 0x8000 (1 : Byte)).length ≤ 0x8000 ∧ 0x8000 < (List.replicate 0x8001 (1 : Byte)).length := by
  rw [List.length_replicate, List.length_replicate]; decide

theorem witness_HostAccess :
    State.reset.units[(0 : UnitIx)].active = true ∧
      (atExecute (.add stored) 1 2 false false).units[(0 : UnitIx)].active = true ∧
      (atExecute (.add stored) 1 2 false false).units[(0 : UnitIx)].pipe.runState = .executingInstruction := by decide +kernel

end Sys2Proof.Tests
end

section
/-! The invariant of a step (spec/10_state.md R20 to R63, spec/41_unit_state_machine.md R171). Within a tick a unit may have a
fresh program counter, and the registered pins are those of the tick before; everything else that a legal state asks for holds
all along. That part is `State.Sound`; each operation of the model is shown once to keep it. -/

namespace Sys2Proof.Machine

/-! ## Outcomes -/

theorem andThen_eq_next {o : Out} {g : State → Out} {t : State} :
    andThen o g = .next t ↔ ∃ s, o = .next s ∧ g s = .next t := by
  cases o <;> simp [andThen]

/-! ## Legal latches -/

theorem Pipe.legal_of_burning {p : Pipe} (hr : p.runState = .waitingCycles) :
    p.legal = true ↔ 1 ≤ p.stateArg.toNat ∧ p.stateArg.toNat ≤ 7 ∧ p.nextState = .executingInstruction := by
  simp [Pipe.legal, hr, RunState.isNative, and_assoc]

theorem Pipe.legal_of_prewait {p : Pipe} (hr : p.runState = .waitingPrewait) :
    p.legal = true ↔ 1 ≤ p.stateArg.toNat ∧ p.stateArg.toNat ≤ 2 ∧ p.nextState.isHub = true := by
  simp [Pipe.legal, hr, RunState.isNative, and_assoc]

/-- A native run state that counts nothing down. -/
def RunState.isSteady (r : RunState) : Bool := r.isNative && r != .waitingCycles && r != .waitingPrewait

theorem Pipe.legal_of_steady {p : Pipe} (h : p.runState.isSteady = true) : p.legal = true := by
  unfold Pipe.legal
  cases hr : p.runState <;> simp_all [RunState.isSteady, RunState.isNative]

theorem RunState.isSteady_of_isHub {r : RunState} (h : r.isHub = true) : r.isSteady = true := by
  cases r <;> simp_all [RunState.isHub, RunState.isSteady, RunState.isNative]

theorem Pipe.beginTail_legal (p : Pipe) {n : Nat} (h1 : 1 ≤ n) (h7 : n ≤ 7) : (p.beginTail n).legal = true := by
  rw [Pipe.legal_of_burning rfl, Pipe.beginTail_stateArg, BitVec.toNat_ofNat, Nat.mod_eq_of_lt (by omega)]
  exact ⟨h1, h7, rfl⟩

theorem Pipe.prewait_legal (p : Pipe) {r : RunState} (h : r.isHub = true) : (p.prewait r).legal = true :=
  (Pipe.legal_of_prewait rfl).2 ⟨Nat.le_succ 1, Nat.le_refl 2, h⟩

theorem countdown_toNat (n : BitVec 32) : (countdown n).toNat = n.toNat - 1 := by
  unfold countdown
  split
  · subst n; rfl
  · bv_omega

/-- A countdown that has not ended is at least 1 and no longer than before. -/
theorem countdown_bounds {n : BitVec 32} (h : countdown n ≠ 0) :
    1 ≤ (countdown n).toNat ∧ (countdown n).toNat ≤ n.toNat := by
  have hpos : (countdown n).toNat ≠ 0 := fun e => h (BitVec.eq_of_toNat_eq e)
  have hle := countdown_toNat n
  omega

/-! ## A legal generator -/

theorem Video.legal_iff {g : Video} :
    g.legal = true ↔ (1 ≤ g.frameCnt.toNat ∧ g.frameCnt.toNat ≤ 4096) ∧ (1 ≤ g.pixelCnt.toNat ∧ g.pixelCnt.toNat ≤ 256) ∧
      (1 ≤ g.pixelLen.toNat ∧ g.pixelLen.toNat ≤ 256) ∧ g.pllAttached = (vmode g.vcfg != 0) := by
  simp [Video.legal, and_assoc]

theorem frameClocks_bounds (vscl : Long) : 1 ≤ (frameClocks vscl).toNat ∧ (frameClocks vscl).toNat ≤ 4096 := by
  unfold frameClocks
  split
  · decide
  · generalize vscl.extractLsb' 0 12 = n at *
    bv_omega

theorem pixelClocks_bounds (vscl : Long) : 1 ≤ (pixelClocks vscl).toNat ∧ (pixelClocks vscl).toNat ≤ 256 := by
  unfold pixelClocks
  split
  · decide
  · generalize vscl.extractLsb' 12 8 = n at *
    bv_omega

theorem Video.nextPixelLen_bounds {g : Video} (fromVscl : Bool) (h : 1 ≤ g.pixelLen.toNat ∧ g.pixelLen.toNat ≤ 256) :
    1 ≤ (g.nextPixelLen fromVscl).toNat ∧ (g.nextPixelLen fromVscl).toNat ≤ 256 := by
  cases fromVscl
  · exact h
  · exact pixelClocks_bounds g.vscl

/-- One edge keeps the counts of the generator in their ranges (R464). -/
theorem Video.edge_legal {g : Video} (r : Reload) (h : g.legal = true) : (g.edge r).legal = true := by
  obtain ⟨hframe, hpixel, hlen, hlink⟩ := Video.legal_iff.1 h
  have hF := frameClocks_bounds g.vscl
  have hP := pixelClocks_bounds g.vscl
  rw [Video.legal_iff]
  unfold Video.edge
  simp only
  split
  next => split <;> exact ⟨hF, hP, hP, hlink⟩
  next hf =>
    have hframe' : 1 ≤ (g.frameCnt - 1).toNat ∧ (g.frameCnt - 1).toNat ≤ 4096 := by bv_omega
    split
    next => exact ⟨hframe', Video.nextPixelLen_bounds _ hlen, hlen, hlink⟩
    next hp => exact ⟨hframe', by dsimp only; bv_omega, hlen, hlink⟩

/-- An edge acknowledges only a pending WAITVID (R466). -/
theorem Video.edge_vidAck {g : Video} {r : Reload} (h : (g.edge r).vidAck = true) : g.vidAck = true ∨ r.pending = true := by
  unfold Video.edge at h
  simp only at h
  split at h
  next =>
    split at h
    next hreload => exact .inr (Bool.and_eq_true_iff.1 hreload).1
    next => exact .inl h
  next => split at h <;> exact .inl h

theorem Video.edges_legal {g : Video} (reload : Nat → Reload) (n : Nat) (h : g.legal = true) :
    (g.edges reload n).legal = true := by
  induction n with
  | zero => exact h
  | succ n ih => exact Video.edge_legal (reload n) ih

theorem Video.edges_vidAck {g : Video} {reload : Nat → Reload} {n : Nat} (h : (g.edges reload n).vidAck = true) :
    g.vidAck = true ∨ ∃ e, (reload e).pending = true := by
  induction n with
  | zero => exact .inl h
  | succ n ih =>
    obtain hack | hpend := Video.edge_vidAck h
    · exact ih hack
    · exact .inr ⟨n, hpend⟩

theorem Video.clock_legal {g : Video} (reload : Nat → Reload) (tick n : Nat) (h : g.legal = true) :
    (g.clock reload tick n).legal = true := by
  cases n with
  | zero => exact h
  | succ n => exact Video.edges_legal reload (n + 1) h

theorem Video.clock_vidAck {g : Video} {reload : Nat → Reload} {tick n : Nat} (h : (g.clock reload tick n).vidAck = true) :
    g.vidAck = true ∨ ∃ e, (reload e).pending = true := by
  cases n with
  | zero => exact .inl h
  | succ n => exact Video.edges_vidAck (n := n + 1) h

theorem Video.writeVcfg_legal {g : Video} (x : Long) (h : g.legal = true) : (g.writeVcfg x).legal = true := by
  obtain ⟨hframe, hpixel, hlen, -⟩ := Video.legal_iff.1 h
  exact Video.legal_iff.2 ⟨hframe, hpixel, hlen, rfl⟩

theorem Video.writeVcfg_disabled {g : Video} {x : Long} (h : vmode (g.writeVcfg x).vcfg = 0) : (g.writeVcfg x).held = 0 :=
  if_pos h

/-! ## Sound units -/

/-- What a legal state asks of a present unit, but for its program counter not being fresh: what holds of it within a tick
also. -/
structure CogUnit.Sound (u : CogUnit) : Prop where
  present : u.active = true
  cells : u.memWf = true
  count : u.count < sprBase
  latches : u.pipe.legal = true
  video : u.vid.legal = true
  ack : u.vid.vidAck = true → u.pipe.runState = .waitingVideo
  disabled : vmode u.vid.vcfg = 0 → u.vid.held = 0

theorem CogUnit.vacant_legal : CogUnit.vacant.legal = true := by decide

/-- A slot is legal if its unit is sound and its program counter is not fresh, or if it is empty. -/
theorem CogUnit.legal_iff {u : CogUnit} : u.legal = true ↔ (u.Sound ∧ u.pcFresh = false) ∨ u = CogUnit.vacant := by
  constructor
  · intro h
    simp only [CogUnit.legal, Bool.and_eq_true, Bool.or_eq_true, decide_eq_true_eq, Bool.not_eq_true', beq_iff_eq,
      bne_iff_ne] at h
    obtain ⟨⟨⟨⟨⟨⟨⟨hcells, hcount⟩, hlatches⟩, hvideo⟩, hack⟩, hdisabled⟩, hfresh⟩, hslot⟩ := h
    refine hslot.imp_left fun hactive => ⟨⟨hactive, hcells, hcount, hlatches, hvideo, ?_, ?_⟩, hfresh⟩
    · exact fun e => hack.resolve_left (by simp [e])
    · exact fun e => hdisabled.resolve_left (not_not.2 e)
  · rintro (⟨h, hfresh⟩ | rfl)
    · have hack : (!u.vid.vidAck || u.pipe.runState == .waitingVideo) = true := by
        cases e : u.vid.vidAck
        · rfl
        · simp [h.ack e]
      have hdisabled : (vmode u.vid.vcfg != 0 || u.vid.held == 0) = true := by
        by_cases e : vmode u.vid.vcfg = 0
        · rw [h.disabled e, beq_self_eq_true, Bool.or_true]
        · rw [bne_iff_ne.2 e, Bool.true_or]
      simp only [CogUnit.legal, h.present, h.cells, h.count, h.latches, h.video, hack, hdisabled, hfresh]
      rfl
    · exact CogUnit.vacant_legal

theorem CogUnit.create_sound (strategy : Strategy) (programAddress parameter : Long) :
    (CogUnit.create strategy programAddress parameter).Sound where
  present := rfl
  cells := rfl
  count := by show (0 : Nat) < sprBase; decide
  latches := by show Pipe.created.legal = true; decide
  video := by show Video.created.legal = true; decide
  ack := fun e => nomatch e
  disabled := fun _ => rfl

/-- A unit that does not wait for its generator has no acknowledge. -/
theorem CogUnit.Sound.vidAck_off {u : CogUnit} (h : u.Sound) (hr : u.pipe.runState ≠ .waitingVideo) : u.vid.vidAck = false :=
  Bool.eq_false_iff.2 fun e => hr (h.ack e)

/-- Without an acknowledge a unit may take any legal latches. -/
theorem CogUnit.Sound.withPipe {u : CogUnit} {p : Pipe} (h : u.Sound) (hv : u.vid.vidAck = false) (hp : p.legal = true) :
    ({ u with pipe := p } : CogUnit).Sound :=
  ⟨h.present, h.cells, h.count, hp, h.video, fun e => absurd (hv.symm.trans e) (by decide), h.disabled⟩

/-- The program counter, the flags, the fetched instruction and the mark of a fresh program counter are free. -/
theorem CogUnit.Sound.withFlow {u : CogUnit} (h : u.Sound) (pc : CogAddr) (c z fresh : Bool) (ir : Long) :
    ({ u with pc := pc, c := c, z := z, pcFresh := fresh, pipe := { u.pipe with ir := ir } } : CogUnit).Sound :=
  ⟨h.present, h.cells, h.count, h.latches, h.video, h.ack, h.disabled⟩

theorem CogUnit.Sound.write {u : CogUnit} (h : u.Sound) (a : CogAddr) (x : Long) : (u.write a x).Sound := by
  have hcells := CogUnit.write_memWf a x h.cells
  unfold CogUnit.write at hcells ⊢
  cases hl : locate a with
  | vcfg =>
    exact ⟨h.present, h.cells, h.count, h.latches, Video.writeVcfg_legal x h.video, h.ack, Video.writeVcfg_disabled⟩
  | _ => exact ⟨h.present, hl ▸ hcells, h.count, h.latches, h.video, h.ack, h.disabled⟩

theorem CogUnit.Sound.commit {u : CogUnit} (h : u.Sound) (wb : WriteBack) : (u.commit wb).Sound := by
  unfold CogUnit.commit
  cases wb.destEn
  · exact h.withFlow _ _ _ _ _
  · exact (h.write wb.dest wb.val).withFlow _ _ _ _ _

theorem CogUnit.Sound.complete {u : CogUnit} (h : u.Sound) (v : View) : (u.complete v).Sound :=
  (h.commit u.pipe.wb).withFlow _ _ _ _ _

/-- A tick of a burn counts down, or ends the burn and completes (R153). -/
theorem CogUnit.Sound.burn {u : CogUnit} (h : u.Sound) (hr : u.pipe.runState = .waitingCycles) (v : View) :
    (u.burn v).Sound := by
  have hv := h.vidAck_off (by rw [hr]; decide)
  obtain ⟨-, hhi, hnext⟩ := (Pipe.legal_of_burning hr).1 h.latches
  unfold CogUnit.burn
  simp only
  split
  next =>
    have hdone := h.withPipe (p := { u.pipe with stateArg := countdown u.pipe.stateArg, runState := u.pipe.nextState }) hv
      (Pipe.legal_of_steady (by rw [hnext]; rfl))
    split
    · exact hdone.complete v
    · exact hdone
  next hn =>
    have hb := countdown_bounds hn
    exact h.withPipe hv ((Pipe.legal_of_burning (p := { u.pipe with stateArg := countdown u.pipe.stateArg }) hr).2
      ⟨hb.1, hb.2.trans hhi, hnext⟩)

/-- A tick of a prewait counts down, or enters the hub state (R154). -/
theorem CogUnit.Sound.burnPrewait {u : CogUnit} (h : u.Sound) (hr : u.pipe.runState = .waitingPrewait) :
    u.burnPrewait.Sound := by
  have hv := h.vidAck_off (by rw [hr]; decide)
  obtain ⟨-, hhi, hhub⟩ := (Pipe.legal_of_prewait hr).1 h.latches
  unfold CogUnit.burnPrewait
  simp only
  split
  next => exact h.withPipe hv (Pipe.legal_of_steady (RunState.isSteady_of_isHub hhub))
  next hn =>
    have hb := countdown_bounds hn
    exact h.withPipe hv ((Pipe.legal_of_prewait (p := { u.pipe with stateArg := countdown u.pipe.stateArg }) hr).2
      ⟨hb.1, hb.2.trans hhi, hhub⟩)

theorem CogUnit.Sound.loadCell {u : CogUnit} (h : u.Sound) (a : Nat) (x : Long) : (u.loadCell a x).Sound := by
  have hcells := CogUnit.loadCell_memWf a x h.cells
  unfold CogUnit.loadCell at hcells ⊢
  split at hcells
  next ha =>
    rw [if_pos ha]
    exact ⟨h.present, hcells, h.count, h.latches, h.video, h.ack, h.disabled⟩
  next ha => rwa [if_neg ha]

theorem CogUnit.loadCell_pipe (u : CogUnit) (a : Nat) (x : Long) : (u.loadCell a x).pipe = u.pipe := by
  unfold CogUnit.loadCell
  split <;> rfl

theorem CogUnit.Sound.bootNative {u : CogUnit} (h : u.Sound) (hr : u.pipe.runState ≠ .waitingVideo) (v : View) :
    (u.bootNative v).Sound :=
  ((h.withFlow 0 false false true u.pipe.ir).withPipe (h.vidAck_off hr) (Pipe.legal_of_steady rfl))

theorem CogUnit.Sound.clockPeripherals {u : CogUnit} (h : u.Sound) (k : UnitIx) (pins : Pins) (tick : Nat) :
    (u.clockPeripherals k pins tick).Sound where
  present := h.present
  cells := h.cells
  count := h.count
  latches := h.latches
  video := Video.clock_legal _ _ _ h.video
  ack := fun e => (Video.clock_vidAck e).elim h.ack fun ⟨_, hpend⟩ => eq_of_beq hpend
  disabled := fun e =>
    have hvcfg : vmode u.vid.vcfg = 0 := (congrArg vmode (Video.clock_kept _ _ _ _).1).symm.trans e
    Video.clock_disabled _ _ _ hvcfg (h.disabled hvcfg)

/-! ## Progress of a sound unit -/

theorem satisfied_sound {s : State} (h : s.unit.Sound) (hv : s.unit.vid.vidAck = false) (res : Result) {n : Nat} (h1 : 1 ≤ n)
    (h7 : n ≤ 7) : (satisfied s res n).unit.Sound := by
  unfold satisfied
  rw [State.unit_setPipe]
  exact h.withPipe hv (Pipe.beginTail_legal _ h1 h7)

/-- A poll that is satisfied or changes nothing, whatever it tests (R155, R156). -/
theorem poll_sound {s : State} {ready : Prop} [Decidable ready] (h : s.unit.Sound) (hv : s.unit.vid.vidAck = false)
    (res : Result) {n : Nat} (h1 : 1 ≤ n) (h7 : n ≤ 7) : (if ready then satisfied s res n else s).unit.Sound := by
  split
  · exact satisfied_sound h hv res h1 h7
  · exact h

/-- A unit that leaves WaitingVideo has cleared the acknowledge (R159). -/
theorem pollVideo_sound {s : State} (h : s.unit.Sound) : (pollVideo s).unit.Sound := by
  unfold pollVideo
  split
  · have hcleared : ({ s.unit with vid := { s.unit.vid with vidAck := false } } : CogUnit).Sound :=
      ⟨h.present, h.cells, h.count, h.latches, h.video, (fun e => nomatch e), h.disabled⟩
    exact satisfied_sound (by rwa [State.unit_setUnit]) (by rw [State.unit_setUnit]) _ (by decide) (by decide)
  · exact h

/-- The execute tick of every instruction leaves legal latches, whatever it begins (R171). -/
theorem exec_sound {i : Instr} {s t : State} (h : s.unit.Sound) (hv : s.unit.vid.vidAck = false) (e : exec i s = .next t) :
    t.unit.Sound := by
  have hout := exec_outcome i s
  rw [e] at hout
  cases hout with
  | tail p n hn =>
    rw [State.unit_setPipe]
    obtain rfl | rfl := hn
    · exact h.withPipe hv (p.beginTail_legal (by decide) (by decide))
    · exact h.withPipe hv (p.beginTail_legal (by decide) (by decide))
  | prewait p state hub =>
    rw [State.unit_setPipe]
    exact h.withPipe hv (p.prewait_legal hub)
  | wait p state hwait =>
    have hsteady : ∀ r ∈ [RunState.waitingPinsEqual, .waitingPinsNotEqual, .waitingCounter, .waitingVideo],
        r.isSteady = true := by decide
    rw [State.unit_setPipe]
    exact h.withPipe hv (Pipe.legal_of_steady (hsteady state hwait))

theorem executeTick_sound {s t : State} (h : s.unit.Sound) (hv : s.unit.vid.vidAck = false) (e : executeTick s = .next t) :
    t.unit.Sound := by
  unfold executeTick at e
  split at e
  · exact exec_sound h hv e
  · cases e

/-- Progress in every run state keeps the running unit sound. -/
theorem progress_sound {s t : State} (h : s.unit.Sound) (e : progress s = .next t) : t.unit.Sound := by
  have hv := h.vidAck_off
  unfold progress at e
  cases hr : s.unit.pipe.runState with
  | executingInstruction => rw [hr] at e hv; exact executeTick_sound h (hv (by decide)) e
  | bootingInterpreter => rw [hr] at e; cases e
  | waitingInterpreter => rw [hr] at e; cases e
  | fetchingInterpreter => rw [hr] at e; cases e
  | waitingCycles => rw [hr] at e; cases e; rw [State.unit_setUnit]; exact h.burn hr _
  | waitingPrewait => rw [hr] at e; cases e; rw [State.unit_setUnit]; exact h.burnPrewait hr
  | waitingPinsEqual => rw [hr] at e hv; cases e; exact poll_sound h (hv (by decide)) _ (by decide) (by decide)
  | waitingPinsNotEqual => rw [hr] at e hv; cases e; exact poll_sound h (hv (by decide)) _ (by decide) (by decide)
  | waitingCounter => rw [hr] at e hv; cases e; exact poll_sound h (hv (by decide)) _ (by decide) (by decide)
  | waitingVideo => rw [hr] at e; cases e; exact pollVideo_sound h
  | loadingProgram => rw [hr] at e; cases e; exact h
  | hubReadByte => rw [hr] at e; cases e; exact h
  | hubReadWord => rw [hr] at e; cases e; exact h
  | hubReadLong => rw [hr] at e; cases e; exact h
  | hubOperation => rw [hr] at e; cases e; exact h

/-! ## Sound states -/

/-- Hub RAM is in its canonical form and every slot holds a sound unit or is empty. -/
structure State.Sound (s : State) : Prop where
  memory : Memory.wf s.mem = true
  slots : ∀ k : UnitIx, s.units[k].Sound ∨ s.units[k] = CogUnit.vacant

/-- A legal state is a sound one in which no program counter is fresh and the registered pins are up to date. -/
theorem State.legal_iff {s : State} :
    s.legal ↔ s.Sound ∧ (∀ k : UnitIx, s.units[k].pcFresh = false) ∧ s.pinOut = s.drivenPins ∧ s.pinDir = s.drivenDirs ∧
      s.cur = 0 := by
  constructor
  · rintro ⟨hmem, hslots, hpins⟩
    have hslot := fun k => CogUnit.legal_iff.1 (hslots k)
    refine ⟨⟨hmem, fun k => (hslot k).imp_left And.left⟩, fun k => ?_, hpins⟩
    obtain ⟨-, hfresh⟩ | hvacant := hslot k
    · exact hfresh
    · rw [hvacant]; rfl
  · rintro ⟨h, hfresh, hpins⟩
    exact ⟨h.memory, fun k => CogUnit.legal_iff.2 ((h.slots k).imp_left fun hu => ⟨hu, hfresh k⟩), hpins⟩

/-- A slot that is present holds a sound unit. -/
theorem State.Sound.unit_sound {s : State} (h : s.Sound) {k : UnitIx} (ha : s.units[k].active = true) : s.units[k].Sound :=
  (h.slots k).resolve_right fun e => by rw [e] at ha; exact absurd ha (by decide)

/-- The program counter of an empty slot is not fresh. -/
theorem State.Sound.pcFresh_of_inactive {s : State} (h : s.Sound) {k : UnitIx} (ha : s.units[k].active = false) :
    s.units[k].pcFresh = false := by
  obtain hu | hvacant := h.slots k
  · exact absurd (hu.present.symm.trans ha) (by decide)
  · rw [hvacant]; rfl

theorem State.Sound.setSlot {s : State} {u : CogUnit} (h : s.Sound) (k : UnitIx) (hu : u.Sound ∨ u = CogUnit.vacant) :
    (s.setSlot k u).Sound where
  memory := h.memory
  slots := fun j => by
    by_cases e : k = j
    · subst e; rwa [State.units_setSlot_self]
    · rw [State.units_setSlot_of_ne s u k j e]; exact h.slots j

theorem State.Sound.setUnit {s : State} {u : CogUnit} (h : s.Sound) (hu : u.Sound) : (s.setUnit u).Sound :=
  h.setSlot s.cur (.inl hu)

/-! ## The hub grant -/

/-- A unit without an acknowledge may end its transaction. -/
theorem endTransaction_sound {s : State} (h : s.Sound) (hu : s.unit.Sound) (hv : s.unit.vid.vidAck = false) (res : Result) :
    (endTransaction s res).Sound :=
  h.setUnit (hu.withPipe hv (Pipe.beginTail_legal _ (by decide) (by decide)))

/-- The locks and the clock register are free in this. -/
theorem endTransaction_sound_shared {s : State} (h : s.Sound) (hu : s.unit.Sound) (hv : s.unit.vid.vidAck = false)
    (alloc locks clk : BitVec 8) (res : Result) :
    (endTransaction { s with lockAlloc := alloc, lockState := locks, clk := clk } res).Sound :=
  endTransaction_sound (s := { s with lockAlloc := alloc, lockState := locks, clk := clk }) ⟨h.memory, h.slots⟩ hu hv res

theorem hubWrite_sound {s : State} (h : s.Sound) (hu : s.unit.Sound) (hv : s.unit.vid.vidAck = false) (n : Nat) :
    (hubWrite s n).Sound := by
  have hmem := memWrite_wf s.unit.pipe.opS n s.unit.pipe.opD h.memory
  have hs : ({ s with mem := memWrite s.mem s.unit.pipe.opS n s.unit.pipe.opD } : State).Sound := ⟨hmem, h.slots⟩
  exact hs.setUnit (hu.withPipe hv (Pipe.beginTail_legal _ (by decide) (by decide)))

theorem startUnit_sound {s : State} (h : s.Sound) (id : UnitIx) (strategy : Strategy) (programAddress parameter : Long) :
    (startUnit s id strategy programAddress parameter).Sound :=
  h.setSlot id (.inl (CogUnit.create_sound strategy programAddress parameter))

theorem stopUnit_sound {s : State} (h : s.Sound) (id : UnitIx) : (stopUnit s id).Sound := h.setSlot id (.inr rfl)

/-- A start leaves the running unit as it is or makes it a new one; neither has an acknowledge. -/
theorem coginitStart_unit {s : State} (hu : s.unit.Sound) (hv : s.unit.vid.vidAck = false) (id : UnitIx) (d : Long) :
    (coginitStart s id d).unit.Sound ∧ (coginitStart s id d).unit.vid.vidAck = false := by
  show ((s.setSlot id _).units[s.cur]).Sound ∧ ((s.setSlot id _).units[s.cur]).vid.vidAck = false
  by_cases e : id = s.cur
  · rw [e, State.units_setSlot_self]
    exact ⟨CogUnit.create_sound _ _ _, rfl⟩
  · rw [State.units_setSlot_of_ne s _ id s.cur e]
    exact ⟨hu, hv⟩

theorem hubCoginit_sound {s : State} (h : s.Sound) (hu : s.unit.Sound) (hv : s.unit.vid.vidAck = false) :
    (hubCoginit s).Sound := by
  have hstart : ∀ id d, (coginitStart s id d).Sound := fun id d => startUnit_sound h id _ _ _
  have hend : ∀ id d res, (endTransaction (coginitStart s id d) res).Sound := fun id d res =>
    have hrun := coginitStart_unit hu hv id d
    endTransaction_sound (hstart id d) hrun.1 hrun.2 res
  unfold hubCoginit
  simp only
  split
  · split
    · exact hend _ _ _
    · exact endTransaction_sound h hu hv _
  · split
    · exact hstart _ _
    · exact hend _ _ _

/-- A unit that stops another keeps running; one that stops itself leaves an empty slot (R158, R232). -/
theorem hubCogstop_sound {s : State} (h : s.Sound) (hu : s.unit.Sound) (hv : s.unit.vid.vidAck = false) :
    (hubCogstop s).Sound := by
  unfold hubCogstop
  simp only
  split
  next => exact stopUnit_sound h _
  next hne =>
    have hunit : (stopUnit s (indexOf s.unit.pipe.opD)).unit = s.unit := State.units_setSlot_of_ne s _ _ s.cur hne
    exact endTransaction_sound (stopUnit_sound h _) (by rwa [hunit]) (by rwa [hunit]) _

theorem hubLocknew_sound {s : State} (h : s.Sound) (hu : s.unit.Sound) (hv : s.unit.vid.vidAck = false) :
    (hubLocknew s).Sound := by
  unfold hubLocknew
  split
  · exact endTransaction_sound_shared h hu hv _ _ _ _
  · exact endTransaction_sound h hu hv _

theorem hubTransact_sound {s : State} (h : s.Sound) (hu : s.unit.Sound) (hv : s.unit.vid.vidAck = false) :
    (hubTransact s).Sound := by
  unfold hubTransact
  cases s.unit.pipe.hubKind with
  | wrbyte => exact hubWrite_sound h hu hv 1
  | wrword => exact hubWrite_sound h hu hv 2
  | wrlong => exact hubWrite_sound h hu hv 4
  | clkset => exact endTransaction_sound_shared h hu hv _ _ _ _
  | cogid => exact endTransaction_sound h hu hv _
  | coginit => exact hubCoginit_sound h hu hv
  | cogstop => exact hubCogstop_sound h hu hv
  | locknew => exact hubLocknew_sound h hu hv
  | lockret => exact endTransaction_sound_shared h hu hv _ _ _ _
  | lockset => exact endTransaction_sound_shared h hu hv _ _ _ _
  | lockclr => exact endTransaction_sound_shared h hu hv _ _ _ _

theorem boot_sound {s t : State} (h : s.Sound) (hu : s.unit.Sound) (hr : s.unit.pipe.runState ≠ .waitingVideo)
    (e : boot s = .next t) : t.Sound := by
  unfold boot at e
  split at e
  · cases e; exact h.setUnit (hu.bootNative hr _)
  · cases e

/-- A long of the program load counts on, or is the 496th and boots with the count at 0 (R150). -/
theorem loadLong_sound {s t : State} (h : s.Sound) (hu : s.unit.Sound) (hr : s.unit.pipe.runState ≠ .waitingVideo)
    (e : loadLong s = .next t) : t.Sound := by
  have hload := hu.loadCell s.unit.count (memRead s.mem s.unit.programAddress 4)
  have hpipe := s.unit.loadCell_pipe s.unit.count (memRead s.mem s.unit.programAddress 4)
  unfold loadLong at e
  generalize s.unit.loadCell s.unit.count (memRead s.mem s.unit.programAddress 4) = u at hload hpipe e
  have hnext : ∀ addr n, n < sprBase → ({ u with programAddress := addr, count := n } : CogUnit).Sound := fun addr n hn =>
    ⟨hload.present, hload.cells, hn, hload.latches, hload.video, hload.ack, hload.disabled⟩
  simp only at e
  split at e
  next =>
    have hzero := hnext (u.programAddress + 4) 0 (by decide)
    refine boot_sound (h.setUnit hzero) ?_ ?_ e
    · rwa [State.unit_setUnit]
    · rw [State.unit_setUnit]; exact hpipe ▸ hr
  next hne =>
    cases e
    exact h.setUnit (hnext _ _ (Nat.lt_of_le_of_ne hload.count hne))

/-- The hook of a present unit keeps the state sound. -/
theorem hubHook_sound {s t : State} (h : s.Sound) (hu : s.unit.Sound) (e : hubHook s = .next t) : t.Sound := by
  have hv := hu.vidAck_off
  unfold hubHook at e
  split at e
  next hr => exact loadLong_sound h hu (by rw [hr]; decide) e
  next hr => cases e; exact endTransaction_sound h hu (hv (by rw [hr]; decide)) _
  next hr => cases e; exact endTransaction_sound h hu (hv (by rw [hr]; decide)) _
  next hr => cases e; exact endTransaction_sound h hu (hv (by rw [hr]; decide)) _
  next hr => cases e; exact hubTransact_sound h hu (hv (by rw [hr]; decide))
  next => cases e; exact h

theorem hubGrant_sound {s t : State} (h : s.Sound) (e : hubGrant s = .next t) : t.Sound := by
  unfold hubGrant at e
  split at e
  next k _ =>
    split at e
    next ha => exact hubHook_sound (s := { s with cur := k }) ⟨h.memory, h.slots⟩ (h.unit_sound ha) e
    next => cases e; exact h
  next => cases e; exact h

/-! ## The ordinary steps -/

/-- The step of one slot does nothing, if it is empty, or is the unit's progress and the rest of its step. -/
theorem stepUnit_eq_next {k : UnitIx} {s t : State} (e : stepUnit k s = .next t) :
    (s.units[k].active = false ∧ t = s) ∨
      (s.units[k].active = true ∧ ∃ q, progress { s with cur := k } = .next q ∧ t = finishUnit q) := by
  cases ha : s.units[k].active with
  | false => rw [stepUnit_vacant ha] at e; cases e; exact .inl ⟨rfl, rfl⟩
  | true =>
    rw [stepUnit_present ha] at e
    obtain ⟨q, hq, e⟩ := andThen_eq_next.1 e
    cases e
    exact .inr ⟨rfl, q, hq, rfl⟩

theorem stepUnit_units_of_ne {k j : UnitIx} {s t : State} (e : stepUnit k s = .next t) (hj : j ≠ k) :
    t.units[j] = s.units[j] := by
  obtain ⟨-, rfl⟩ | ⟨-, q, hq, rfl⟩ := stepUnit_eq_next e
  · rfl
  · have hcur : q.cur = k := progress_cur hq
    rw [finishUnit_units j (by rwa [hcur]), progress_units hq j hj]

theorem finishUnit_sound {s : State} (h : s.Sound) (hu : s.unit.Sound) : (finishUnit s).Sound :=
  have hclocked := hu.clockPeripherals s.cur s.pinIn s.tick
  have hs := h.setUnit (hclocked.withFlow (s.unit.clockPeripherals s.cur s.pinIn s.tick).pc _ _ false _)
  ⟨hs.memory, hs.slots⟩

theorem finishUnit_pcFresh (s : State) : (finishUnit s).units[s.cur].pcFresh = false := by
  unfold finishUnit
  simp only [State.setUnit]
  rw [State.units_setSlot_self]

/-- The step of one slot keeps the state sound and leaves its program counter not fresh (R142). -/
theorem stepUnit_sound {k : UnitIx} {s t : State} (h : s.Sound) (e : stepUnit k s = .next t) :
    t.Sound ∧ t.units[k].pcFresh = false := by
  obtain ⟨ha, rfl⟩ | ⟨ha, q, hq, rfl⟩ := stepUnit_eq_next e
  · exact ⟨h, h.pcFresh_of_inactive ha⟩
  · have hq_unit : q.unit.Sound := progress_sound (s := { s with cur := k }) (h.unit_sound ha) hq
    have hs : ({ s with cur := k } : State).Sound := ⟨h.memory, h.slots⟩
    have hq_sound : q.Sound := progress_frame hq ▸ hs.setUnit hq_unit
    have hcur : q.cur = k := progress_cur hq
    exact ⟨finishUnit_sound hq_sound hq_unit, hcur ▸ finishUnit_pcFresh q⟩

/-- The steps of a list of slots keep the state sound; a program counter is fresh after them only in a slot that is not in the
list and in which it was so before. -/
theorem stepUnits_sound {l : List UnitIx} {s t : State} (h : s.Sound) (e : stepUnits l s = .next t) :
    t.Sound ∧ ∀ k, k ∈ l ∨ s.units[k].pcFresh = false → t.units[k].pcFresh = false := by
  induction l generalizing s with
  | nil => cases e; exact ⟨h, fun k hk => hk.resolve_left (by simp)⟩
  | cons j l ih =>
    obtain ⟨q, hq, e⟩ := andThen_eq_next.1 e
    obtain ⟨hq_sound, hj⟩ := stepUnit_sound h hq
    obtain ⟨ht, hfresh⟩ := ih hq_sound e
    refine ⟨ht, fun k hk => hfresh k ?_⟩
    by_cases hkj : k = j
    · subst hkj; exact .inr hj
    · rw [stepUnit_units_of_ne hq hkj]
      exact hk.imp_left fun hmem => (List.mem_cons.1 hmem).resolve_left hkj

/-! ## The tick -/

/-- The parts of a tick (R380): the start, the hub grant, the steps of the eight slots, the end. -/
theorem step_eq_next {s t : State} (e : step s = .next t) :
    ∃ g q, hubGrant (beginTick s) = .next g ∧ stepUnits [0, 1, 2, 3, 4, 5, 6, 7] g = .next q ∧ t = endTick q := by
  obtain ⟨g, hg, e⟩ := andThen_eq_next.1 e
  obtain ⟨q, hq, e⟩ := andThen_eq_next.1 e
  cases e
  exact ⟨g, q, hg, hq, rfl⟩

/-- The end of a tick registers the pins, so a sound state without a fresh program counter is legal after it (R482). -/
theorem endTick_legal {s : State} (h : s.Sound) (hfresh : ∀ k : UnitIx, s.units[k].pcFresh = false) : (endTick s).legal :=
  State.legal_iff.2 ⟨⟨h.memory, h.slots⟩, hfresh, rfl, rfl, rfl⟩

/-- Settles O48: `State.Sound` holds at every stage of the tick, the unit steps clear every fresh program counter, and the end
of the tick registers the pins. -/
theorem stepKeepsLegal : Obligations.StepKeepsLegal := by
  intro s t hlegal hstep
  obtain ⟨hs, -⟩ := State.legal_iff.1 hlegal
  obtain ⟨g, q, hg, hq, rfl⟩ := step_eq_next hstep
  have hbegin : (beginTick s).Sound := ⟨hs.memory, hs.slots⟩
  obtain ⟨hq_sound, hfresh⟩ := stepUnits_sound (hubGrant_sound hbegin hg) hq
  have hall : ∀ k : UnitIx, k ∈ [0, 1, 2, 3, 4, 5, 6, 7] := by decide
  exact endTick_legal hq_sound fun k => hfresh k (.inl (hall k))

end Sys2Proof.Machine
end

section
/-! The machine after reset, and after an image is loaded (spec/10_state.md R63, spec/70_reset_and_hazards.md R530 to R532). -/

namespace Sys2Proof.Machine

/-! ## The slots of reset -/

theorem unitsAtReset_get (k : UnitIx) : unitsAtReset[k] = CogUnit.atReset k := by
  fin_cases k <;> rfl

theorem CogUnit.atReset_zero : CogUnit.atReset 0 = CogUnit.create .native 0 0 := rfl

theorem CogUnit.atReset_of_ne {k : UnitIx} (h : k ≠ 0) : CogUnit.atReset k = CogUnit.vacant := by
  simp only [CogUnit.atReset, bootVector, if_neg h]

theorem State.reset_units_zero : State.reset.units[(0 : UnitIx)] = CogUnit.create .native 0 0 := rfl

theorem State.reset_units_of_ne {k : UnitIx} (h : k ≠ 0) : State.reset.units[k] = CogUnit.vacant :=
  (unitsAtReset_get k).trans (CogUnit.atReset_of_ne h)

/-- Only slot 0 holds a unit after reset (R532). -/
theorem State.reset_alone : State.reset.alone 0 :=
  ⟨rfl, fun j h => by rw [State.reset_units_of_ne h]; rfl⟩

theorem State.reset_sound : State.reset.Sound where
  memory := reset_mem_wf
  slots := fun k => by
    by_cases h : k = 0
    · subst h; exact .inl (CogUnit.create_sound .native 0 0)
    · exact .inr (State.reset_units_of_ne h)

/-- No program counter is fresh after reset. -/
theorem State.reset_pcFresh (k : UnitIx) : State.reset.units[k].pcFresh = false := by
  by_cases h : k = 0
  · subst h; rfl
  · rw [State.reset_units_of_ne h]; rfl

/-- Settles O49: the state is sound, no program counter is fresh, and unit 0 drives no pin. -/
theorem resetIsLegal : Obligations.ResetIsLegal :=
  State.legal_iff.2 ⟨State.reset_sound, State.reset_pcFresh, rfl, rfl, rfl⟩

/-- Every register of a new unit but the counter, the inputs and PAR reads 0; PAR reads the parameter (R63). -/
theorem CogUnit.create_read (strategy : Strategy) (programAddress parameter : Long) (v : View) {a : CogAddr}
    (h : readOnly a = false) :
    (CogUnit.create strategy programAddress parameter).read v a = if locate a = .par then parameter else 0 := by
  rw [readOnly_eq_fixed] at h
  unfold CogUnit.read
  cases hl : locate a with
  | cell n => rfl
  | ident => rw [hl] at h; cases h
  | cnt => rw [hl] at h; cases h
  | ina => rw [hl] at h; cases h
  | inb => rw [hl] at h; cases h
  | _ => rfl

theorem hubByte_of_empty {a : Nat} (h : a < hubRamBytes) : hubByte [] a = 0 := if_pos h

/-- Settles O58: unit 0 is a newly created one, so its fields are the creation values, and its registers read as such. -/
theorem afterReset : Obligations.AfterReset := by
  refine ⟨fun a ha => hubByte_of_empty ha, rfl, rfl, rfl, rfl, rfl, rfl, rfl, State.reset_alone, ?_⟩
  rw [State.reset_units_zero]
  refine ⟨rfl, rfl, rfl, rfl, rfl, rfl, rfl, rfl, rfl, rfl, rfl, rfl, rfl, rfl, rfl, fun v a h => ?_⟩
  rw [CogUnit.create_read .native 0 0 v h, ite_self]

/-! ## Loading an image -/

/-- The cells of an image laid out from `lo`: zero below it, and from there on the bytes of the image, zero beyond it. -/
theorem Cells.get_imageCells (bytes : List Byte) (lo b : Nat) :
    Cells.get (imageCells lo bytes) b = if b < lo then 0 else bytes.getD (b - lo) 0 := by
  induction bytes generalizing lo with
  | nil => simp [imageCells, Cells.get]
  | cons v rest ih =>
    have htail : b ≠ lo → Cells.get (imageCells (lo + 1) rest) b = if b < lo then 0 else (v :: rest).getD (b - lo) 0 := by
      intro hne
      rw [ih]
      by_cases hlt : b < lo
      · rw [if_pos hlt, if_pos (by omega)]
      · rw [if_neg hlt, if_neg (by omega), show b - lo = b - (lo + 1) + 1 by omega, List.getD_cons_succ]
    unfold imageCells
    by_cases hb : b = lo
    · subst hb
      rw [if_neg (Nat.lt_irrefl b), Nat.sub_self, List.getD_cons_zero]
      split
      next hv => rw [ih, if_pos (Nat.lt_succ_self b), hv]
      next => exact if_pos rfl
    · split
      next => exact htail hb
      next => rw [Cells.get, if_neg hb, htail hb]

/-- Every byte of RAM after an image is laid out from address 0 (R531). -/
theorem hubByte_imageCells (bytes : List Byte) {a : Nat} (h : a < hubRamBytes) :
    hubByte (imageCells 0 bytes) a = bytes.getD a 0 := by
  rw [hubByte, if_pos h, Cells.get_imageCells, if_neg (Nat.not_lt_zero a), Nat.sub_zero]

theorem imageCells_wf {bytes : List Byte} (h : bytes.length ≤ hubRamBytes) : Memory.wf (imageCells 0 bytes) = true :=
  imageCells_canonicalFrom bytes 0 (by omega)

theorem hostLoadImage_fits (s : State) {bytes : List Byte} (h : bytes.length ≤ hubRamBytes) :
    hostLoadImage s bytes = .next (hostReset { s with mem := imageCells 0 bytes }) := if_pos h

theorem hostLoadImage_too_long (s : State) {bytes : List Byte} (h : hubRamBytes < bytes.length) :
    hostLoadImage s bytes = .refused .imageTooLong := if_neg (Nat.not_le.2 h)

/-- Settles O59: the memory is the image's cells, and the rest is what the chip reset leaves. -/
theorem loadImage : Obligations.LoadImage := by
  intro s bytes
  refine ⟨fun hfits => ?_, hostLoadImage_too_long s⟩
  exact ⟨_, hostLoadImage_fits s hfits, imageCells_wf hfits, fun a ha => hubByte_imageCells bytes ha, rfl, rfl, rfl, rfl, rfl,
    rfl, rfl, rfl⟩

end Sys2Proof.Machine
end

section
/-! Hub addresses and the bytes of a long (spec/20_memory.md R74 to R78): an aligned access stays in one region, and the bytes
that a store put there are what a read finds, at any width and place inside the stored long. -/

namespace Sys2Proof.Machine

/-! ## Addresses -/

theorem dvd_hubAlign (a : Long) (n : Nat) : n ∣ hubAlign a n :=
  hubAlign_eq a n ▸ Nat.dvd_mul_left n _

theorem hubAlign_le (a : Long) (n : Nat) : hubAlign a n ≤ a.toNat % 0x10000 :=
  hubAlign_eq a n ▸ Nat.div_mul_le_self _ n

/-- An aligned access that begins below a multiple of its width ends no later than there (R78). -/
theorem hubAlign_add_le {a : Long} {n bound : Nat} (hn : n ∣ bound) (h : hubAlign a n < bound) :
    hubAlign a n + n ≤ bound := by
  have hgap : n ≤ bound - hubAlign a n := Nat.le_of_dvd (Nat.sub_pos_of_lt h) (Nat.dvd_sub hn (dvd_hubAlign a n))
  omega

/-- Settles O29: each width divides both ends of the regions, so an aligned access crosses neither. -/
theorem hubAddressesAreAligned : Obligations.HubAddressesAreAligned := by
  intro a n hn
  have hdvd : n ∣ 0x8000 := by rcases hn with rfl | rfl | rfl <;> decide
  have hlt : hubAlign a n < 0x10000 := (hubAlign_le a n).trans_lt (Nat.mod_lt _ (by decide))
  exact ⟨hubAlign_eq a n, hubAlign_add_le (hdvd.trans (by decide)) hlt, hubAlign_add_le hdvd⟩

/-- An address of the hub space that is a multiple of the width is used as it is. -/
theorem hubAlign_of_dvd {a : Long} {n : Nat} (hn : n ∣ a.toNat) (h : a.toNat < 0x10000) : hubAlign a n = a.toNat := by
  rw [hubAlign_eq, Nat.mod_eq_of_lt h, Nat.div_mul_cancel hn]

/-! ## A read inside a store -/

/-- Bytes of a long from byte `k` upward: the lowest one below the others, as a hub read joins them (R75). -/
theorem extractLsb'_bytes_succ (v : Long) (k n : Nat) :
    (v.extractLsb' (8 * (k + 1)) (8 * n)).setWidth 32 <<< 8 ||| (byteOf v k).setWidth 32 =
      (v.extractLsb' (8 * k) (8 * (n + 1))).setWidth 32 := by
  ext i hi
  by_cases h : i < 8
  · have : i < 8 * (n + 1) := by omega
    simp [byteOf, h, this]
  · have hbit : 8 * (k + 1) + (i - 8) = 8 * k + i := by omega
    have hin : i - 8 < 8 * n ↔ i < 8 * (n + 1) := by omega
    simp [byteOf, h, hbit, hin]

/-- Reading `n` of the `w` bytes just stored in RAM, from byte `k` upward, gives those bytes of the long. -/
theorem hubBytesLE_hubPutBytesLE {m : List Host.Cell} (hm : Memory.wf m = true) (v : Long) {a w k n : Nat}
    (hram : a + w ≤ hubRamBytes) (hkn : k + n ≤ w) :
    hubBytesLE (hubPutBytesLE m a v w) (a + k) n = (v.extractLsb' (8 * k) (8 * n)).setWidth 32 := by
  induction n generalizing k with
  | zero => simp [hubBytesLE]
  | succ n ih =>
    have hbyte : hubByte (hubPutBytesLE m a v w) (a + k) = byteOf v k := by
      rw [hubByte_hubPutBytesLE hm, if_pos (by omega), Nat.add_sub_cancel_left]
    rw [hubBytesLE, Nat.add_assoc, ih (by omega), hbyte, extractLsb'_bytes_succ]

/-- After a long is stored at a long-aligned address of RAM, an aligned read inside it gives its bytes there (R75 to R77). -/
theorem memRead_memWrite_long {m : List Host.Cell} (hm : Memory.wf m = true) {a : Long} (v : Long)
    (ha : a.toNat % 4 = 0) (hram : a.toNat + 4 ≤ 0x8000) {k n : Nat} (hkn : k + n ≤ 4) (hn : n ∣ a.toNat + k) :
    memRead (memWrite m a 4 v) (a + BitVec.ofNat 32 k) n = (v.extractLsb' (8 * k) (8 * n)).setWidth 32 := by
  have hstore : hubAlign a 4 = a.toNat := hubAlign_of_dvd (Nat.dvd_of_mod_eq_zero ha) (by omega)
  have hsum : (a + BitVec.ofNat 32 k).toNat = a.toNat + k := by
    simp only [BitVec.toNat_add, BitVec.toNat_ofNat]
    omega
  have hload : hubAlign (a + BitVec.ofNat 32 k) n = a.toNat + k := by
    rw [hubAlign_of_dvd (hsum ▸ hn) (by omega), hsum]
  rw [memRead, memWrite, hstore, hload, hubBytesLE_hubPutBytesLE hm v hram hkn]

/-- Settles O30: each of the reads is an aligned read inside the stored long. -/
theorem longSeenByteByByte : Obligations.LongSeenByteByByte := by
  intro m a v hm ha hram
  have hread {k n : Nat} := memRead_memWrite_long hm v ha hram (k := k) (n := n)
  have hlong : memRead (memWrite m a 4 v) a 4 = v := by
    simpa using hread (k := 0) (n := 4) (by decide) (by omega)
  have hlow : memRead (memWrite m a 4 v) a 2 = (v.extractLsb' 0 16).setWidth 32 := by
    simpa using hread (k := 0) (n := 2) (by decide) (by omega)
  exact ⟨hlong, hlow, hread (k := 2) (n := 2) (by decide) (by omega), fun i hi => hread hi (one_dvd _)⟩

end Sys2Proof.Machine
end

section
/-! Decoding and encoding are inverse (spec/30_encoding.md R100, R101, R105 to R110, R113, R114). The fields of a long are put
together and taken apart without loss by the laws of `assemble`; what is left is the opcode map, read in both directions: from a
well-formed instruction to its opcode and back, and from an opcode to the one well-formed instruction that spells it. -/

namespace Sys2Proof

/-! ## From an instruction to its opcode and back -/

theorem Fields.selects_iff {f : Fields} {n : BitVec 9} : f.selects n = true ↔ f.src = .imm n := beq_iff_eq

theorem decodeHubOp_of_not_named {f : Fields} (h : f.isNamedHubOp = false) : decodeHubOp f = .hubop f := by
  unfold decodeHubOp
  unfold Fields.isNamedHubOp at h
  cases hs : f.src with
  | reg a => rfl
  | imm n =>
    have hn : ¬ n.toNat < 8 := by simpa [hs] using h
    dsimp only
    split
    case h_9 => rfl
    all_goals omega

/-- The opcode map gives every spelling but NOP back from its opcode and fields (R105 to R107, R113). -/
theorem decodeOp_opcode_fields {i : Instr} (h : i.wellFormed = true) (hnop : i ≠ .nop) :
    decodeOp i.opcode.toNat i.fields = i := by
  cases i with
  | nop => exact absurd rfl hnop
  | rdbyte f | rdword f | rdlong f | and f | andn f | sub f | subx f => exact if_pos h
  | wrbyte f =>
    have hwr : (!f.wr) = true := (Bool.and_eq_true_iff.1 h).1
    exact if_neg (Bool.not_iff_not.1 hwr)
  | wrword f | wrlong f | test f | testn f | cmp f | cmpx f => exact if_neg (Bool.not_iff_not.1 h)
  | clkset f | cogid f | coginit f | cogstop f | locknew f | lockret f | lockset f | lockclr f =>
    obtain ⟨wz, wc, wr, cond, d, src⟩ := f
    obtain rfl : src = .imm _ := Fields.selects_iff.1 h
    rfl
  | hubop f => exact decodeHubOp_of_not_named (Bool.not_eq_eq_eq_not.1 h)
  | jmpret f | call f | jmp f | ret f =>
    simp only [Instr.wellFormed, Bool.and_eq_true, Bool.not_eq_true'] at h
    simp [decodeOp, decodeJump, Instr.opcode, Instr.fields, h]
  | _ => rfl

/-- The long 0x00000000 is the spelling of NOP alone (R108). -/
theorem encode_eq_zero {i : Instr} (h : i.wellFormed = true) (hz : encode i = 0) : i = .nop := by
  have hop : i.opcode = 0 := (opField_encode i).symm.trans (congrArg opField hz)
  have hf : i.fields = Fields.zero := (fieldsOf_encode i).symm.trans (congrArg fieldsOf hz)
  by_contra hnop
  have hi := decodeOp_opcode_fields h hnop
  rw [hop, hf] at hi
  subst hi
  exact absurd h (by decide)

/-- Settles O1: the long holds the opcode and the fields, and the opcode map gives the instruction back from them. -/
theorem decodeOfEncode : Obligations.DecodeOfEncode := by
  intro i h
  unfold decode
  split
  next hz => exact (encode_eq_zero h hz).symm
  next hz =>
    rw [opField_encode, fieldsOf_encode]
    exact decodeOp_opcode_fields h fun e => hz (e ▸ rfl)

/-! ## From an opcode to the instruction that spells it -/

/-- `i` is the well-formed instruction of an opcode and fields. -/
structure Instr.Spells (i : Instr) (op : Nat) (f : Fields) : Prop where
  wellFormed : i.wellFormed = true
  opcode : i.opcode.toNat = op
  fields : i.fields = f

/-- The pairs of R106 differ in `wr` only. -/
theorem pair_spells {i j : Instr} {op : Nat} {f : Fields} (hi : f.wr = true → i.Spells op f)
    (hj : (!f.wr) = true → j.Spells op f) : (if f.wr then i else j).Spells op f := by
  split
  next h => exact hi h
  next h => exact hj (Bool.not_iff_not.2 h)

theorem decodeHubOp_spells (f : Fields) : (decodeHubOp f).Spells 0b000011 f := by
  cases hnamed : f.isNamedHubOp with
  | false =>
    rw [decodeHubOp_of_not_named hnamed]
    exact ⟨by simp [Instr.wellFormed, hnamed], rfl, rfl⟩
  | true =>
    obtain ⟨wz, wc, wr, cond, d, src⟩ := f
    cases src with
    | reg a => cases hnamed
    | imm n =>
      have hn : n.toNat < 8 := of_decide_eq_true hnamed
      obtain ⟨k, rfl⟩ : ∃ k : Fin 8, n = BitVec.ofNat 9 k :=
        ⟨⟨n.toNat, hn⟩, by rw [BitVec.ofNat_toNat, BitVec.setWidth_eq]⟩
      fin_cases k <;> exact ⟨Fields.selects_iff.2 rfl, rfl, rfl⟩

theorem decodeJump_spells (f : Fields) : (decodeJump f).Spells 0b010111 f := by
  unfold decodeJump
  refine pair_spells (fun hwr => ?_) fun hwr => ?_
  · split
    next himm => exact ⟨by simp [Instr.wellFormed, hwr, himm], rfl, rfl⟩
    next himm => exact ⟨by simp [Instr.wellFormed, hwr, himm], rfl, rfl⟩
  · split
    next hret => exact ⟨by simp [Instr.wellFormed, hret, hwr], rfl, rfl⟩
    next hret => exact ⟨by simp [Instr.wellFormed, hret, hwr], rfl, rfl⟩

/-- Every opcode with every fields is spelled by one instruction, which the decoder answers; the long 0x00000000 alone is read as
NOP before its opcode is looked at (R101, R105, R108). -/
theorem decodeOp_spells {op : Nat} {f : Fields} (hop : op < 64) (hz : op = 0 → f ≠ Fields.zero) :
    (decodeOp op f).Spells op f := by
  unfold decodeOp
  split
  case h_1 =>
    have hf : f ≠ Fields.zero := hz rfl
    exact pair_spells (⟨·, rfl, rfl⟩) fun hwr => ⟨by simp [Instr.wellFormed, hwr, hf], rfl, rfl⟩
  -- RDWORD, RDLONG, AND, ANDN, SUB and SUBX with the other of each pair
  case h_2 | h_3 | h_25 | h_26 | h_34 | h_52 => exact pair_spells (⟨·, rfl, rfl⟩) (⟨·, rfl, rfl⟩)
  case h_4 => exact decodeHubOp_spells f
  case h_24 => exact decodeJump_spells f
  case h_64 =>
    obtain rfl : op = 63 := by grind
    exact ⟨rfl, rfl, rfl⟩
  all_goals exact ⟨rfl, rfl, rfl⟩

/-- Settles O2: a long other than 0x00000000 decodes to the instruction that spells its opcode and fields, so its encoding puts
the same opcode and fields together again. -/
theorem encodeOfDecode : Obligations.EncodeOfDecode := by
  intro w
  unfold decode
  split
  next hw => subst hw; decide
  next hw =>
    have hlong := assemble_fieldsOf w
    have hz : (opField w).toNat = 0 → fieldsOf w ≠ Fields.zero := fun hop hf => by
      rw [hf, BitVec.eq_of_toNat_eq (y := 0#6) hop] at hlong
      exact hw (hlong.symm.trans (by decide))
    have hi := decodeOp_spells (opField w).isLt hz
    refine ⟨hi.wellFormed, ?_⟩
    rw [encode, BitVec.eq_of_toNat_eq hi.opcode, hi.fields, hlong]

/-! ## The long as a number -/

/-- Fields put side by side add up, each shifted past those below it. -/
theorem toNat_append_eq_add {m n : Nat} (x : BitVec m) (y : BitVec n) : (x ++ y).toNat = x.toNat * 2 ^ n + y.toNat := by
  rw [BitVec.toNat_append, ← Nat.shiftLeft_add_eq_or_of_lt y.isLt, Nat.shiftLeft_eq]

/-- R114: the number of an assembled long. -/
theorem assemble_toNat (op : BitVec 6) (f : Fields) :
    (assemble op f).toNat =
      op.toNat * 2 ^ 26 + f.wz.toNat * 2 ^ 25 + f.wc.toNat * 2 ^ 24 + f.wr.toNat * 2 ^ 23 + f.src.immBit.toNat * 2 ^ 22 +
        f.cond.toNat * 2 ^ 18 + f.d.toNat * 2 ^ 9 + f.src.bits.toNat := by
  unfold assemble
  simp only [toNat_append_eq_add, BitVec.toNat_ofBool]
  ring

/-- Settles O3: the long is its fields side by side; the example is evaluated. -/
theorem assembledLong : Obligations.AssembledLong :=
  ⟨fun i => assemble_toNat i.opcode i.fields, by decide⟩

/-- Settles O4: each of the ten longs is evaluated. -/
theorem writtenWordsDecode : Obligations.WrittenWordsDecode := by
  refine ⟨?_, ?_, ?_, ?_, ?_, ?_, ?_, ?_, ?_, ?_⟩ <;> decide

end Sys2Proof
end

section
/-! The instructions that never act: NOP, and the reserved opcodes where their condition fails (spec/30_encoding.md R108, R109,
spec/43_native_hub_ops.md R238 to R241). -/

namespace Sys2Proof.Machine

theorem exec_nop (s : State) : exec .nop s = skip .nop s := rfl

/-- Settles O7: NOP is a skip, and its own fields have no effect bit to clear. -/
theorem nopCompletes : Obligations.NopCompletes := fun s hnat => by
  obtain ⟨s1, hskip, hdone⟩ := skip_completes .nop hnat
  exact ⟨0, false, false, s1, (exec_nop s).trans hskip, hdone⟩

/-- The execute tick of MUL, MULS, ENC and ONES, each with the refusal of its own name (R238 to R241). -/
theorem exec_reserved (f : Fields) (s : State) :
    exec (.mul f) s = reserved (.mul f) s .reservedMul ∧ exec (.muls f) s = reserved (.muls f) s .reservedMuls ∧
      exec (.enc f) s = reserved (.enc f) s .reservedEnc ∧ exec (.ones f) s = reserved (.ones f) s .reservedOnes :=
  ⟨rfl, rfl, rfl, rfl⟩

/-- A reserved opcode whose condition fails is skipped like any instruction (R109, R161). -/
theorem reserved_skips {i : Instr} {s : State} {why : Refusal} (hi : exec i s = reserved i s why) (hnat : s.native)
    (h : ¬ s.holds i.fields) :
    ∃ s1 t, exec i s = .next s1 ∧ progressN 3 s1 = .next t ∧
      Committed s t { i.fields with wr := false, wc := false, wz := false } 0 false false (s.unit.pc + 1) := by
  obtain ⟨s1, hskip, -, t, hrun, hdone⟩ := skip_completes i hnat
  exact ⟨s1, t, hi.trans ((guarded_skips _ h).trans hskip), hrun, hdone⟩

/-- Settles O8: the execute tick is `reserved`, which is refused under the condition and a skip without it. -/
theorem reservedOpcodes : Obligations.ReservedOpcodes := by
  intro f s
  obtain ⟨hmul, hmuls, henc, hones⟩ := exec_reserved f s
  refine ⟨?_, fun h => ?_, fun hnat h => ?_⟩
  · simp only [List.forall_mem_cons]
    exact ⟨Laws.EncodingFields.mul f, Laws.EncodingFields.muls f, Laws.EncodingFields.enc f, Laws.EncodingFields.ones f,
      by simp⟩
  · exact ⟨hmul.trans (reserved_holds _ h), hmuls.trans (reserved_holds _ h), henc.trans (reserved_holds _ h),
      hones.trans (reserved_holds _ h)⟩
  · simp only [List.forall_mem_cons]
    exact ⟨reserved_skips hmul hnat h, reserved_skips hmuls hnat h, reserved_skips henc hnat h, reserved_skips hones hnat h,
      by simp⟩

end Sys2Proof.Machine
end

section
/-! What stops the machine (spec/30_encoding.md R109, spec/60_exceptions.md R500, R503): a refusal is raised by a reserved opcode
or by the interpreted strategy, and a machine whose units are all native keeps them native, because no operation changes the
strategy of a unit and a COGINIT creates native ones. -/

namespace Sys2Proof.Machine

/-! ## Native units -/

/-- The slot is empty or holds a unit of the native strategy. -/
def CogUnit.NativeIfPresent (u : CogUnit) : Prop := u.active = true → u.strategy = .native

/-- Every unit is native. -/
def State.AllNative (s : State) : Prop := ∀ k : UnitIx, s.units[k].NativeIfPresent

/-- Registers, flags and latches do not matter. -/
theorem CogUnit.NativeIfPresent.of_hidden_eq {u v : CogUnit} (hu : u.NativeIfPresent) (h : v.hidden = u.hidden) :
    v.NativeIfPresent := by
  have hactive : v.hidden.active = u.hidden.active := by rw [h]
  have hstrategy : v.hidden.strategy = u.hidden.strategy := by rw [h]
  exact fun ha => hstrategy.trans (hu (hactive.symm.trans ha))

theorem CogUnit.create_nativeIfPresent (programAddress parameter : Long) :
    (CogUnit.create .native programAddress parameter).NativeIfPresent := fun _ => rfl

theorem CogUnit.vacant_nativeIfPresent : CogUnit.vacant.NativeIfPresent := fun _ => rfl

theorem CogUnit.burn_hidden (u : CogUnit) (v : View) : (u.burn v).hidden = u.hidden := by
  unfold CogUnit.burn
  simp only
  split
  · split
    · exact CogUnit.complete_hidden _ v
    · rfl
  · rfl

theorem CogUnit.burnPrewait_hidden (u : CogUnit) : u.burnPrewait.hidden = u.hidden := by
  unfold CogUnit.burnPrewait
  simp only
  split <;> rfl

theorem CogUnit.loadCell_strategy (u : CogUnit) (a : Nat) (x : Long) : (u.loadCell a x).strategy = u.strategy := by
  unfold CogUnit.loadCell
  split <;> rfl

section
variable {s : State}

theorem State.AllNative.unit (h : s.AllNative) : s.unit.NativeIfPresent := h s.cur

theorem State.AllNative.setSlot {u : CogUnit} (h : s.AllNative) (k : UnitIx) (hu : u.NativeIfPresent) :
    (s.setSlot k u).AllNative := fun j => by
  by_cases e : k = j
  · subst e; rwa [State.units_setSlot_self]
  · rw [State.units_setSlot_of_ne s u k j e]; exact h j

theorem State.AllNative.setUnit {u : CogUnit} (h : s.AllNative) (hu : u.NativeIfPresent) : (s.setUnit u).AllNative :=
  h.setSlot s.cur hu

theorem State.AllNative.setPipe (h : s.AllNative) (p : Pipe) : (s.setPipe p).AllNative := h.setUnit h.unit

/-! ## What keeps the units native -/

theorem coginitStart_allNative (h : s.AllNative) (id : UnitIx) (d : Long) : (coginitStart s id d).AllNative :=
  h.setSlot id (CogUnit.create_nativeIfPresent _ _)

theorem stopUnit_allNative (h : s.AllNative) (id : UnitIx) : (stopUnit s id).AllNative :=
  h.setSlot id CogUnit.vacant_nativeIfPresent

theorem hubCoginit_allNative (h : s.AllNative) : (hubCoginit s).AllNative := by
  have hstart := coginitStart_allNative h
  unfold hubCoginit
  simp only
  split
  · split
    · exact (hstart _ _).setPipe _
    · exact h.setPipe _
  · split
    · exact hstart _ _
    · exact (hstart _ _).setPipe _

theorem hubCogstop_allNative (h : s.AllNative) : (hubCogstop s).AllNative := by
  have hstop := stopUnit_allNative h
  unfold hubCogstop
  simp only
  split
  · exact hstop _
  · exact (hstop _).setPipe _

/-- Hub memory, the locks and the clock register are free in this. -/
theorem State.AllNative.shared_setPipe (h : s.AllNative) (mem : List Host.Cell) (alloc locks clk : BitVec 8) (p : Pipe) :
    (({ s with mem := mem, lockAlloc := alloc, lockState := locks, clk := clk } : State).setPipe p).AllNative :=
  State.AllNative.setPipe (s := { s with mem := mem, lockAlloc := alloc, lockState := locks, clk := clk }) h p

theorem hubLocknew_allNative (h : s.AllNative) : (hubLocknew s).AllNative := by
  unfold hubLocknew
  split
  · exact h.shared_setPipe _ _ _ _ _
  · exact h.setPipe _

theorem hubTransact_allNative (h : s.AllNative) : (hubTransact s).AllNative := by
  unfold hubTransact
  cases s.unit.pipe.hubKind with
  | coginit => exact hubCoginit_allNative h
  | cogstop => exact hubCogstop_allNative h
  | locknew => exact hubLocknew_allNative h
  | _ => exact h.shared_setPipe _ _ _ _ _

theorem pollVideo_allNative (h : s.AllNative) : (pollVideo s).AllNative := by
  unfold pollVideo
  split
  · have hcleared : ({ s.unit with vid := { s.unit.vid with vidAck := false } } : CogUnit).NativeIfPresent := h.unit
    exact (h.setUnit hcleared).setPipe _
  · exact h

/-- A poll, whatever it tests, loads latches or does nothing. -/
theorem poll_allNative {ready : Prop} [Decidable ready] (h : s.AllNative) (res : Result) (n : Nat) :
    (if ready then satisfied s res n else s).AllNative := by
  split
  · exact h.setPipe _
  · exact h

theorem finishUnit_allNative (h : s.AllNative) : (finishUnit s).AllNative := h.setUnit h.unit

end

/-! ## Outcomes -/

/-- The outcome is a next state with the property, or the refusal of a reserved opcode. -/
def Continues (P : State → Prop) (o : Out) : Prop := (∃ t, o = .next t ∧ P t) ∨ ∃ r, o = .refused r ∧ r.isReserved = true

theorem continues_next {P : State → Prop} {t : State} (h : P t) : Continues P (.next t) := .inl ⟨t, rfl, h⟩

theorem continues_andThen {P Q : State → Prop} {o : Out} {g : State → Out} (ho : Continues P o)
    (hg : ∀ t, o = .next t → P t → Continues Q (g t)) : Continues Q (andThen o g) := by
  obtain ⟨t, rfl, ht⟩ | ⟨r, rfl, hr⟩ := ho
  · exact hg t rfl ht
  · exact .inr ⟨r, rfl, hr⟩

/-! ## The parts of a tick -/

/-- A native unit's program load goes on or boots it (R150, R151). -/
theorem loadLong_continues {s : State} (h : s.AllNative) (hu : s.unit.strategy = .native) :
    Continues State.AllNative (loadLong s) := by
  have hload := s.unit.loadCell_strategy s.unit.count (memRead s.mem s.unit.programAddress 4)
  unfold loadLong
  generalize s.unit.loadCell s.unit.count (memRead s.mem s.unit.programAddress 4) = u at hload
  have hnative : u.strategy = .native := hload.trans hu
  simp only
  split
  · unfold boot
    simp only [State.unit_setUnit, hnative, State.setUnit_setUnit]
    exact continues_next (h.setUnit fun _ => rfl)
  · exact continues_next (h.setUnit fun _ => hnative)

theorem hubHook_continues {s : State} (h : s.AllNative) (hu : s.unit.strategy = .native) :
    Continues State.AllNative (hubHook s) := by
  unfold hubHook
  cases s.unit.pipe.runState with
  | loadingProgram => exact loadLong_continues h hu
  | hubReadByte | hubReadWord | hubReadLong => exact continues_next (h.setPipe _)
  | hubOperation => exact continues_next (hubTransact_allNative h)
  | _ => exact continues_next h

theorem hubGrant_continues {s : State} (h : s.AllNative) : Continues State.AllNative (hubGrant s) := by
  unfold hubGrant
  split
  next k _ =>
    split
    next ha => exact hubHook_continues (s := { s with cur := k }) h (h k ha)
    next => exact continues_next h
  next => exact continues_next h

/-- The execute tick of a native unit is refused for a reserved opcode only (R109). -/
theorem executeTick_continues {s : State} (h : s.AllNative) (hu : s.unit.strategy = .native) :
    Continues State.AllNative (executeTick s) := by
  unfold executeTick
  simp only [hu]
  have hout := exec_outcome (decode s.unit.pipe.ir) s
  generalize exec (decode s.unit.pipe.ir) s = o at hout ⊢
  cases hout with
  | tail => exact continues_next (h.setPipe _)
  | prewait => exact continues_next (h.setPipe _)
  | wait => exact continues_next (h.setPipe _)
  | refused why hwhy => exact .inr ⟨why, rfl, hwhy⟩

/-- A native unit whose latches are legal is in no run state of the interpreted strategy (R171, R172). -/
theorem progress_continues {s : State} (h : s.AllNative) (hu : s.unit.Sound) : Continues State.AllNative (progress s) := by
  have hstrategy := h.unit hu.present
  have hlatches := hu.latches
  unfold progress
  cases hr : s.unit.pipe.runState with
  | bootingInterpreter | waitingInterpreter | fetchingInterpreter =>
    exact absurd hlatches (by simp [Pipe.legal, hr, RunState.isNative])
  | executingInstruction => exact executeTick_continues h hstrategy
  | waitingCycles => exact continues_next (h.setUnit (h.unit.of_hidden_eq (CogUnit.burn_hidden _ _)))
  | waitingPrewait => exact continues_next (h.setUnit (h.unit.of_hidden_eq (CogUnit.burnPrewait_hidden _)))
  | waitingPinsEqual | waitingPinsNotEqual | waitingCounter => exact continues_next (poll_allNative h _ _)
  | waitingVideo => exact continues_next (pollVideo_allNative h)
  | loadingProgram | hubReadByte | hubReadWord | hubReadLong | hubOperation => exact continues_next h

theorem stepUnit_continues {s : State} (h : s.AllNative) (hs : s.Sound) (k : UnitIx) :
    Continues State.AllNative (stepUnit k s) := by
  cases ha : s.units[k].active with
  | false => rw [stepUnit_vacant ha]; exact continues_next h
  | true =>
    rw [stepUnit_present ha]
    exact continues_andThen (progress_continues (s := { s with cur := k }) h (hs.unit_sound ha)) fun t _ ht =>
      continues_next (finishUnit_allNative ht)

theorem stepUnits_continues (l : List UnitIx) {s : State} (h : s.AllNative) (hs : s.Sound) :
    Continues State.AllNative (stepUnits l s) := by
  induction l generalizing s with
  | nil => exact continues_next h
  | cons k l ih => exact continues_andThen (stepUnit_continues h hs k) fun t e ht => ih ht (stepUnit_sound hs e).1

/-- A tick of a legal machine of native units (R380). -/
theorem step_continues {s : State} (hlegal : s.legal) (h : s.AllNative) : Continues State.AllNative (step s) := by
  have hs := (State.legal_iff.1 hlegal).1
  have hbegin : (beginTick s).Sound := ⟨hs.memory, hs.slots⟩
  exact continues_andThen (hubGrant_continues (s := beginTick s) h) fun g hg hgrant =>
    continues_andThen (stepUnits_continues _ hgrant (hubGrant_sound hbegin hg)) fun q _ hq => continues_next hq

/-- Settles O50: every part of a tick continues, and what a step leaves is legal. -/
theorem onlyReservedOpcodesStop : Obligations.OnlyReservedOpcodesStop := by
  intro s hlegal hnative
  obtain ⟨t, hstep, ht⟩ | hrefused := step_continues hlegal hnative
  · exact .inl ⟨t, hstep, stepKeepsLegal s t hlegal hstep, ht⟩
  · exact .inr hrefused

end Sys2Proof.Machine
end

section
/-! The condition evaluator (spec/40_condition_evaluator.md R130, R131): a code is its own truth table, one bit for each setting
of the flags, so each column of the table reads one bit of the sixteen codes. -/

namespace Sys2Proof.Machine

@[simp] theorem evaluate_nc_nz (code : BitVec 4) : evaluate code false false = code.getLsbD 0 := rfl
@[simp] theorem evaluate_nc_z (code : BitVec 4) : evaluate code false true = code.getLsbD 1 := rfl
@[simp] theorem evaluate_c_nz (code : BitVec 4) : evaluate code true false = code.getLsbD 2 := rfl
@[simp] theorem evaluate_c_z (code : BitVec 4) : evaluate code true true = code.getLsbD 3 := rfl

/-- Settles O5, column by column of the table: where the flags are known, a row is one bit of its code. -/
theorem conditionTable : Obligations.ConditionTable := by
  intro c z
  cases c with
  | false =>
    cases z with
    | false => simp only [evaluate_nc_nz]; decide
    | true => simp only [evaluate_nc_z]; decide
  | true =>
    cases z with
    | false => simp only [evaluate_c_nz]; decide
    | true => simp only [evaluate_c_z]; decide

end Sys2Proof.Machine
end

section
/-! The execute tick of all 83 instructions and the instruction that is skipped (spec/41_unit_state_machine.md R160, R161, R166,
spec/70_reset_and_hazards.md R545): what the tick leaves in the latches, and that the fetch of the next instruction comes before
the write-back. -/

namespace Sys2Proof.Machine

/-- Whatever an instruction does under its condition, without it its execute tick is the skip (R161). -/
theorem exec_skips {i : Instr} {s : State} (h : ¬ s.holds i.fields) : exec i s = skip i s := by
  cases exec_shape i s with
  | plain rule e => exact e.trans (guarded_skips _ h)
  | branch rule target e => exact e.trans (guarded_skips _ h)
  | hubRead state hub e => exact e.trans (guarded_skips _ h)
  | hubOp kind e => exact e.trans (guarded_skips _ h)
  | wait state legal e => exact e.trans (guarded_skips _ h)
  | reserved why res e => exact e.trans (guarded_skips _ h)
  | skip never e => exact e

/-- Settles O6: the execute tick is the skip, whose latches are read off and whose burn commits nothing. -/
theorem skippedInstruction : Obligations.SkippedInstruction := by
  intro i s hnat h
  obtain ⟨s1, hskip, hburn⟩ := skip_completes i hnat
  have hlatches : s1 = s.setPipe ((s.latchInstr i).offerNothing.beginTail 3) := by cases hskip; rfl
  refine ⟨s1, (exec_skips h).trans hskip, ?_, ?_, ?_, ?_, ?_, ?_, ?_, ?_, hburn⟩ <;> simp [hlatches]

/-- Settles O9, by what the execute tick begins: a tail, a prewait or a wait. -/
theorem executeTickFrame : Obligations.ExecuteTickFrame := by
  intro i s t h
  have hout := exec_outcome i s
  rw [h] at hout
  refine ⟨exec_frame h, ?_⟩
  cases hout with
  | tail p n hn hir hop hd => simpa using ⟨hir, hop, hd⟩
  | prewait p state hub hir hop hd => simpa using ⟨hir, hop, fun _ => hd⟩
  | wait p state hwait hir hop hd => simpa using ⟨hir, hop, fun _ => hd⟩

/-- A plain instruction whose destination is the following address and no read-only one: the old contents of that address are
the next instruction, and it reads as the result afterwards (R168, R545). -/
theorem plain_modifies_next {i : Instr} {s : State} (rule : Inputs → Result) (hi : exec i s = plain i s rule)
    (hnat : s.native) (h : s.holds i.fields) (hwr : i.fields.wr = true) (hd : i.fields.d = s.unit.pc + 1)
    (hro : readOnly i.fields.d = false) :
    ∃ s1 t, exec i s = .next s1 ∧ progressN 3 s1 = .next t ∧ t.unit.pc = i.fields.d ∧
      t.unit.pipe.ir = s.readReg i.fields.d ∧ t.readReg i.fields.d = (rule (s.inputs i.fields)).r := by
  obtain ⟨s1, hexec, -, t, hrun, hdone⟩ := plain_completes rule hi hnat h
  exact ⟨s1, t, hexec, hrun, hdone.pc.trans hd.symm, hd ▸ hdone.fetched, (hdone.regs _).trans (if_pos ⟨hwr, rfl, hro⟩)⟩

theorem readOnly_of_cell {a : CogAddr} (h : a.toNat < sprBase) : readOnly a = false := by
  rw [readOnly_eq_fixed, locate_cell h]; rfl

/-- A field move that modifies the following cell (R273 to R275, R545). -/
theorem field_move_modifies_next {i : Instr} {s : State} {lo : Nat} {rule : Inputs → Result} (hi : exec i s = plain i s rule)
    (hrule : ∀ x, (rule x).r = replaceField x lo) (hlo : lo = 0 ∨ lo = 9 ∨ lo = 23) (hnat : s.native)
    (h : s.holds i.fields) (hwr : i.fields.wr = true) (hd : i.fields.d = s.unit.pc + 1) (hcell : i.fields.d.toNat < sprBase) :
    ∃ s1 t, exec i s = .next s1 ∧ progressN 3 s1 = .next t ∧ t.unit.pc = i.fields.d ∧
      t.unit.pipe.ir = s.readReg i.fields.d ∧ ∀ j < 32, (t.readReg i.fields.d).getLsbD j =
        if lo ≤ j ∧ j < lo + 9 then (s.source i.fields.src).getLsbD (j - lo) else (s.readReg i.fields.d).getLsbD j := by
  obtain ⟨s1, t, hexec, hrun, hpc, hir, hreg⟩ := plain_modifies_next rule hi hnat h hwr hd (readOnly_of_cell hcell)
  refine ⟨s1, t, hexec, hrun, hpc, hir, fun j hj => ?_⟩
  rw [hreg, hrule, replaceField_bit _ lo j hlo hj]
  rfl

/-- Settles O38: MOVS, MOVD and MOVI are field moves at bits 0, 9 and 23. -/
theorem fetchBeforeWriteBack : Obligations.FetchBeforeWriteBack := by
  intro f s hnat h hwr hd hcell
  simp only [List.forall_mem_cons]
  exact ⟨field_move_modifies_next (i := .movs f) (rule := resMovs s.anyC) rfl (fun _ => rfl) (by decide) hnat h hwr hd hcell,
    field_move_modifies_next (i := .movd f) (rule := resMovd s.anyC) rfl (fun _ => rfl) (by decide) hnat h hwr hd hcell,
    field_move_modifies_next (i := .movi f) (rule := resMovi s.anyC) rfl (fun _ => rfl) (by decide) hnat h hwr hd hcell,
    by simp⟩

end Sys2Proof.Machine
end

section
/-! The blocking waits (spec/41_unit_state_machine.md R155, R156, R159, spec/46_native_branch_wait.md R358 to R361): a poll either
leaves the machine as it is or loads the write-back latch and begins the tail. -/

namespace Sys2Proof.Machine

/-! ## The polls -/

section
variable {w : State}

/-- The port tested is INA, because the parameter `WAIT_PORT_BY_C` is false (assumption 7). -/
theorem progress_waitingPinsEqual (hr : w.unit.pipe.runState = .waitingPinsEqual) :
    progress w = .next (if w.pinIn.extractLsb' 0 32 &&& w.unit.pipe.opS = w.unit.pipe.opD
      then satisfied w w.anyOffer waitTail else w) := by
  unfold progress; rw [hr]; rfl

theorem progress_waitingPinsNotEqual (hr : w.unit.pipe.runState = .waitingPinsNotEqual) :
    progress w = .next (if w.pinIn.extractLsb' 0 32 &&& w.unit.pipe.opS ≠ w.unit.pipe.opD
      then satisfied w w.anyOffer waitTail else w) := by
  unfold progress; rw [hr]; rfl

theorem progress_waitingCounter (hr : w.unit.pipe.runState = .waitingCounter) :
    progress w = .next (if w.counter = w.unit.pipe.opD then satisfied w (resWaitcnt
      { d := w.unit.pipe.opD, s := w.unit.pipe.opS, c := w.unit.c, z := w.unit.z }) waitTail else w) := by
  unfold progress; rw [hr]; rfl

/-- The acknowledge of the generator, cleared. -/
def State.acknowledged (w : State) : State := w.setUnit { w.unit with vid := { w.unit.vid with vidAck := false } }

theorem progress_waitingVideo (hr : w.unit.pipe.runState = .waitingVideo) :
    progress w = .next (if w.unit.vid.vidAck then satisfied w.acknowledged w.anyOffer vidTail else w) := by
  unfold progress; rw [hr]; rfl

end

/-! ## The waits -/

/-- A wait whose execute tick enters `state` completes as `CompletesWait` says, if the poll in that state, with the operands of
the execute tick latched, tests `ready` and loads `offered`. -/
theorem waitSeq_completes {i : Instr} {s : State} {state : RunState} {n : Nat} {ready : State → Prop} [DecidablePred ready]
    {done : State → State} {offer : State → Result → Prop} (offered : State → Result) (hn : n + 1 < 2 ^ 32)
    (hi : exec i s = waitSeq i s state) (h : s.holds i.fields)
    (poll : ∀ w, w.unit.pipe.runState = state → w.unit.pipe.opD = s.readReg i.fields.d →
      w.unit.pipe.opS = s.source i.fields.src →
      progress w = .next (if ready w then satisfied (done w) (offered w) (n + 1) else w) ∧ offer w (offered w))
    (hdone : ∀ w, (w.native → (done w).native) ∧ (done w).unit.pipe = w.unit.pipe) :
    CompletesWait i s state (n + 1) ready done offer := by
  refine wait_completes (s.operandPipe i) hn (hi.trans (waitSeq_holds state h)) rfl rfl fun w _ hp hnat => ?_
  obtain ⟨hpoll, hoffer⟩ := poll w (by rw [hp]) (by rw [hp]; rfl) (by rw [hp]; rfl)
  refine ⟨fun hno => by rw [hpoll, if_neg hno], fun hready => ⟨offered w, ?_⟩⟩
  exact ⟨by rw [hpoll, if_pos hready], hoffer, (hdone w).1 hnat, (hdone w).2⟩

/-- Settles O23: the polls of the two pin waits test the low port under the mask against `D`. -/
theorem pinWaits : Obligations.PinWaits := by
  intro f s hnat h
  refine ⟨?_, ?_, ?_⟩
  · simp only [List.forall_mem_cons]
    exact ⟨Laws.EncodingFields.waitpeq f, Laws.EncodingFields.waitpne f, by simp⟩
  · refine waitSeq_completes (n := 3) State.anyOffer (by decide) rfl h (fun w hr hd hs => ⟨?_, trivial⟩) fun w => ⟨id, rfl⟩
    rw [progress_waitingPinsEqual hr, hd, hs]
    rfl
  · refine waitSeq_completes (n := 3) State.anyOffer (by decide) rfl h (fun w hr hd hs => ⟨?_, trivial⟩) fun w => ⟨id, rfl⟩
    rw [progress_waitingPinsNotEqual hr, hd, hs]
    rfl

/-- What WAITCNT offers (R360). -/
theorem resWaitcnt_eq (x : Inputs) :
    (resWaitcnt x).r = x.d + x.s ∧ (resWaitcnt x).c = decide (2 ^ 32 ≤ x.d.toNat + x.s.toNat) ∧
      (resWaitcnt x).z = (x.d + x.s == 0) := by
  have hsum := ofInt_toNat_add x.d x.s
  refine ⟨hsum, ?_, congrArg (· == 0) hsum⟩
  show decide _ = decide _
  rw [decide_eq_decide]
  omega

/-- Settles O24: the poll tests all 32 bits of the counter and offers the sum with its carry. -/
theorem counterWait : Obligations.CounterWait := by
  intro f s hnat h
  refine ⟨?_, ?_⟩
  · simp only [List.forall_mem_cons]
    exact ⟨Laws.EncodingFields.waitcnt f, by simp⟩
  · refine waitSeq_completes (n := 3)
      (fun w => resWaitcnt { d := w.unit.pipe.opD, s := w.unit.pipe.opS, c := w.unit.c, z := w.unit.z }) (by decide) rfl h
      (fun w hr hd hs => ?_) fun w => ⟨id, rfl⟩
    rw [progress_waitingCounter hr, hd, hs]
    exact ⟨rfl, resWaitcnt_eq _⟩

/-- Settles O25: the poll tests the acknowledge and clears it before it begins the tail. -/
theorem videoWait : Obligations.VideoWait := by
  intro f s hnat h
  refine ⟨?_, ?_⟩
  · simp only [List.forall_mem_cons]
    exact ⟨Laws.EncodingFields.waitvid f, by simp⟩
  · refine waitSeq_completes (n := 1) State.anyOffer (by decide) rfl h (fun w hr _ _ => ?_) fun w => ⟨fun hw => ?_, ?_⟩
    · exact ⟨progress_waitingVideo hr, trivial⟩
    · unfold State.native at hw ⊢
      rw [State.unit_setUnit]
      exact hw
    · rw [State.unit_setUnit]

/-! ## The wait that is never satisfied -/

/-- Under a mask no bit outside the mask is 1. -/
theorem masked_ne_of_bit_outside {x mask d : Long} (h : d &&& ~~~mask ≠ 0) : x &&& mask ≠ d := by
  rintro rfl
  exact h (by rw [BitVec.and_assoc, BitVec.and_not_self]; exact BitVec.and_zero)

theorem progressN_of_stuck {s : State} (h : progress s = .next s) (n : Nat) : progressN n s = .next s := by
  induction n with
  | zero => rfl
  | succ n ih => rw [progressN_succ, h]; exact ih

/-- Settles O26: the masked port has no bit outside the mask, so the poll leaves the machine as it is, tick after tick. -/
theorem hopelessPinWait : Obligations.HopelessPinWait := by
  intro w hr hbit n pins
  refine progressN_of_stuck ?_ n
  rw [progress_waitingPinsEqual (w := { w with pinIn := pins }) hr, if_neg]
  exact masked_ne_of_bit_outside hbit

end Sys2Proof.Machine
end

section
/-! The hub hook (spec/41_unit_state_machine.md R145, R150, R151, R158): the states that use no window, the program load, and the
hub operations that start and stop units (spec/43_native_hub_ops.md R231, R232, spec/47_hub_arbiter.md R396, R397). -/

namespace Sys2Proof.Machine

/-! ## States that use no window -/

theorem hubHook_unused {s : State} (hload : s.unit.pipe.runState ≠ .loadingProgram)
    (hhub : s.unit.pipe.runState.isHub = false) : hubHook s = .next s := by
  unfold hubHook
  split
  next hr => exact absurd hr hload
  next hr => rw [hr] at hhub; cases hhub
  next hr => rw [hr] at hhub; cases hhub
  next hr => rw [hr] at hhub; cases hhub
  next hr => rw [hr] at hhub; cases hhub
  next => rfl

/-- Settles O40. -/
theorem unusedWindow : Obligations.UnusedWindow := fun _ => hubHook_unused

/-! ## The program load -/

/-- The loading unit after one more long, with the load count `n`. -/
def State.loadedUnit (s : State) (n : Nat) : CogUnit :=
  { s.unit with
    mem := Cells.put s.unit.mem s.unit.count (memRead s.mem s.unit.programAddress 4)
    programAddress := s.unit.programAddress + 4
    count := n }

theorem CogUnit.loadCell_eq (u : CogUnit) {a : Nat} (v : Long) (h : a < sprBase) :
    u.loadCell a v = { u with mem := Cells.put u.mem a v } := if_pos h

/-- Before the last long the load goes on (R150). -/
theorem loadLong_goes_on {s : State} (h : s.unit.count < 495) :
    loadLong s = .next (s.setUnit (s.loadedUnit (s.unit.count + 1))) := by
  have hcell : s.unit.count < sprBase := Nat.lt_trans h (by decide)
  have hmore : s.unit.count + 1 ≠ sprBase := by simp only [sprBase]; omega
  unfold loadLong
  rw [CogUnit.loadCell_eq _ _ hcell]
  exact if_neg hmore

/-- The last long boots the native unit with the count at 0 (R150, R151). -/
theorem loadLong_boots {s : State} (h : s.unit.count = 495) (hnat : s.unit.strategy = .native) :
    loadLong s = .next (s.setUnit ((s.loadedUnit 0).bootNative (s.viewOf s.cur))) := by
  have hcell : s.unit.count < sprBase := h ▸ (by decide)
  have hlast : s.unit.count + 1 = sprBase := h ▸ rfl
  have hboot : boot (s.setUnit (s.loadedUnit 0)) = .next (s.setUnit ((s.loadedUnit 0).bootNative (s.viewOf s.cur))) := by
    unfold boot
    rw [State.unit_setUnit, show (s.loadedUnit 0).strategy = .native from hnat, State.setUnit_setUnit]
    rfl
  unfold loadLong
  rw [CogUnit.loadCell_eq _ _ hcell]
  exact (if_pos hlast).trans hboot

theorem State.loadedUnit_get {s : State} (hmem : s.unit.memWf = true) (n a : Nat) :
    Cells.get (s.loadedUnit n).mem a =
      if a = s.unit.count then memRead s.mem s.unit.programAddress 4 else Cells.get s.unit.mem a := by
  split
  next h => rw [h]; exact Cells.get_put_self _ hmem
  next h => exact Cells.get_put_of_ne _ _ h

/-- The boot fetches what cell 0 reads as after it (R151). -/
theorem CogUnit.bootNative_ir (u : CogUnit) (v : View) : (u.bootNative v).pipe.ir = (u.bootNative v).read v 0 :=
  (CogUnit.read_pipe { u with pc := 0, pcFresh := true, c := false, z := false } _ v 0).symm

/-- Settles O39: the long is stored and the load goes on, or it was the last one and the unit boots. -/
theorem programLoad : Obligations.ProgramLoad := by
  intro s hnat hr hcount
  have hhook : hubHook s = loadLong s := by unfold hubHook; rw [hr]
  rw [hhook]
  obtain hlt | heq : s.unit.count < 495 ∨ s.unit.count = 495 := by omega
  · refine ⟨_, loadLong_goes_on hlt, by rw [State.unit_setUnit], ?_⟩
    simp only [State.unit_setUnit]
    exact ⟨rfl, fun a _ => State.loadedUnit_get hnat.2 _ a, fun _ => ⟨rfl, rfl, rfl⟩, fun e => absurd e (by omega)⟩
  · refine ⟨_, loadLong_boots heq hnat.1, by rw [State.unit_setUnit], ?_⟩
    simp only [State.unit_setUnit]
    refine ⟨rfl, fun a _ => State.loadedUnit_get hnat.2 0 a, fun e => absurd e (by omega), fun _ => ?_⟩
    refine ⟨rfl, rfl, rfl, rfl, rfl, ?_⟩
    rw [State.readReg, State.unit_setUnit, State.viewOf_setUnit, State.setUnit_cur]
    exact CogUnit.bootNative_ir _ _

/-! ## Hub operations -/

theorem hubHook_hubOperation {w : State} (hr : w.unit.pipe.runState = .hubOperation) : hubHook w = .next (hubTransact w) := by
  unfold hubHook; rw [hr]

/-- The latches of a unit that waits for the window of its hub operation: the kind and the destination operand. -/
structure State.Operates (w : State) (kind : HubKind) (d : Long) : Prop where
  runs : w.unit.pipe.runState = .hubOperation
  kind : w.unit.pipe.hubKind = kind
  opD : w.unit.pipe.opD = d

/-- A hub operation completes as `CompletesHub` says, if its transaction ends `done`. -/
theorem hubOpSeq_completes {i : Instr} {s : State} {kind : Inputs → HubKind} {good : State → Prop} {done : State → State}
    {offer : State → Result → Prop} (hi : exec i s = hubOpSeq i s kind) (h : s.holds i.fields)
    (transact : ∀ w, w.cur = s.cur → w.Operates (kind (s.inputs i.fields)) (s.readReg i.fields.d) → good w →
      ∃ res, hubTransact w = endTransaction (done w) res ∧ offer w res ∧ (done w).unit = w.unit) :
    CompletesHub i s .hubOperation good done offer := by
  refine hub_completes { s.operandPipe i with hubKind := kind (s.inputs i.fields) } (hi.trans (hubOpSeq_holds kind h)) rfl rfl
    fun w hcur hp hnat hgood => ?_
  have hops : w.Operates (kind (s.inputs i.fields)) (s.readReg i.fields.d) := ⟨by rw [hp], by rw [hp], by rw [hp]; rfl⟩
  obtain ⟨res, htransact, hoffer, hunit⟩ := transact w hcur hops hgood
  refine ⟨res, ?_, hoffer, ?_, by rw [hunit]⟩
  · rw [hubHook_hubOperation hops.runs, htransact]
  · unfold State.native at hnat ⊢; rwa [hunit]

/-- A hub operation that ends in its hub hook: the unit is not there any more, or is a new one (R158). -/
theorem hubOpSeq_ends {i : Instr} {s : State} {kind : Inputs → HubKind} {done : State → State}
    (hi : exec i s = hubOpSeq i s kind) (h : s.holds i.fields)
    (transact : ∀ w, w.cur = s.cur → w.Operates (kind (s.inputs i.fields)) (s.readReg i.fields.d) →
      hubTransact w = done w) :
    ∃ s1 s2, exec i s = .next s1 ∧ progressN 2 s1 = .next s2 ∧ s2 = s.setPipe s2.unit.pipe ∧
      ∀ w, w.blockedAs s2 → hubHook w = .next (done w) := by
  refine ⟨_, _, hi.trans (hubOpSeq_holds kind h), prewait_arrives .hubOperation, by simp, fun w ⟨hcur, hp, _⟩ => ?_⟩
  rw [State.unit_setPipe] at hp
  have hops : w.Operates (kind (s.inputs i.fields)) (s.readReg i.fields.d) := ⟨by rw [hp], by rw [hp], by rw [hp]; rfl⟩
  rw [hubHook_hubOperation hops.runs, transact w hcur hops]

theorem Result.index_value (id : UnitIx) (c : Bool) :
    (Result.index id c).r.toNat = id.val ∧ (Result.index id c).z = decide (id.val = 0) := by
  revert id; cases c <;> decide

theorem State.unit_setSlot_of_ne (s : State) (u : CogUnit) {k : UnitIx} (h : k ≠ s.cur) : (s.setSlot k u).unit = s.unit :=
  s.units_setSlot_of_ne u k s.cur h

/-! ## COGSTOP -/

theorem hubTransact_cogstop {w : State} {d : Long} (h : w.Operates .cogstop d) :
    hubTransact w = if indexOf d = w.cur then w.setSlot (indexOf d) CogUnit.vacant
      else endTransaction (w.setSlot (indexOf d) CogUnit.vacant) (Result.index (indexOf d) w.anyC) := by
  rw [← h.opD]; unfold hubTransact; rw [h.kind]; rfl

/-- COGSTOP and HUBOP with the selector 3 (R227, R232). -/
theorem cogstop_completes {i : Instr} {s : State} (hi : exec i s = hubOpSeq i s hubSelect) (h : s.holds i.fields)
    (hsel : hubSelect (s.inputs i.fields) = .cogstop) :
    let id := indexOf (s.readReg i.fields.d)
    (id ≠ s.cur → CompletesHub i s .hubOperation (fun _ => True) (fun w => w.setSlot id CogUnit.vacant)
      (fun _ res => res.r.toNat = id.val ∧ res.z = decide (id.val = 0))) ∧
    (id = s.cur → ∃ s1 s2, exec i s = .next s1 ∧ progressN 2 s1 = .next s2 ∧ s2 = s.setPipe s2.unit.pipe ∧
      ∀ w, w.blockedAs s2 → hubHook w = .next (w.setSlot id CogUnit.vacant)) := by
  refine ⟨fun hother => hubOpSeq_completes hi h fun w hcur hops _ => ?_, fun hself => hubOpSeq_ends hi h fun w hcur hops => ?_⟩
  · rw [hsel] at hops
    rw [← hcur] at hother
    exact ⟨_, (hubTransact_cogstop hops).trans (if_neg hother), Result.index_value _ _, State.unit_setSlot_of_ne _ _ hother⟩
  · rw [hsel] at hops
    exact (hubTransact_cogstop hops).trans (if_pos (hself.trans hcur.symm))

/-- Settles O33: both spellings are the operation that the selector names. -/
theorem cogStop : Obligations.CogStop := by
  intro f s hnat h
  refine ⟨?_, fun hsel => ?_⟩
  · simp only [List.forall_mem_cons]
    exact ⟨Laws.EncodingFields.cogstop f, by simp⟩
  · have hkind : hubSelect (s.inputs f) = .cogstop := by unfold hubSelect State.inputs; rw [hsel]; rfl
    simp only [List.forall_mem_cons]
    exact ⟨cogstop_completes (i := .cogstop f) rfl h hkind, cogstop_completes (i := .hubop f) rfl h hkind, by simp⟩

/-! ## COGINIT -/

theorem slots_getElem (k : UnitIx) (h : k.val < ([0, 1, 2, 3, 4, 5, 6, 7] : List UnitIx).length) :
    ([0, 1, 2, 3, 4, 5, 6, 7] : List UnitIx)[k.val] = k := by
  revert k; decide

/-- The lowest index is the one below which the test fails. -/
theorem lowest_eq_some {test : UnitIx → Bool} {k : UnitIx} (h : test k = true) (hbelow : ∀ j < k, test j = false) :
    lowest test = some k := by
  refine List.find?_eq_some_iff_getElem.2 ⟨h, k.val, k.isLt, slots_getElem k k.isLt, fun j hj => ?_⟩
  have hget := slots_getElem ⟨j, hj.trans k.isLt⟩ (hj.trans k.isLt)
  rw [hget, hbelow ⟨j, hj.trans k.isLt⟩ hj]
  rfl

theorem lowest_eq_none {test : UnitIx → Bool} (h : ∀ k, test k = false) : lowest test = none :=
  List.find?_eq_none.2 fun k _ => by rw [h k]; decide

/-- The fields of `D` as numbers (R231). -/
theorem coginitAddress_eq (d : Long) : coginitAddress d = BitVec.ofNat 32 (d.toNat / 2 ^ 4 % 2 ^ 14 * 4) := by
  unfold coginitAddress
  apply BitVec.eq_of_toNat_eq
  simp [Nat.shiftRight_eq_div_pow, Nat.shiftLeft_eq]

theorem coginitParam_eq (d : Long) : coginitParam d = BitVec.ofNat 32 (d.toNat / 2 ^ 18 * 4) := by
  have hd := d.isLt
  unfold coginitParam
  apply BitVec.eq_of_toNat_eq
  simp [Nat.shiftRight_eq_div_pow, Nat.shiftLeft_eq]
  omega

/-- The unit that a COGINIT with the operand `d` starts. -/
def coginitUnit (d : Long) : CogUnit :=
  CogUnit.create .native (BitVec.ofNat 32 (d.toNat / 2 ^ 4 % 2 ^ 14 * 4)) (BitVec.ofNat 32 (d.toNat / 2 ^ 18 * 4))

theorem coginitStart_eq (s : State) (id : UnitIx) (d : Long) : coginitStart s id d = s.setSlot id (coginitUnit d) := by
  unfold coginitStart startUnit coginitUnit
  rw [coginitAddress_eq, coginitParam_eq]
  rfl

theorem hubTransact_coginit {w : State} {d : Long} (h : w.Operates .coginit d) : hubTransact w = hubCoginit w := by
  unfold hubTransact; rw [h.kind]

/-- A COGINIT that names its slot (R231, R158). -/
theorem hubCoginit_named {w : State} {d : Long} (h : w.unit.pipe.opD = d) (hbit : d.getLsbD 3 = false) :
    hubCoginit w = if indexOf d = w.cur then w.setSlot (indexOf d) (coginitUnit d)
      else endTransaction (w.setSlot (indexOf d) (coginitUnit d)) (Result.index (indexOf d) false) := by
  unfold hubCoginit
  simp only [h, hbit, coginitStart_eq]
  rfl

/-- A COGINIT that takes the lowest empty slot, or finds none (R231). -/
theorem hubCoginit_lowest {w : State} {d : Long} (h : w.unit.pipe.opD = d) (hbit : d.getLsbD 3 = true) :
    hubCoginit w = match lowest fun k => !w.units[k].active with
      | some k => endTransaction (w.setSlot k (coginitUnit d)) (Result.index k false)
      | none => endTransaction w (Result.index 7 true) := by
  unfold hubCoginit
  simp only [h, hbit, coginitStart_eq]
  rfl

/-- COGINIT and HUBOP with the selector 2 (R227, R231). -/
theorem coginit_completes {i : Instr} {s : State} (hi : exec i s = hubOpSeq i s hubSelect) (h : s.holds i.fields)
    (hsel : hubSelect (s.inputs i.fields) = .coginit) :
    let d := s.readReg i.fields.d
    let id := indexOf d
    (d.getLsbD 3 = true → ∀ k : UnitIx, CompletesHub i s .hubOperation
      (fun w => w.units[w.cur].active = true ∧ w.units[k].active = false ∧ ∀ j : UnitIx, j < k → w.units[j].active = true)
      (fun w => w.setSlot k (coginitUnit d))
      (fun _ res => (res.r.toNat = k.val ∧ res.z = decide (k.val = 0)) ∧ res.c = false)) ∧
    (d.getLsbD 3 = true → CompletesHub i s .hubOperation (fun w => ∀ j : UnitIx, w.units[j].active = true) (fun w => w)
      (fun _ res => (res.r.toNat = 7 ∧ res.z = decide (7 = 0)) ∧ res.c = true)) ∧
    (d.getLsbD 3 = false → id ≠ s.cur → CompletesHub i s .hubOperation (fun _ => True)
      (fun w => w.setSlot id (coginitUnit d))
      (fun _ res => (res.r.toNat = id.val ∧ res.z = decide (id.val = 0)) ∧ res.c = false)) ∧
    (d.getLsbD 3 = false → id = s.cur → ∃ s1 s2, exec i s = .next s1 ∧ progressN 2 s1 = .next s2 ∧
      s2 = s.setPipe s2.unit.pipe ∧ ∀ w, w.blockedAs s2 → hubHook w = .next (w.setSlot id (coginitUnit d))) := by
  intro d id
  refine ⟨fun hbit k => ?_, fun hbit => ?_, fun hbit hother => ?_, fun hbit hself => ?_⟩
  · refine hubOpSeq_completes hi h fun w _ hops ⟨hcur, hfree, hbelow⟩ => ⟨Result.index k false, ?_, ?_, ?_⟩
    · rw [hsel] at hops
      have hlowest : lowest (fun k => !w.units[k].active) = some k :=
        lowest_eq_some (by rw [hfree]; rfl) fun j hj => by rw [hbelow j hj]; rfl
      rw [hubTransact_coginit hops, hubCoginit_lowest hops.opD hbit, hlowest]
    · exact ⟨Result.index_value k false, rfl⟩
    · exact State.unit_setSlot_of_ne w _ fun e => by rw [e, hcur] at hfree; cases hfree
  · refine hubOpSeq_completes hi h fun w _ hops hfull => ⟨Result.index 7 true, ?_, ⟨Result.index_value 7 true, rfl⟩, rfl⟩
    rw [hsel] at hops
    rw [hubTransact_coginit hops, hubCoginit_lowest hops.opD hbit, lowest_eq_none fun k => by rw [hfull k]; rfl]
  · refine hubOpSeq_completes hi h fun w hcur hops _ => ⟨Result.index id false, ?_, ⟨Result.index_value id false, rfl⟩, ?_⟩
    · rw [hsel] at hops
      rw [hubTransact_coginit hops, hubCoginit_named hops.opD hbit]
      exact if_neg (hcur ▸ hother)
    · exact State.unit_setSlot_of_ne w _ (hcur ▸ hother)
  · refine hubOpSeq_ends hi h fun w hcur hops => ?_
    rw [hsel] at hops
    rw [hubTransact_coginit hops, hubCoginit_named hops.opD hbit]
    exact if_pos (hself.trans hcur.symm)

/-- Settles O34: both spellings are the operation that the selector names. -/
theorem cogInit : Obligations.CogInit := by
  intro f s hnat h
  refine ⟨?_, fun hsel => ?_⟩
  · simp only [List.forall_mem_cons]
    exact ⟨Laws.EncodingFields.coginit f, by simp⟩
  · have hkind : hubSelect (s.inputs f) = .coginit := by unfold hubSelect State.inputs; rw [hsel]; rfl
    simp only [List.forall_mem_cons]
    exact ⟨coginit_completes (i := .coginit f) rfl h hkind, coginit_completes (i := .hubop f) rfl h hkind, by simp⟩

end Sys2Proof.Machine
end

section
/-! The machine with one unit (spec/41_unit_state_machine.md R142, R160 to R169, spec/47_hub_arbiter.md R380): what a tick of
progress says of the unit holds of a tick of the machine, but for what the peripherals do by themselves; so an instruction that
completes ends, `n + 1` ticks of the machine after it began, as its completion says. -/

namespace Sys2Proof.Machine

/-! ## A step runs the decoded instruction -/

/-- The progress of a native unit at its execute tick (R152, R160). -/
theorem progress_executing {s : State} {i : Instr} (hnat : s.unit.strategy = .native)
    (hr : s.unit.pipe.runState = .executingInstruction) (hwf : i.wellFormed = true) (hir : s.unit.pipe.ir = encode i) :
    progress s = exec i s := by
  unfold progress executeTick
  rw [hr, hnat, hir, decodeOfEncode i hwf]

/-- Settles O44: the unit at its execute tick uses no window, so its step is its progress and the rest of its step. -/
theorem stepRunsDecoded : Obligations.StepRunsDecoded := by
  intro s k i hnat hr hwf hir
  refine ⟨fun halone => ?_, fun hactive => ?_⟩
  · have hhook : hubHook { beginTick s with cur := k } = .next { beginTick s with cur := k } :=
      hubHook_unused (s := { beginTick s with cur := k }) (hr.trans_ne (by decide)) ((congrArg _ hr).trans rfl)
    rw [step_alone halone hhook, progress_executing (s := { beginTick s with cur := k }) hnat hr hwf hir]
  · rw [stepUnit_present hactive, progress_executing (s := { s with cur := k }) hnat hr hwf hir]

/-! ## What the peripherals leave of a unit -/

/-- What of a unit its counters and its generator do not change by themselves, and the mark of a fresh program counter aside. -/
def CogUnit.still (u : CogUnit) : CogUnit :=
  { u with
    ctrA := { Counter.created with ctr := u.ctrA.ctr, frq := u.ctrA.frq }
    ctrB := { Counter.created with ctr := u.ctrB.ctr, frq := u.ctrB.frq }
    vid := { Video.created with vcfg := u.vid.vcfg, vscl := u.vid.vscl, pllAttached := u.vid.pllAttached }
    pcFresh := false }

/-- `v` is `u` after one tick of its counters and its generator. -/
structure CogUnit.Ticked (u v : CogUnit) : Prop where
  still : v.still = u.still
  phsA : v.ctrA.phs = u.ctrA.phs ∨ v.ctrA.phs = u.ctrA.phs + v.ctrA.frq
  phsB : v.ctrB.phs = u.ctrB.phs ∨ v.ctrB.phs = u.ctrB.phs + v.ctrB.frq

section
variable {u v : CogUnit} (h : v.still = u.still)
include h

theorem CogUnit.pipe_of_still : v.pipe = u.pipe := (congrArg CogUnit.pipe h :)

theorem CogUnit.active_of_still : v.active = u.active := (congrArg CogUnit.active h :)

theorem CogUnit.strategy_of_still : v.strategy = u.strategy := (congrArg CogUnit.strategy h :)

theorem CogUnit.mem_of_still : v.mem = u.mem := (congrArg CogUnit.mem h :)

theorem CogUnit.still_withPipe (p : Pipe) :
    ({ v with pipe := p } : CogUnit).still = ({ u with pipe := p } : CogUnit).still :=
  (congrArg (fun x : CogUnit => { x with pipe := p }) h :)

/-- Every register but the phases reads as before. -/
theorem CogUnit.read_of_still (x : View) {a : CogAddr} (ha : a ≠ 0x1FC) (hb : a ≠ 0x1FD) : v.read x a = u.read x a := by
  have hphs : (locate a = .phsa → a = 0x1FC) ∧ (locate a = .phsb → a = 0x1FD) := by revert a; decide +kernel
  have hread : ∀ w : CogUnit, w.read x a = w.still.read x a := fun w => by
    unfold CogUnit.read
    cases hl : locate a with
    | phsa => exact absurd (hphs.1 hl) ha
    | phsb => exact absurd (hphs.2 hl) hb
    | _ => rfl
  rw [hread v, hread u, h]

end

/-- The peripheral part of a unit's step (R142). -/
theorem CogUnit.clockPeripherals_ticked (u : CogUnit) (k : UnitIx) (pins : Pins) (tick : Nat) :
    u.Ticked { u.clockPeripherals k pins tick with pcFresh := false } := by
  obtain ⟨a, b, v, hclock, ⟨hctrA, hfrqA, hphsA⟩, ⟨hctrB, hfrqB, hphsB⟩, hvcfg, hvscl, hlink⟩ :=
    u.clockPeripherals_kept k pins tick
  rw [hclock]
  refine ⟨?_, hfrqA.symm ▸ hphsA, hfrqB.symm ▸ hphsB⟩
  unfold CogUnit.still
  simp only [hctrA, hfrqA, hctrB, hfrqB, hvcfg, hvscl, hlink]

/-! ## Ticks of a unit that is alone -/

/-- `t` is `s` after `n` ticks in which nothing outside slot `k` changed but the counter and the pins. -/
structure State.RanAlone (k : UnitIx) (n : Nat) (s t : State) : Prop where
  alone : t.alone k
  mem : t.mem = s.mem
  lockAlloc : t.lockAlloc = s.lockAlloc
  lockState : t.lockState = s.lockState
  clk : t.clk = s.clk
  counter : t.counter = s.counter + BitVec.ofNat 32 n
  others : ∀ j : UnitIx, j ≠ k → t.units[j] = s.units[j]

theorem State.RanAlone.trans {k : UnitIx} {m n : Nat} {s t r : State} (h : State.RanAlone k m s t)
    (h' : State.RanAlone k n t r) : State.RanAlone k (m + n) s r where
  alone := h'.alone
  mem := h'.mem.trans h.mem
  lockAlloc := h'.lockAlloc.trans h.lockAlloc
  lockState := h'.lockState.trans h.lockState
  clk := h'.clk.trans h.clk
  counter := by rw [h'.counter, h.counter, BitVec.ofNat_add, BitVec.add_assoc]
  others := fun j hj => (h'.others j hj).trans (h.others j hj)

theorem finishUnit_unit {q : State} {k : UnitIx} (h : q.cur = k) :
    (finishUnit q).units[k] = { q.unit.clockPeripherals k q.pinIn q.tick with pcFresh := false } := by
  subst h
  unfold finishUnit
  exact State.units_setSlot_self q _ q.cur

/-- The state in which unit `k` takes its part of the coming tick, if no unit before it has changed anything. -/
def State.turn (s : State) (k : UnitIx) : State := { beginTick s with cur := k }

@[simp] theorem State.turn_unit (s : State) (k : UnitIx) : (s.turn k).unit = s.units[k] := rfl

@[simp] theorem State.turn_setPipe_self (s : State) (k : UnitIx) : (s.turn k).setPipe s.units[k].pipe = s.turn k :=
  (s.turn k).setPipe_pipe

/-- A tick of the machine whose only unit uses no hub window is that unit's progress, then its peripherals. -/
theorem step_of_progress {k : UnitIx} {s q : State} (h : s.alone k) (hload : s.units[k].pipe.runState ≠ .loadingProgram)
    (hhub : s.units[k].pipe.runState.isHub = false) (hq : progress (s.turn k) = .next q)
    (hactive : q.unit.active = true) :
    ∃ t, step s = .next t ∧ State.RanAlone k 1 s t ∧ q.unit.Ticked t.units[k] := by
  have hcur : q.cur = k := progress_cur hq
  have hframe := progress_frame hq
  have hticked : q.unit.Ticked (endTick (finishUnit q)).units[k] :=
    (finishUnit_unit hcur : (endTick (finishUnit q)).units[k] = _) ▸ CogUnit.clockPeripherals_ticked _ _ _ _
  have hothers : ∀ j : UnitIx, j ≠ k → (endTick (finishUnit q)).units[j] = s.units[j] := fun j hj =>
    (finishUnit_units j (hcur ▸ hj)).trans (progress_units hq j hj)
  refine ⟨endTick (finishUnit q), ?_, ?_, hticked⟩
  · rw [step_alone h (hubHook_unused (s := s.turn k) hload hhub)]
    exact congrArg (andThen · _) hq
  · refine ⟨⟨(CogUnit.active_of_still hticked.still).trans hactive, fun j hj => ?_⟩, ?_, ?_, ?_, ?_, ?_, hothers⟩
    · rw [hothers j hj]; exact h.2 j hj
    all_goals rw [hframe]; rfl

theorem CogUnit.complete_kept (u : CogUnit) (v : View) :
    (u.complete v).active = u.active ∧ (u.complete v).strategy = u.strategy ∧ (u.complete v).breakpoint = u.breakpoint ∧
      (u.complete v).programAddress = u.programAddress ∧ (u.complete v).count = u.count := by
  have h := u.complete_hidden v
  exact ⟨(congrArg CogUnit.active h :), (congrArg CogUnit.strategy h :), (congrArg CogUnit.breakpoint h :),
    (congrArg CogUnit.programAddress h :), (congrArg CogUnit.count h :)⟩

/-- The latches at the end of a burn, before the completion. -/
def Pipe.burnt (p : Pipe) : Pipe := { p with stateArg := 0, runState := .executingInstruction }

/-- `n + 1` ticks of the machine in which its only unit burns the rest of an instruction: the unit runs on and completes. -/
theorem stepN_burn {k : UnitIx} {s : State} {n : Nat} (h : s.alone k) (hnat : s.units[k].strategy = .native)
    (hrun : s.units[k].pipe.runState = .waitingCycles) (harg : s.units[k].pipe.stateArg = BitVec.ofNat 32 (n + 1))
    (hn : n + 1 < 2 ^ 32) (hnext : s.units[k].pipe.nextState = .executingInstruction) :
    ∃ t, ∃ u : CogUnit, ∃ v, stepN (n + 1) s = .next t ∧ State.RanAlone k (n + 1) s t ∧
      u.still = ({ s.units[k] with pipe := s.units[k].pipe.burnt } : CogUnit).still ∧ (u.complete v).Ticked t.units[k] := by
  induction n generalizing s with
  | zero =>
    have hq := progress_burn_last (b := s.turn k) hrun harg hnext hnat
    rw [State.turn_setPipe_self] at hq
    obtain ⟨t, hstep, hran, hticked⟩ := step_of_progress h (hrun.trans_ne (by decide)) ((congrArg _ hrun).trans rfl) hq
      (by rw [State.unit_setUnit]; exact (CogUnit.complete_kept _ _).1.trans h.1)
    rw [State.unit_setUnit] at hticked
    exact ⟨t, _, _, stepN_succ 0 hstep, hran, rfl, hticked⟩
  | succ n ih =>
    have hq := progress_burn_more (b := s.turn k) hrun harg hn
    rw [State.turn_setPipe_self] at hq
    obtain ⟨q, hstep, hran, hticked⟩ := step_of_progress h (hrun.trans_ne (by decide)) ((congrArg _ hrun).trans rfl) hq
      (by rw [State.unit_setPipe]; exact h.1)
    rw [State.unit_setPipe] at hticked
    have hpipe : q.units[k].pipe = { s.units[k].pipe with stateArg := BitVec.ofNat 32 (n + 1) } :=
      CogUnit.pipe_of_still hticked.still
    obtain ⟨t, u, v, hsteps, hran', hon, hlast⟩ := ih hran.alone ((CogUnit.strategy_of_still hticked.still).trans hnat)
      (by rw [hpipe]; exact hrun) (by rw [hpipe]) (by omega) (by rw [hpipe]; exact hnext)
    refine ⟨t, u, v, (stepN_succ _ hstep).trans hsteps, ?_, ?_, hlast⟩
    · rw [Nat.add_comm (n + 1) 1]; exact hran.trans hran'
    · rw [hpipe] at hon
      exact hon.trans (CogUnit.still_withPipe hticked.still s.units[k].pipe.burnt)

/-- The only unit is a native one at the execute tick of `i` (R152, R160). -/
structure State.Executes (s : State) (k : UnitIx) (i : Instr) : Prop where
  alone : s.alone k
  native : s.units[k].strategy = .native
  runs : s.units[k].pipe.runState = .executingInstruction
  wellFormed : i.wellFormed = true
  ir : s.units[k].pipe.ir = encode i

/-- An instruction of the only unit whose execute tick begins a tail of `n + 1` ticks is complete after `n + 2` ticks of the
machine. -/
theorem stepN_tail {k : UnitIx} {s : State} {i : Instr} {p : Pipe} {n : Nat} (h : s.Executes k i)
    (hexec : exec i (s.turn k) = .next ((s.turn k).setPipe (p.beginTail (n + 1)))) (hn : n + 1 < 2 ^ 32) :
    ∃ t, ∃ u : CogUnit, ∃ v, stepN (n + 2) s = .next t ∧ State.RanAlone k (n + 2) s t ∧
      u.still = ({ s.units[k] with pipe := (p.beginTail (n + 1)).burnt } : CogUnit).still ∧
      (u.complete v).Ticked t.units[k] := by
  have hq := (progress_executing (s := s.turn k) h.native h.runs h.wellFormed h.ir).trans hexec
  obtain ⟨q, hstep, hran, hticked⟩ := step_of_progress h.alone (h.runs.trans_ne (by decide)) ((congrArg _ h.runs).trans rfl)
    hq (by rw [State.unit_setPipe]; exact h.alone.1)
  rw [State.unit_setPipe] at hticked
  have hpipe : q.units[k].pipe = p.beginTail (n + 1) := CogUnit.pipe_of_still hticked.still
  obtain ⟨t, u, v, hsteps, hran', hon, hlast⟩ := stepN_burn (n := n) hran.alone
    ((CogUnit.strategy_of_still hticked.still).trans h.native) (by rw [hpipe]; rfl) (by rw [hpipe]; rfl) hn
    (by rw [hpipe]; rfl)
  refine ⟨t, u, v, (stepN_succ _ hstep).trans hsteps, ?_, ?_, hlast⟩
  · rw [Nat.add_comm (n + 1) 1]; exact hran.trans hran'
  · rw [hpipe] at hon
    exact hon.trans (CogUnit.still_withPipe hticked.still (p.beginTail (n + 1)).burnt)

/-! ## The skipped instruction -/

/-- The completion of an instruction that offers nothing moves on to the next one. -/
theorem CogUnit.complete_of_nothing {u : CogUnit} (v : View) (hdest : u.pipe.wb.destEn = false) (hz : u.pipe.wb.zEn = false)
    (hc : u.pipe.wb.cEn = false) :
    u.complete v = { u with pc := u.pipe.pcNext, pcFresh := true, pipe := { u.pipe with ir := u.read v u.pipe.pcNext } } := by
  unfold CogUnit.complete CogUnit.commit
  simp only [hdest, hz, hc]
  rfl

theorem CogUnit.read_cell (u : CogUnit) (v : View) {a : CogAddr} (h : a.toNat < sprBase) :
    u.read v a = Cells.get u.mem a.toNat := by
  unfold CogUnit.read
  rw [locate_cell h]
  rfl

/-- Where the latches `p` offer nothing, a unit that has run on with them completes as it was, at the next instruction. -/
theorem CogUnit.complete_still_of_nothing {x u : CogUnit} {p : Pipe} (v : View)
    (h : u.still = ({ x with pipe := p } : CogUnit).still) (hdest : p.wb.destEn = false) (hz : p.wb.zEn = false)
    (hc : p.wb.cEn = false) :
    (u.complete v).still =
      ({ x with pc := p.pcNext, pipe := { p with ir := u.read v p.pcNext } } : CogUnit).still := by
  have hpipe : u.pipe = p := CogUnit.pipe_of_still h
  rw [CogUnit.complete_of_nothing v (hpipe ▸ hdest) (hpipe ▸ hz) (hpipe ▸ hc), hpipe]
  exact (congrArg (fun y : CogUnit => { y with pc := p.pcNext, pipe := { p with ir := u.read v p.pcNext } }) h :)

/-- Settles O51: the tail of the skip offers nothing, so the unit is as it was but for its program counter. -/
theorem skippedTakesFourTicks : Obligations.SkippedTakesFourTicks := by
  intro s k i halone hnat hr hwf hir hcond
  have hnot : ¬ (s.turn k).holds i.fields := Bool.eq_false_iff.1 hcond
  obtain ⟨t, u, v, hsteps, hran, hon, hticked⟩ := stepN_tail (n := 2) ⟨halone, hnat, hr, hwf, hir⟩ (exec_skips hnot) (by decide)
  have hend := hticked.still.trans (CogUnit.complete_still_of_nothing v hon rfl rfl rfl)
  refine ⟨t, hsteps, ⟨(congrArg CogUnit.pc hend :), (congrArg (·.pipe.runState) hend :), (congrArg CogUnit.mem hend :),
    (congrArg CogUnit.c hend :), (congrArg CogUnit.z hend :), (congrArg CogUnit.par hend :), (congrArg CogUnit.outa hend :),
    (congrArg CogUnit.outb hend :), (congrArg CogUnit.dira hend :), (congrArg CogUnit.dirb hend :),
    (congrArg (·.ctrA.ctr) hend :), (congrArg (·.ctrB.ctr) hend :), (congrArg (·.ctrA.frq) hend :),
    (congrArg (·.ctrB.frq) hend :), (congrArg (·.vid.vcfg) hend :), (congrArg (·.vid.vscl) hend :),
    (congrArg (·.vid.pllAttached) hend :), (congrArg CogUnit.breakpoint hend :), (congrArg CogUnit.strategy hend :),
    (congrArg CogUnit.active hend :), (congrArg CogUnit.programAddress hend :), (congrArg CogUnit.count hend :),
    fun hcell => ?_⟩, hran.mem, hran.lockAlloc, hran.lockState, hran.clk, hran.counter, hran.others⟩
  have hir : t.units[k].pipe.ir = u.read v (s.units[k].pc + 1) := (congrArg (·.pipe.ir) hend :)
  have hmem : u.mem = s.units[k].mem := (CogUnit.mem_of_still hon :)
  rw [hir, u.read_cell v hcell, hmem]

/-! ## The instruction that completes -/

/-- A busy unit is not at an execute tick. -/
theorem exec_busy {i : Instr} {s t : State} (h : exec i s = .next t) : t.unit.pipe.runState ≠ .executingInstruction := by
  have hout := exec_outcome i s
  rw [h] at hout
  cases hout with
  | tail p n => rw [State.unit_setPipe]; exact RunState.noConfusion
  | prewait p state => rw [State.unit_setPipe]; exact RunState.noConfusion
  | wait p state hwait =>
    rw [State.unit_setPipe]
    rintro rfl
    exact absurd hwait (by decide)

/-- The effect bits and the destination of a write-back latch, as the fields of an instruction. -/
def WriteBack.fields (wb : WriteBack) : Fields :=
  { wz := wb.zEn, wc := wb.cEn, wr := wb.destEn, cond := 0, d := wb.dest, src := .imm 0 }

/-- An instruction that completes `n` ticks after its execute tick began a tail of `n` ticks, 3 or 7, and what it commits is what
the tail's latches offer. -/
theorem Completes.tail {i : Instr} {s : State} {n : Nat} {r : Long} {c z : Bool} {target : CogAddr} (hnat : s.native)
    (h : Completes i s n r c z target) :
    ∃ p : Pipe, ∃ t, exec i s = .next (s.setPipe (p.beginTail n)) ∧ (n = 3 ∨ n = 7) ∧ Committed s t i.fields r c z target ∧
      Committed s t p.wb.fields p.wb.val p.wb.c p.wb.z p.pcNext := by
  obtain ⟨s1, hexec, hbefore, t, hrun, hdone⟩ := h
  have hpos : n ≠ 0 := by
    rintro rfl
    cases hrun
    exact exec_busy hexec hdone.runs
  have hburning : s1.unit.pipe.runState = .waitingCycles := by
    obtain ⟨q, hq, -, hr⟩ := hbefore 0 (by omega)
    cases hq
    exact hr
  have hout := exec_outcome i s
  rw [hexec] at hout
  cases hout with
  | prewait p state => rw [State.unit_setPipe] at hburning; cases hburning
  | wait p state hwait =>
    rw [State.unit_setPipe] at hburning
    cases hburning
    exact absurd hwait (by decide)
  | tail p m hm =>
    have hm' : ∃ l, m = l + 1 ∧ l + 1 < 2 ^ 32 := by
      obtain rfl | rfl := hm
      · exact ⟨2, rfl, by decide⟩
      · exact ⟨6, rfl, by decide⟩
    obtain ⟨l, rfl, hl⟩ := hm'
    obtain ⟨hburns, t', hrun', hdone'⟩ := burn_completes (p := p.beginTail (l + 1)) (f := p.wb.fields)
      (res := { r := p.wb.val, c := p.wb.c, z := p.wb.z }) hnat rfl rfl hl rfl ⟨rfl, fun _ => ⟨rfl, rfl⟩⟩ ⟨rfl, fun _ => rfl⟩
      ⟨rfl, fun _ => rfl⟩
    obtain hlt | rfl | hgt := Nat.lt_trichotomy n (l + 1)
    · obtain ⟨q, hq, -, hr⟩ := hburns n hlt
      cases hrun.symm.trans hq
      exact absurd (hr.symm.trans hdone.runs) (by decide)
    · cases hrun.symm.trans hrun'
      exact ⟨p, t, hexec, hm, hdone, hdone'⟩
    · obtain ⟨q, hq, -, hr⟩ := hbefore (l + 1) hgt
      cases hrun'.symm.trans hq
      exact absurd (hr.symm.trans hdone'.runs) (by decide)

/-- Where the condition holds, an instruction that begins a tail offers its result under its own `wr` and destination. -/
theorem exec_offers {i : Instr} {s t : State} (h : s.holds i.fields) (hexec : exec i s = .next t)
    (hr : t.unit.pipe.runState = .waitingCycles) :
    t.unit.pipe.wb.destEn = i.fields.wr ∧ t.unit.pipe.wb.dest = i.fields.d := by
  cases exec_shape i s with
  | plain rule e =>
    cases (e.trans (plain_holds rule h)).symm.trans hexec
    rw [State.unit_setPipe]
    exact ⟨rfl, rfl⟩
  | branch rule target e =>
    cases ht : target (s.inputs i.fields) with
    | some a =>
      cases (e.trans (branch_taken rule target h ht)).symm.trans hexec
      rw [State.unit_setPipe]
      exact ⟨rfl, rfl⟩
    | none =>
      cases (e.trans (branch_not_taken rule target h ht)).symm.trans hexec
      rw [State.unit_setPipe]
      exact ⟨rfl, rfl⟩
  | hubRead state hub e =>
    cases (e.trans (hubReadSeq_holds state h)).symm.trans hexec
    rw [State.unit_setPipe] at hr
    cases hr
  | hubOp kind e =>
    cases (e.trans (hubOpSeq_holds kind h)).symm.trans hexec
    rw [State.unit_setPipe] at hr
    cases hr
  | wait state legal e =>
    cases (e.trans (waitSeq_holds state h)).symm.trans hexec
    rw [State.unit_setPipe] at hr
    cases hr
    exact absurd legal (by decide)
  | reserved why res e => cases (e.trans (reserved_holds why h)).symm.trans hexec
  | skip never e => exact absurd h never

/-- Only the registers that discard writes read what the bus shows. -/
theorem CogUnit.read_view (u : CogUnit) (v w : View) {a : CogAddr} (h : readOnly a = false) : u.read v a = u.read w a := by
  rw [readOnly_eq_fixed] at h
  unfold CogUnit.read
  cases hl : locate a with
  | cnt | ina | inb | ident => rw [hl] at h; cases h
  | _ => rfl

/-- Two latches that commit the same on one state commit the same on every register that does not discard writes, in any view;
of the others neither says anything. -/
theorem Committed.agree {b t : State} {f g : Fields} {r r' : Long} {c z c' z' : Bool} {target target' : CogAddr}
    (h : Committed b t f r c z target) (h' : Committed b t g r' c' z' target') (v : View) (a : CogAddr) :
    (if g.wr = true ∧ a = g.d ∧ readOnly a = false then r' else b.unit.read v a) =
      if f.wr = true ∧ a = f.d ∧ readOnly a = false then r else b.unit.read v a := by
  cases hro : readOnly a with
  | true => simp
  | false =>
    have hregs := (h'.regs a).symm.trans (h.regs a)
    rw [State.readReg, CogUnit.read_view _ _ v hro, hro] at hregs
    exact hregs

/-- The view of the completion tick matters to the fetched instruction only. -/
theorem CogUnit.complete_read_view (u : CogUnit) (v x : View) (a : CogAddr) :
    (u.complete v).read x a = (u.complete x).read x a :=
  CogUnit.read_pipe (u.complete x) (u.complete v).pipe x a

/-! What a unit commits that has run on with the latches `p` since the state `b`, where the completion of `p` from `b` is also
that of the fields `f`. -/

section
variable {b t : State} {f : Fields} {r : Long} {c z : Bool} {target : CogAddr} {p : Pipe} {u : CogUnit} (v : View)
  (hon : u.still = ({ b.unit with pipe := p } : CogUnit).still) (h : Committed b t f r c z target)
  (h' : Committed b t p.wb.fields p.wb.val p.wb.c p.wb.z p.pcNext)
include hon h h'

theorem CogUnit.complete_pc_of_committed : (u.complete v).pc = target := by
  rw [CogUnit.complete_pc, CogUnit.pipe_of_still hon]
  exact h'.pc.symm.trans h.pc

theorem CogUnit.complete_ir_of_committed (hcell : target.toNat < sprBase) :
    (u.complete v).pipe.ir = Cells.get b.unit.mem target.toNat := by
  have hnext : p.pcNext = target := h'.pc.symm.trans h.pc
  have hmem : u.mem = b.unit.mem := (CogUnit.mem_of_still hon :)
  rw [CogUnit.complete_pipe, CogUnit.pipe_of_still hon]
  show u.read v p.pcNext = _
  rw [hnext, u.read_cell v hcell, hmem]

theorem CogUnit.complete_c_of_committed : (u.complete v).c = if f.wc then c else b.unit.c := by
  have hc : u.c = b.unit.c := (congrArg CogUnit.c hon :)
  rw [CogUnit.complete_c, CogUnit.pipe_of_still hon, hc]
  exact h'.flagC.symm.trans h.flagC

theorem CogUnit.complete_z_of_committed : (u.complete v).z = if f.wz then z else b.unit.z := by
  have hz : u.z = b.unit.z := (congrArg CogUnit.z hon :)
  rw [CogUnit.complete_z, CogUnit.pipe_of_still hon, hz]
  exact h'.flagZ.symm.trans h.flagZ

theorem CogUnit.complete_link_of_committed :
    (u.complete v).vid.pllAttached = if f.wr = true ∧ f.d = 0x1FE then vmode r != 0 else b.unit.vid.pllAttached := by
  have hlink : u.vid.pllAttached = b.unit.vid.pllAttached := (congrArg (·.vid.pllAttached) hon :)
  rw [CogUnit.complete_pllAttached, CogUnit.pipe_of_still hon, hlink]
  exact h'.link.symm.trans h.link

/-- Every register but the phases. -/
theorem CogUnit.complete_read_of_committed (hmem : b.unit.memWf = true) (x : View) {a : CogAddr} (ha : a ≠ 0x1FC)
    (hb : a ≠ 0x1FD) :
    (u.complete v).read x a = if f.wr = true ∧ a = f.d ∧ readOnly a = false then r else b.unit.read x a := by
  have humem : u.memWf = true := (congrArg (Cells.canonical sprBase) (CogUnit.mem_of_still hon) :).trans hmem
  have hread : u.read x a = b.unit.read x a := (CogUnit.read_of_still hon x ha hb).trans (CogUnit.read_pipe _ _ _ _)
  rw [CogUnit.complete_read_view, CogUnit.complete_read x a humem, CogUnit.pipe_of_still hon, hread]
  exact h.agree h' x a

/-- A register that the latches name, a phase or not. -/
theorem CogUnit.complete_written_of_committed (hmem : b.unit.memWf = true) (hdest : p.wb.destEn = f.wr ∧ p.wb.dest = f.d)
    (hwr : f.wr = true) (hro : readOnly f.d = false) : (u.complete v).read v f.d = r := by
  have humem : u.memWf = true := (congrArg (Cells.canonical sprBase) (CogUnit.mem_of_still hon) :).trans hmem
  have hval := h.agree h' v f.d
  rw [if_pos ⟨hdest.1.trans hwr, hdest.2.symm, hro⟩, if_pos ⟨hwr, rfl, hro⟩] at hval
  rw [CogUnit.complete_read v f.d humem, CogUnit.pipe_of_still hon, if_pos ⟨hdest.1.trans hwr, hdest.2.symm, hro⟩, hval]

end

theorem CogUnit.read_phsa (u : CogUnit) (v : View) : u.read v 0x1FC = u.ctrA.phs := rfl

theorem CogUnit.read_phsb (u : CogUnit) (v : View) : u.read v 0x1FD = u.ctrB.phs := rfl

/-- Settles O52: the unit burns the tail in the machine as it does by itself, and commits from latches that agree with the
instruction on everything the completion says. -/
theorem completionInTheMachine : Obligations.CompletionInTheMachine := by
  intro s k i n r c z target halone hnat hmem hr hwf hir hcompletes
  obtain ⟨p, t0, hexec, hn, hdone, hdone'⟩ := Completes.tail (s := s.turn k) ⟨hnat, hmem⟩ hcompletes
  obtain ⟨m, rfl, hm⟩ : ∃ m, n = m + 1 ∧ m + 1 < 2 ^ 32 := ⟨n - 1, by omega, by omega⟩
  obtain ⟨t, u, v, hsteps, hran, hon, hend, hphsA, hphsB⟩ := stepN_tail ⟨halone, hnat, hr, hwf, hir⟩ hexec hm
  have hwritten : evaluate i.fields.cond s.units[k].c s.units[k].z = true → i.fields.wr = true →
      readOnly i.fields.d = false → (u.complete v).read v i.fields.d = r := fun hcond hwr hro =>
    have hdest := exec_offers (s := s.turn k) hcond hexec (by rw [State.unit_setPipe]; rfl)
    CogUnit.complete_written_of_committed (b := s.turn k) v hon hdone hdone' hmem
      (by rw [State.unit_setPipe] at hdest; exact hdest) hwr hro
  obtain ⟨-, hstrategy, hbreakpoint, haddress, hcount⟩ := u.complete_kept v
  refine ⟨t, hsteps, ⟨?_, ?_, fun w a ha hb => ?_, fun hcond hwr => ⟨fun hd => ?_, fun hd => ?_⟩, ?_, ?_, ?_, ?_, ?_, ?_, ?_, ?_,
    fun hcell => ?_⟩, hran.mem, hran.lockAlloc, hran.lockState, hran.clk, hran.counter, hran.others⟩
  · exact (congrArg CogUnit.pc hend :).trans (CogUnit.complete_pc_of_committed (b := s.turn k) v hon hdone hdone')
  · rw [CogUnit.pipe_of_still hend, CogUnit.complete_pipe, CogUnit.pipe_of_still hon]
    rfl
  · exact (CogUnit.read_of_still hend w ha hb).trans
      (CogUnit.complete_read_of_committed (b := s.turn k) v hon hdone hdone' hmem w ha hb)
  · have hphs := hwritten hcond hwr (hd ▸ rfl)
    rw [hd, CogUnit.read_phsa] at hphs
    exact hphs ▸ hphsA
  · have hphs := hwritten hcond hwr (hd ▸ rfl)
    rw [hd, CogUnit.read_phsb] at hphs
    exact hphs ▸ hphsB
  · exact (congrArg CogUnit.c hend :).trans (CogUnit.complete_c_of_committed (b := s.turn k) v hon hdone hdone')
  · exact (congrArg CogUnit.z hend :).trans (CogUnit.complete_z_of_committed (b := s.turn k) v hon hdone hdone')
  · exact (congrArg (·.vid.pllAttached) hend :).trans
      (CogUnit.complete_link_of_committed (b := s.turn k) v hon hdone hdone')
  · exact ((congrArg CogUnit.breakpoint hend :).trans hbreakpoint).trans (congrArg CogUnit.breakpoint hon :)
  · exact ((congrArg CogUnit.strategy hend :).trans hstrategy).trans (congrArg CogUnit.strategy hon :)
  · exact hran.alone.1.trans halone.1.symm
  · exact ((congrArg CogUnit.programAddress hend :).trans haddress).trans (congrArg CogUnit.programAddress hon :)
  · exact ((congrArg CogUnit.count hend :).trans hcount).trans (congrArg CogUnit.count hon :)
  · exact (congrArg (·.pipe.ir) hend :).trans
      (CogUnit.complete_ir_of_committed (b := s.turn k) v hon hdone hdone' hcell)

end Sys2Proof.Machine
end

section
/-! What the hub grant makes of a slot (spec/41_unit_state_machine.md R145, spec/47_hub_arbiter.md R380, R383), and the hub read
that is served in its window (R157, R170, R386). -/

namespace Sys2Proof.Machine

/-! ## The hub hook, slot by slot -/

/-- The running unit performs a COGINIT or a COGSTOP that names slot `k` (R231, R232). -/
def State.Names (s : State) (k : UnitIx) : Prop :=
  let p := s.unit.pipe
  p.runState = .hubOperation ∧ (p.hubKind = .coginit ∧ p.opD.getLsbD 3 = false ∨ p.hubKind = .cogstop) ∧
    p.opD.toNat % 8 = k.val

/-- What the hub hook of the running unit of `s`, which leads to `t`, makes of slot `k`. -/
inductive HookedSlot (s t : State) (k : UnitIx) : Prop where
  | kept (h : t.units[k] = s.units[k]) (hidle : k = s.cur → s.unit.pipe.runState ≠ .loadingProgram)
  | loads (hk : k = s.cur) (hr : s.unit.pipe.runState = .loadingProgram) (h : loadLong s = .next t)
  | ends (hk : k = s.cur) (hhub : s.unit.pipe.runState.isHub = true) (p : Pipe)
      (h : t.units[k] = { s.unit with pipe := p.beginTail hubTail })
  | starts (programAddress parameter : Long) (h : t.units[k] = CogUnit.create .native programAddress parameter)
      (hwhy : s.Names k ∨ s.units[k].active = false)
  | stops (h : t.units[k] = CogUnit.vacant) (hwhy : s.Names k)

theorem loadLong_units_of_ne {s t : State} (h : loadLong s = .next t) {k : UnitIx} (hk : k ≠ s.cur) :
    t.units[k] = s.units[k] := by
  unfold loadLong at h
  simp only at h
  split at h
  · unfold boot at h
    rw [State.setUnit_setUnit] at h
    split at h
    · cases h; exact State.units_setUnit_of_ne s _ k (Ne.symm hk)
    · cases h
  · cases h; exact State.units_setUnit_of_ne s _ k (Ne.symm hk)

section
variable {s : State} (k : UnitIx)

theorem State.units_setPipe_cur (s : State) (p : Pipe) {k : UnitIx} (h : s.cur = k) :
    (s.setPipe p).units[k] = { s.unit with pipe := p } := by
  subst h
  exact s.unit_setPipe p

/-- A unit that ends its transaction begins the tail; the other slots are what the transaction made of them. -/
theorem endTransaction_hookedSlot {w : State} (res : Result) (hcur : w.cur = s.cur) (hunit : w.unit = s.unit)
    (hhub : s.unit.pipe.runState.isHub = true)
    (hothers : k ≠ s.cur → HookedSlot s w k) : HookedSlot s (endTransaction w res) k := by
  by_cases hk : k = s.cur
  · subst hk
    exact .ends rfl hhub (w.unit.pipe.offerLatched res) (hunit ▸ State.units_setPipe_cur w _ hcur)
  · have hsame : (endTransaction w res).units[k] = w.units[k] :=
      State.units_setPipe_of_ne w _ k (by rw [hcur]; exact Ne.symm hk)
    cases hothers hk with
    | kept h hidle => exact .kept (hsame.trans h) hidle
    | loads hk' => exact absurd hk' hk
    | ends hk' => exact absurd hk' hk
    | starts a b h hwhy => exact .starts a b (hsame.trans h) hwhy
    | stops h hwhy => exact .stops (hsame.trans h) hwhy

/-- A transaction that leaves the slots alone. -/
theorem endTransaction_hookedSlot_of_units {w : State} (res : Result) (hcur : w.cur = s.cur) (hunits : w.units = s.units)
    (hhub : s.unit.pipe.runState.isHub = true) : HookedSlot s (endTransaction w res) k :=
  endTransaction_hookedSlot k res hcur (by rw [State.unit_def, State.unit_def]; simp only [hunits, hcur]) hhub
    fun hk => .kept (by rw [hunits]) fun e => absurd e hk

/-- A transaction that fills or empties slot `id`. -/
theorem setSlot_hookedSlot {id : UnitIx} {u : CogUnit} (hidle : k = s.cur → s.unit.pipe.runState ≠ .loadingProgram)
    (hnamed : k = id → HookedSlot s (s.setSlot id u) k) : HookedSlot s (s.setSlot id u) k := by
  by_cases hk : k = id
  · exact hnamed hk
  · exact .kept (State.units_setSlot_of_ne s u id k (Ne.symm hk)) hidle

theorem lowest_spec {test : UnitIx → Bool} {k : UnitIx} (h : lowest test = some k) : test k = true :=
  List.find?_some h

/-- The COGINIT of a present unit (R231). -/
theorem hubCoginit_hookedSlot (hactive : s.unit.active = true) (hr : s.unit.pipe.runState = .hubOperation)
    (hkind : s.unit.pipe.hubKind = .coginit) : HookedSlot s (hubCoginit s) k := by
  have hhub : s.unit.pipe.runState.isHub = true := by rw [hr]; rfl
  have hidle : k = s.cur → s.unit.pipe.runState ≠ .loadingProgram := fun _ => by rw [hr]; decide
  have hstart : ∀ id, (s.Names id ∨ s.units[id].active = false) →
      HookedSlot s (s.setSlot id (coginitUnit s.unit.pipe.opD)) k := fun id hwhy =>
    setSlot_hookedSlot k hidle fun e => by subst e; exact .starts _ _ (State.units_setSlot_self s _ _) hwhy
  cases hbit : s.unit.pipe.opD.getLsbD 3 with
  | true =>
    rw [hubCoginit_lowest rfl hbit]
    split
    next id hid =>
      have hfree : s.units[id].active = false := by simpa using lowest_spec hid
      have hne : id ≠ s.cur := by rintro rfl; rw [← State.unit_def, hactive] at hfree; cases hfree
      exact endTransaction_hookedSlot k _ rfl (State.unit_setSlot_of_ne s _ hne) hhub fun _ => hstart id (.inr hfree)
    next => exact endTransaction_hookedSlot_of_units k _ rfl rfl hhub
  | false =>
    have hnames : s.Names (indexOf s.unit.pipe.opD) := ⟨hr, .inl ⟨hkind, hbit⟩, rfl⟩
    rw [hubCoginit_named rfl hbit]
    split
    next => exact hstart _ (.inl hnames)
    next hne => exact endTransaction_hookedSlot k _ rfl (State.unit_setSlot_of_ne s _ hne) hhub fun _ => hstart _ (.inl hnames)

/-- COGSTOP (R232). -/
theorem hubCogstop_hookedSlot (hr : s.unit.pipe.runState = .hubOperation) (hkind : s.unit.pipe.hubKind = .cogstop) :
    HookedSlot s (hubCogstop s) k := by
  have hhub : s.unit.pipe.runState.isHub = true := by rw [hr]; rfl
  have hidle : k = s.cur → s.unit.pipe.runState ≠ .loadingProgram := fun _ => by rw [hr]; decide
  have hstop : HookedSlot s (stopUnit s (indexOf s.unit.pipe.opD)) k :=
    setSlot_hookedSlot k hidle fun e => .stops (e ▸ State.units_setSlot_self s _ _) ⟨hr, .inr hkind, e ▸ rfl⟩
  unfold hubCogstop
  simp only
  split
  next => exact hstop
  next hne => exact endTransaction_hookedSlot k _ rfl (State.unit_setSlot_of_ne s _ hne) hhub fun _ => hstop

theorem hubWrite_hookedSlot (n : Nat) (hhub : s.unit.pipe.runState.isHub = true) : HookedSlot s (hubWrite s n) k := by
  by_cases hk : k = s.cur
  · subst hk
    exact .ends rfl hhub _ (State.unit_setPipe { s with mem := memWrite s.mem s.unit.pipe.opS n s.unit.pipe.opD } _)
  · exact .kept (State.units_setPipe_of_ne { s with mem := memWrite s.mem s.unit.pipe.opS n s.unit.pipe.opD } _ k (Ne.symm hk))
      fun e => absurd e hk

/-- The hub operations of a present unit (R158). -/
theorem hubTransact_hookedSlot (hactive : s.unit.active = true) (hr : s.unit.pipe.runState = .hubOperation) :
    HookedSlot s (hubTransact s) k := by
  have hhub : s.unit.pipe.runState.isHub = true := by rw [hr]; rfl
  unfold hubTransact
  cases hkind : s.unit.pipe.hubKind with
  | wrbyte => exact hubWrite_hookedSlot k 1 hhub
  | wrword => exact hubWrite_hookedSlot k 2 hhub
  | wrlong => exact hubWrite_hookedSlot k 4 hhub
  | coginit => exact hubCoginit_hookedSlot k hactive hr hkind
  | cogstop => exact hubCogstop_hookedSlot k hr hkind
  | locknew =>
    simp only
    unfold hubLocknew
    split <;> exact endTransaction_hookedSlot_of_units k _ rfl rfl hhub
  | clkset => exact endTransaction_hookedSlot_of_units k _ rfl rfl hhub
  | cogid => exact endTransaction_hookedSlot_of_units k _ rfl rfl hhub
  | lockret => exact endTransaction_hookedSlot_of_units k _ rfl rfl hhub
  | lockset => exact endTransaction_hookedSlot_of_units k _ rfl rfl hhub
  | lockclr => exact endTransaction_hookedSlot_of_units k _ rfl rfl hhub

/-- The hub hook of a present unit (R145). -/
theorem hubHook_hookedSlot {t : State} (hactive : s.unit.active = true) (h : hubHook s = .next t) : HookedSlot s t k := by
  unfold hubHook at h
  split at h
  next hr =>
    by_cases hk : k = s.cur
    · exact .loads hk hr h
    · exact .kept (loadLong_units_of_ne h hk) fun e => absurd e hk
  next hr => cases h; exact endTransaction_hookedSlot_of_units k _ rfl rfl (by rw [hr]; rfl)
  next hr => cases h; exact endTransaction_hookedSlot_of_units k _ rfl rfl (by rw [hr]; rfl)
  next hr => cases h; exact endTransaction_hookedSlot_of_units k _ rfl rfl (by rw [hr]; rfl)
  next hr => cases h; exact hubTransact_hookedSlot k hactive hr
  next hload _ _ _ _ => cases h; exact .kept rfl fun _ => hload

end

/-- The hub grant: the tick is no window of a present unit, or the unit that owns it runs its hook (R380). -/
theorem hubGrant_slot {s g : State} (h : hubGrant s = .next g) (k : UnitIx) :
    (g.units[k] = s.units[k] ∧ (s.units[k].active = true → window s.counter ≠ some k)) ∨
      ∃ j, window s.counter = some j ∧ s.units[j].active = true ∧ HookedSlot { s with cur := j } g k := by
  unfold hubGrant at h
  split at h
  next j hj =>
    split at h
    next ha => exact .inr ⟨j, hj, ha, hubHook_hookedSlot k ha h⟩
    next ha =>
      cases h
      refine .inl ⟨rfl, fun hk e => ha ?_⟩
      rw [hj] at e
      cases e
      exact hk
  next hnone =>
    cases h
    exact .inl ⟨rfl, fun _ e => by rw [hnone] at e; cases e⟩

/-! ## The step of one slot among the others -/

theorem stepUnit_mem {k : UnitIx} {s t : State} (h : stepUnit k s = .next t) : t.mem = s.mem := by
  obtain ⟨-, rfl⟩ | ⟨-, q, hq, rfl⟩ := stepUnit_eq_next h
  · rfl
  · exact (congrArg State.mem (progress_frame hq) :)

theorem stepUnits_mem {l : List UnitIx} {s t : State} (h : stepUnits l s = .next t) : t.mem = s.mem := by
  induction l generalizing s with
  | nil => cases h; rfl
  | cons j l ih =>
    obtain ⟨q, hq, h⟩ := andThen_eq_next.1 h
    exact (ih h).trans (stepUnit_mem hq)

theorem stepUnits_units_of_not_mem {l : List UnitIx} {s t : State} (h : stepUnits l s = .next t) {k : UnitIx} (hk : k ∉ l) :
    t.units[k] = s.units[k] := by
  induction l generalizing s with
  | nil => cases h; rfl
  | cons j l ih =>
    obtain ⟨q, hq, h⟩ := andThen_eq_next.1 h
    rw [List.mem_cons, not_or] at hk
    exact (ih h hk.2).trans (stepUnit_units_of_ne hq hk.1)

/-- What the ordinary steps make of a present unit is its progress, in a machine whose other units may have stepped, and its
peripherals (R380, R390). -/
theorem stepUnits_slot {s t : State} (h : stepUnits [0, 1, 2, 3, 4, 5, 6, 7] s = .next t) {k : UnitIx}
    (hactive : s.units[k].active = true) :
    ∃ w q, w.cur = k ∧ w.unit = s.units[k] ∧ progress w = .next q ∧ q.unit.Ticked t.units[k] := by
  obtain ⟨l1, l2, e, h1, h2⟩ := slots_split k
  rw [e, stepUnits_append] at h
  obtain ⟨s1, hs1, h⟩ := andThen_eq_next.1 h
  obtain ⟨s2, hs2, h⟩ := andThen_eq_next.1 h
  have hk1 := stepUnits_units_of_not_mem hs1 h1
  have hk2 := stepUnits_units_of_not_mem h h2
  obtain ⟨ha, -⟩ | ⟨-, q, hq, rfl⟩ := stepUnit_eq_next hs2
  · rw [hk1, hactive] at ha; cases ha
  · refine ⟨{ s1 with cur := k }, q, rfl, hk1, hq, ?_⟩
    rw [hk2, finishUnit_unit (progress_cur hq)]
    exact CogUnit.clockPeripherals_ticked _ _ _ _

theorem step_counter {s t : State} (h : step s = .next t) : t.counter = s.counter + 1 := by
  obtain ⟨g, q, hg, hq, rfl⟩ := step_eq_next h
  exact (stepUnits_clock _ hq).1.trans (hubGrant_clock hg).1

/-! ## A hub read -/

/-- The run state is that of a hub read of `n` bytes (R157). -/
def RunState.Reads (r : RunState) (n : Nat) : Prop :=
  (r, n) ∈ [(RunState.hubReadByte, 1), (.hubReadWord, 2), (.hubReadLong, 4)]

theorem RunState.reads_cases {r : RunState} {n : Nat} (h : r.Reads n) :
    (r = .hubReadByte ∧ n = 1) ∨ (r = .hubReadWord ∧ n = 2) ∨ (r = .hubReadLong ∧ n = 4) := by
  simpa [RunState.Reads] using h

theorem hubHook_reads {s : State} {n : Nat} (h : s.unit.pipe.runState.Reads n) : hubHook s = .next (hubRead s n) := by
  obtain ⟨hr, rfl⟩ | ⟨hr, rfl⟩ | ⟨hr, rfl⟩ := RunState.reads_cases h
  all_goals unfold hubHook; rw [hr]

theorem progress_reads {s : State} {n : Nat} (h : s.unit.pipe.runState.Reads n) : progress s = .next s := by
  obtain ⟨hr, -⟩ | ⟨hr, -⟩ | ⟨hr, -⟩ := RunState.reads_cases h
  all_goals unfold progress; rw [hr]

/-- The latches of a hub read after its window: five ticks are left and the value is loaded. -/
theorem hubRead_unit (s : State) (n : Nat) :
    ∃ p : Pipe, (hubRead s n).unit = { s.unit with pipe := p.beginTail hubTail } ∧ p.wb.val = memRead s.mem s.unit.pipe.opS n :=
  ⟨s.unit.pipe.offerLatched (Result.zeroFlag (memRead s.mem s.unit.pipe.opS n) s.anyC), State.unit_setPipe _ _, rfl⟩

/-- The tail of a hub transaction counts down in the tick of its window. -/
theorem progress_hubTail {w : State} {p : Pipe} (h : w.unit.pipe = p.beginTail hubTail) :
    progress w = .next (w.setPipe { p.beginTail hubTail with stateArg := 4 }) := by
  have hself : w.setPipe (p.beginTail hubTail) = w := by rw [← h]; exact w.setPipe_pipe
  have hburns := progress_burn_more (b := w) (p := p.beginTail hubTail) (n := 3) rfl rfl (by decide)
  rw [hself] at hburns
  exact hburns

theorem hubGrant_alone {s : State} {k : UnitIx} (h : s.alone k) :
    hubGrant s = if window s.counter = some k then hubHook { s with cur := k } else .next s := by
  unfold hubGrant
  split
  next j hj =>
    by_cases e : j = k
    · subst e; rw [if_pos h.1, if_pos hj]
    · rw [h.2 j e, hj, if_neg (by decide), if_neg fun hk => e (Option.some.inj hk)]
  next hnone => rw [hnone]; rfl

section
variable {s t : State} {k : UnitIx} {n : Nat}

/-- A tick that is not the window of a unit blocked in a hub read leaves it blocked, if no other unit restarts or stops it. -/
theorem step_blocked (h : step s = .next t) (hactive : s.units[k].active = true) (hr : s.units[k].pipe.runState.Reads n)
    (hwindow : window (s.counter + 1) ≠ some k) (hover : ¬ s.overrides k) :
    t.units[k].pipe = s.units[k].pipe ∧ t.units[k].active = true := by
  obtain ⟨g, q, hg, hq, rfl⟩ := step_eq_next h
  have hkept : g.units[k] = s.units[k] := by
    obtain ⟨hsame, -⟩ | ⟨j, hj, ha, hslot⟩ := hubGrant_slot hg k
    · exact hsame
    · have hne : j ≠ k := by rintro rfl; exact hwindow hj
      have hnames : ¬ ({ beginTick s with cur := j } : State).Names k := fun hname => hover ⟨j, hne, hj, ha, hname⟩
      cases hslot with
      | kept h => exact h
      | loads hk => exact absurd hk.symm hne
      | ends hk => exact absurd hk.symm hne
      | starts _ _ _ hwhy =>
        obtain hname | hfree := hwhy
        · exact absurd hname hnames
        · exact absurd (hactive.symm.trans hfree) (by decide)
      | stops _ hname => exact absurd hname hnames
  obtain ⟨w, r, -, hw, hprogress, hticked⟩ := stepUnits_slot hq (by rw [hkept]; exact hactive)
  rw [hkept] at hw
  have hstuck := progress_reads (s := w) (n := n) (by rw [hw]; exact hr)
  cases hprogress.symm.trans hstuck
  rw [hw] at hticked
  exact ⟨CogUnit.pipe_of_still hticked.still, (CogUnit.active_of_still hticked.still).trans hactive⟩

/-- The grant of the window of a blocked hub read (R157, R380). -/
theorem hubGrant_reads (hactive : s.units[k].active = true) (hr : s.units[k].pipe.runState.Reads n)
    (hwindow : window (s.counter + 1) = some k) : hubGrant (beginTick s) = .next (hubRead (s.turn k) n) := by
  unfold hubGrant
  rw [show window (beginTick s).counter = some k from hwindow]
  exact (if_pos hactive).trans (hubHook_reads (s := s.turn k) hr)

/-- In its window the value is loaded for write-back (R157). -/
theorem step_served (h : step s = .next t) (hactive : s.units[k].active = true) (hr : s.units[k].pipe.runState.Reads n)
    (hwindow : window (s.counter + 1) = some k) :
    t.units[k].pipe.wb.val = memRead t.mem s.units[k].pipe.opS n := by
  obtain ⟨g, q, hg, hq, rfl⟩ := step_eq_next h
  cases hg.symm.trans (hubGrant_reads hactive hr hwindow)
  obtain ⟨p, hunit, hval⟩ := hubRead_unit (s.turn k) n
  have hslot : (hubRead (s.turn k) n).units[k] = { s.units[k] with pipe := p.beginTail hubTail } := hunit
  obtain ⟨w, r, -, hw, hprogress, hticked⟩ := stepUnits_slot hq (by rw [hslot]; exact hactive)
  rw [hslot] at hw
  have hburns := progress_hubTail (w := w) (p := p) (by rw [hw])
  cases hprogress.symm.trans hburns
  have hwb : q.units[k].pipe.wb = p.wb := by
    rw [CogUnit.pipe_of_still hticked.still, State.unit_setPipe]; rfl
  have hmem : q.mem = s.mem := (stepUnits_mem hq :)
  show q.units[k].pipe.wb.val = memRead q.mem _ n
  rw [hwb, hval, hmem]
  rfl

/-- Where one slot alone holds a unit, a tick is the hub grant, that unit's progress and the rest of its step. -/
theorem step_alone_of_grant {g q : State} (hg : hubGrant (beginTick s) = .next g) (hga : g.alone k)
    (hq : progress { g with cur := k } = .next q) (hactive : q.unit.active = true) :
    ∃ t, step s = .next t ∧ t.alone k ∧ t.mem = g.mem := by
  have hcur : q.cur = k := progress_cur hq
  refine ⟨endTick (finishUnit q), ?_, ⟨?_, fun j hj => ?_⟩, ?_⟩
  · unfold step hubStep
    rw [hg]
    simp only [andThen]
    rw [stepUnits_alone hga, hq]
    rfl
  · exact (congrArg CogUnit.active (finishUnit_unit hcur) :).trans hactive
  · exact (congrArg CogUnit.active ((finishUnit_units j (hcur ▸ hj)).trans (progress_units hq j hj)) :).trans (hga.2 j hj)
  · exact (congrArg State.mem (progress_frame hq) :)

/-- The tick of a blocked hub read of the only unit, be it in its window or not: it goes on and hub memory is as before. -/
theorem step_alone_reads (h : s.alone k) (hr : s.units[k].pipe.runState.Reads n) :
    ∃ t, step s = .next t ∧ t.alone k ∧ t.mem = s.mem := by
  by_cases hwindow : window (s.counter + 1) = some k
  · obtain ⟨p, hunit, -⟩ := hubRead_unit (s.turn k) n
    have hslot : (hubRead (s.turn k) n).units[k] = { s.units[k] with pipe := p.beginTail hubTail } := hunit
    have hga : (hubRead (s.turn k) n).alone k := by
      refine ⟨(congrArg CogUnit.active hslot :).trans h.1, fun j hj => ?_⟩
      exact (congrArg CogUnit.active (State.units_setPipe_of_ne (s.turn k) _ j (Ne.symm hj)) :).trans (h.2 j hj)
    refine step_alone_of_grant (g := hubRead (s.turn k) n) (hubGrant_reads h.1 hr hwindow) hga (progress_hubTail (p := p) ?_) ?_
    · exact (congrArg CogUnit.pipe hslot :)
    · rw [State.unit_setPipe]; exact hga.1
  · exact step_alone_of_grant (g := beginTick s) ((hubGrant_alone (s := beginTick s) h).trans (if_neg hwindow)) h
      (progress_reads (s := s.turn k) hr) h.1

end

/-! ## The run to the window -/

/-- R383 with `HUB_PHASE` 0 (assumption 7). -/
theorem window_eq_some {c : Long} {k : UnitIx} : window c = some k ↔ c.toNat % 16 = 2 * k.val := by
  have hk := k.isLt
  unfold window hubPhase hubPeriod
  simp only [Nat.add_zero]
  split
  next heven => rw [Option.some.injEq, Fin.ext_iff, Fin.val_ofNat]; omega
  next hodd => simp only [reduceCtorEq, false_iff]; omega

/-- The first window of a unit after the tick in which the counter is `c` (R386). -/
theorem exists_first_window (c : Long) (k : UnitIx) :
    ∃ n, 1 ≤ n ∧ n ≤ 16 ∧ window (c + BitVec.ofNat 32 n) = some k ∧
      ∀ m, 1 ≤ m → m < n → window (c + BitVec.ofNat 32 m) ≠ some k := by
  have hk := k.isLt
  refine ⟨16 - (c.toNat + 16 - 2 * k.val) % 16, by omega, by omega, ?_, fun m hm hlt => ?_⟩
  · rw [window_eq_some, BitVec.toNat_add, BitVec.toNat_ofNat]; omega
  · rw [ne_eq, window_eq_some, BitVec.toNat_add, BitVec.toNat_ofNat]; omega

theorem stepN_succ_last (n : Nat) (s : State) : stepN (n + 1) s = andThen (stepN n s) step := by
  induction n generalizing s with
  | zero =>
    show andThen (step s) (fun t => .next t) = step s
    cases step s <;> rfl
  | succ n ih =>
    show andThen (step s) (stepN (n + 1)) = andThen (andThen (step s) (stepN n)) step
    cases step s with
    | next t => exact ih t
    | fault r => rfl
    | refused r => rfl

/-- A run goes through all its states. -/
theorem stepN_goes_through {m n : Nat} {s t : State} (h : stepN n s = .next t) (hmn : m ≤ n) : ∃ q, stepN m s = .next q := by
  induction n generalizing t with
  | zero =>
    obtain rfl : m = 0 := by omega
    exact ⟨t, h⟩
  | succ n ih =>
    obtain rfl | hlt := Nat.eq_or_lt_of_le hmn
    · exact ⟨t, h⟩
    · rw [stepN_succ_last] at h
      obtain ⟨q, hq, -⟩ := andThen_eq_next.1 h
      exact ih hq (by omega)

section
variable {s : State} {k : UnitIx} {n width : Nat}

/-- `q` is a later state in which unit `k` is still blocked with the latches it has in `s`, `m` ticks after it. -/
structure State.Blocked (s : State) (k : UnitIx) (m : Nat) (q : State) : Prop where
  pipe : q.units[k].pipe = s.units[k].pipe
  active : q.units[k].active = true
  counter : q.counter = s.counter + BitVec.ofNat 32 m

theorem State.Blocked.next_counter {m : Nat} {q : State} (h : s.Blocked k m q) :
    q.counter + 1 = s.counter + BitVec.ofNat 32 (m + 1) := by
  rw [h.counter, BitVec.ofNat_add, BitVec.add_assoc]; rfl

/-- In a tick that is neither a window of the unit nor overrides it, it stays blocked. -/
theorem State.Blocked.step {m : Nat} {q r : State} (h : s.Blocked k m q) (hr : s.units[k].pipe.runState.Reads width)
    (hstep : step q = .next r) (hwindow : window (s.counter + BitVec.ofNat 32 (m + 1)) ≠ some k) (hover : ¬ q.overrides k) :
    s.Blocked k (m + 1) r := by
  rw [← h.next_counter] at hwindow
  obtain ⟨hpipe, hactive⟩ := step_blocked hstep h.active (by rw [h.pipe]; exact hr) hwindow hover
  exact ⟨hpipe.trans h.pipe, hactive, (step_counter hstep).trans h.next_counter⟩

/-- Up to the window the unit stays blocked, whatever the others do but restart or stop it. -/
theorem stepN_blocked {t : State} (hactive : s.units[k].active = true) (hr : s.units[k].pipe.runState.Reads width)
    (hbefore : ∀ m, 1 ≤ m → m < n → window (s.counter + BitVec.ofNat 32 m) ≠ some k) (hrun : stepN n s = .next t)
    (hover : ∀ m < n, ∀ q, stepN m s = .next q → ¬ q.overrides k) {m : Nat} (hm : m < n) :
    ∃ q, stepN m s = .next q ∧ s.Blocked k m q := by
  induction m with
  | zero => exact ⟨s, rfl, rfl, hactive, (BitVec.add_zero _).symm⟩
  | succ m ih =>
    obtain ⟨q, hq, hblocked⟩ := ih (by omega)
    obtain ⟨r, hr'⟩ := stepN_goes_through hrun hm.le
    have hstep := hr'
    rw [stepN_succ_last, hq] at hstep
    exact ⟨r, hr', hblocked.step hr hstep (hbefore (m + 1) (by omega) hm) (hover m (by omega) q hq)⟩

/-- In the window the blocked unit is served. -/
theorem stepN_served {t : State} (hactive : s.units[k].active = true) (hr : s.units[k].pipe.runState.Reads width)
    (hpos : 1 ≤ n) (hwindow : window (s.counter + BitVec.ofNat 32 n) = some k)
    (hbefore : ∀ m, 1 ≤ m → m < n → window (s.counter + BitVec.ofNat 32 m) ≠ some k) (hrun : stepN n s = .next t)
    (hover : ∀ m < n, ∀ q, stepN m s = .next q → ¬ q.overrides k) :
    t.counter = s.counter + BitVec.ofNat 32 n ∧
      t.units[k].pipe.wb.val = memRead t.mem s.units[k].pipe.opS width := by
  obtain ⟨m, rfl⟩ : ∃ m, n = m + 1 := ⟨n - 1, by omega⟩
  obtain ⟨q, hq, hblocked⟩ := stepN_blocked hactive hr hbefore hrun hover (Nat.lt_succ_self m)
  have hstep := hrun
  rw [stepN_succ_last, hq] at hstep
  rw [← hblocked.next_counter] at hwindow ⊢
  rw [← hblocked.pipe]
  exact ⟨step_counter hstep, step_served hstep hblocked.active (by rw [hblocked.pipe]; exact hr) hwindow⟩

/-- A unit that is alone is overridden by none. -/
theorem State.alone_not_overrides {q : State} (h : q.alone k) : ¬ q.overrides k := by
  rintro ⟨j, hne, -, hactive, -⟩
  rw [h.2 j hne] at hactive
  cases hactive

/-- The only unit's run goes on to its window, and hub memory is as before. -/
theorem stepN_alone_reads (h : s.alone k) (hr : s.units[k].pipe.runState.Reads width)
    (hbefore : ∀ m, 1 ≤ m → m < n → window (s.counter + BitVec.ofNat 32 m) ≠ some k) {m : Nat} (hm : m ≤ n) :
    ∃ q, stepN m s = .next q ∧ q.alone k ∧ q.mem = s.mem ∧ (m < n → s.Blocked k m q) := by
  induction m with
  | zero => exact ⟨s, rfl, h, rfl, fun _ => ⟨rfl, h.1, (BitVec.add_zero _).symm⟩⟩
  | succ m ih =>
    obtain ⟨q, hq, halone, hmem, hblocked⟩ := ih (by omega)
    have hb := hblocked (by omega)
    obtain ⟨r, hstep, halone', hmem'⟩ := step_alone_reads halone (by rw [hb.pipe]; exact hr)
    refine ⟨r, by rw [stepN_succ_last, hq]; exact hstep, halone', hmem'.trans hmem, fun hlt => ?_⟩
    exact hb.step hr hstep (hbefore (m + 1) (by omega) hlt) (State.alone_not_overrides halone)

end

/-- Settles O43: the unit stays blocked until its first window, at most sixteen ticks ahead, and is served in it. -/
theorem hubReadIsServed : Obligations.HubReadIsServed := by
  intro s k hactive p hp hrun
  have hr : s.units[k].pipe.runState.Reads p.2 := by rw [hrun]; exact hp
  obtain ⟨n, hpos, hle, hwindow, hbefore⟩ := exists_first_window s.counter k
  refine ⟨n, hpos, hle, hwindow, fun t ht hover => ⟨fun m hm => ?_, ?_⟩, fun halone => ?_⟩
  · obtain ⟨q, hq, hblocked⟩ := stepN_blocked hactive hr hbefore ht hover hm
    exact ⟨q, hq, hblocked.pipe⟩
  · exact stepN_served hactive hr hpos hwindow hbefore ht hover
  · have hgoes := fun m (hm : m ≤ n) => stepN_alone_reads halone hr hbefore hm
    have hover : ∀ m < n, ∀ q, stepN m s = .next q → ¬ q.overrides k := fun m hm q hq => by
      obtain ⟨q', hq', halone', -⟩ := hgoes m hm.le
      cases hq.symm.trans hq'
      exact State.alone_not_overrides halone'
    obtain ⟨t, ht, -, hmem, -⟩ := hgoes n (Nat.le_refl n)
    obtain ⟨hcounter, hval⟩ := stepN_served hactive hr hpos hwindow hbefore ht hover
    refine ⟨t, ht, hcounter, hmem ▸ hval, hmem, fun m hm => ?_⟩
    obtain ⟨q, hq, hblocked⟩ := stepN_blocked hactive hr hbefore ht hover hm
    exact ⟨q, hq, hblocked.pipe⟩

end Sys2Proof.Machine
end

section
/-! The answer of the step (spec/41_unit_state_machine.md R144, R168, spec/47_hub_arbiter.md R381): it is false exactly if the
program counter of some unit arrives at its breakpoint, in the last tick of an instruction or in the tick of its boot. -/

namespace Sys2Proof.Machine

/-! ## Where the program counter arrives -/

/-- The address that the program counter has just been assigned, if its assignment is fresh (R144). -/
def CogUnit.assigned (u : CogUnit) : Option CogAddr := if u.pcFresh then some u.pc else none

/-- The address that the unit's progress in this tick leaves as a fresh program counter, if any: that of the next instruction in
the last tick of a burn, else one assigned earlier in the tick. -/
def CogUnit.arrival (u : CogUnit) : Option CogAddr :=
  if u.pipe.runState = .waitingCycles ∧ countdown u.pipe.stateArg = 0 then some u.pipe.pcNext else u.assigned

theorem CogUnit.stepResult_eq_false {u : CogUnit} :
    u.stepResult = false ↔ ∃ a, u.assigned = some a ∧ u.breakpoint = some a := by
  unfold CogUnit.stepResult CogUnit.assigned
  cases u.pcFresh with
  | false => simp
  | true =>
    rw [Bool.true_and, Bool.not_eq_false', beq_iff_eq, if_pos rfl]
    exact ⟨fun h => ⟨u.pc, rfl, h⟩, fun ⟨_, hpc, h⟩ => hpc ▸ h⟩

theorem CogUnit.arrival_of_ne {u : CogUnit} (h : u.pipe.runState ≠ .waitingCycles) : u.arrival = u.assigned :=
  if_neg fun e => h e.1

theorem CogUnit.complete_assigned (u : CogUnit) (v : View) : (u.complete v).assigned = some u.pipe.pcNext := by
  unfold CogUnit.assigned
  rw [CogUnit.complete_pcFresh, CogUnit.complete_pc]
  rfl

/-- A tick of a burn (R153, R168). -/
theorem CogUnit.burn_assigned {u : CogUnit} (v : View) (hr : u.pipe.runState = .waitingCycles)
    (hnat : u.strategy = .native) : (u.burn v).assigned = u.arrival := by
  unfold CogUnit.burn CogUnit.arrival
  simp only [hr, true_and, hnat]
  split
  next => exact CogUnit.complete_assigned _ v
  next => rfl

/-- `v` has the program counter, its mark and the breakpoint of `u`. -/
def CogUnit.SameFlow (u v : CogUnit) : Prop := v.assigned = u.assigned ∧ v.breakpoint = u.breakpoint

section
variable {s t : State}

theorem setPipe_sameFlow (p : Pipe) : s.unit.SameFlow (s.setPipe p).unit := by
  rw [State.unit_setPipe]
  exact ⟨rfl, rfl⟩

/-- A poll, whatever it tests, loads latches or does nothing. -/
theorem poll_sameFlow {ready : Prop} [Decidable ready] (res : Result) (n : Nat) :
    s.unit.SameFlow (if ready then satisfied s res n else s).unit := by
  split
  · exact setPipe_sameFlow _
  · exact ⟨rfl, rfl⟩

theorem pollVideo_sameFlow : s.unit.SameFlow (pollVideo s).unit := by
  unfold pollVideo satisfied
  split
  · rw [State.unit_setPipe, State.unit_setUnit]
    exact ⟨rfl, rfl⟩
  · exact ⟨rfl, rfl⟩

theorem CogUnit.burnPrewait_sameFlow (u : CogUnit) : u.SameFlow u.burnPrewait := by
  unfold CogUnit.burnPrewait
  simp only
  split <;> exact ⟨rfl, rfl⟩

/-- Progress but in WaitingCycles leaves the program counter where it is. -/
theorem progress_sameFlow (hr : s.unit.pipe.runState ≠ .waitingCycles) (h : progress s = .next t) :
    s.unit.SameFlow t.unit := by
  unfold progress at h
  cases hstate : s.unit.pipe.runState with
  | waitingCycles => exact absurd hstate hr
  | executingInstruction =>
    rw [hstate] at h
    simp only [executeTick] at h
    split at h
    · rw [exec_frame h]; exact setPipe_sameFlow _
    · cases h
  | bootingInterpreter | waitingInterpreter | fetchingInterpreter => rw [hstate] at h; cases h
  | waitingPrewait => rw [hstate] at h; cases h; rw [State.unit_setUnit]; exact CogUnit.burnPrewait_sameFlow _
  | waitingPinsEqual | waitingPinsNotEqual | waitingCounter => rw [hstate] at h; cases h; exact poll_sameFlow _ _
  | waitingVideo => rw [hstate] at h; cases h; exact pollVideo_sameFlow
  | loadingProgram | hubReadByte | hubReadWord | hubReadLong | hubOperation => rw [hstate] at h; cases h; exact ⟨rfl, rfl⟩

/-- The progress of a native unit leaves the program counter fresh where it arrives, and the breakpoint as it is. -/
theorem progress_assigned (hnat : s.unit.strategy = .native) (h : progress s = .next t) :
    t.unit.assigned = s.unit.arrival ∧ t.unit.breakpoint = s.unit.breakpoint := by
  by_cases hr : s.unit.pipe.runState = .waitingCycles
  · unfold progress at h
    rw [hr] at h
    cases h
    rw [State.unit_setUnit]
    exact ⟨CogUnit.burn_assigned _ hr hnat, (congrArg CogUnit.breakpoint (CogUnit.burn_hidden _ _) :)⟩
  · rw [CogUnit.arrival_of_ne hr]
    exact progress_sameFlow hr h

/-! ## The answer of one unit's step, and of all -/

theorem finishUnit_stepOk {q : State} :
    (finishUnit q).stepOk = false ↔ q.stepOk = false ∨ ∃ a, q.unit.assigned = some a ∧ q.unit.breakpoint = some a := by
  have hsame : (q.unit.clockPeripherals q.cur q.pinIn q.tick).stepResult = q.unit.stepResult := rfl
  show (q.stepOk && (q.unit.clockPeripherals q.cur q.pinIn q.tick).stepResult) = false ↔ _
  rw [Bool.and_eq_false_iff, hsame, CogUnit.stepResult_eq_false]

/-- The unit of the slot arrives at its breakpoint in the ordinary steps of the tick. -/
def CogUnit.ReachesBreakpoint (u : CogUnit) : Prop :=
  u.active = true ∧ ∃ a, u.arrival = some a ∧ u.breakpoint = some a

/-- A step of a present native unit answers false if the unit arrives at its breakpoint. -/
theorem finishUnit_progress_stepOk {q : State} (hnat : s.unit.strategy = .native) (h : progress s = .next q) :
    (finishUnit q).stepOk = false ↔ s.stepOk = false ∨ ∃ a, s.unit.arrival = some a ∧ s.unit.breakpoint = some a := by
  obtain ⟨hassigned, hbreak⟩ := progress_assigned hnat h
  have hok : q.stepOk = s.stepOk := (congrArg State.stepOk (progress_frame h) :)
  rw [finishUnit_stepOk, hassigned, hbreak, hok]

theorem stepUnit_stepOk {k : UnitIx} (hnat : s.units[k].NativeIfPresent) (h : stepUnit k s = .next t) :
    (t.stepOk = false ↔ s.stepOk = false ∨ s.units[k].ReachesBreakpoint) ∧
      t.units[k].breakpoint = s.units[k].breakpoint := by
  obtain ⟨hactive, rfl⟩ | ⟨hactive, q, hq, rfl⟩ := stepUnit_eq_next h
  · refine ⟨⟨.inl, fun e => e.elim id fun hreach => ?_⟩, rfl⟩
    exact absurd (hreach.1.symm.trans hactive) (by decide)
  · have hbreak := (progress_assigned (s := { s with cur := k }) (hnat hactive) hq).2
    have hfinish := finishUnit_progress_stepOk (s := { s with cur := k }) (hnat hactive) hq
    refine ⟨hfinish.trans (or_congr_right ⟨fun e => ⟨hactive, e⟩, And.right⟩), ?_⟩
    exact (congrArg CogUnit.breakpoint (finishUnit_unit (progress_cur hq)) :).trans hbreak

theorem stepUnits_stepOk {l : List UnitIx} (hl : l.Nodup) (hnat : ∀ k ∈ l, s.units[k].NativeIfPresent)
    (h : stepUnits l s = .next t) :
    (t.stepOk = false ↔ s.stepOk = false ∨ ∃ k ∈ l, s.units[k].ReachesBreakpoint) ∧
      ∀ k : UnitIx, k ∈ l → t.units[k].breakpoint = s.units[k].breakpoint := by
  induction l generalizing s with
  | nil => cases h; simp
  | cons j l ih =>
    obtain ⟨q, hq, hrest⟩ := andThen_eq_next.1 h
    rw [List.nodup_cons] at hl
    have hsame : ∀ k : UnitIx, k ∈ l → q.units[k] = s.units[k] := fun k hk =>
      stepUnit_units_of_ne hq fun e => hl.1 (e ▸ hk)
    obtain ⟨hok, hbreak⟩ := stepUnit_stepOk (hnat j (by simp)) hq
    obtain ⟨hok', hbreak'⟩ := ih hl.2 (fun k hk => by rw [hsame k hk]; exact hnat k (by simp [hk])) hrest
    constructor
    · simp only [hok', hok, List.mem_cons, exists_eq_or_imp, or_assoc]
      refine or_congr_right (or_congr_right (exists_congr fun k => and_congr_right fun hk => ?_))
      rw [hsame k hk]
    · intro k hk
      obtain rfl | hk := List.mem_cons.1 hk
      · rw [stepUnits_units_of_not_mem hrest hl.1, hbreak]
      · rw [hbreak' k hk, hsame k hk]

/-! ## The hub grant -/

theorem hubTransact_stepOk (s : State) : (hubTransact s).stepOk = s.stepOk := by
  unfold hubTransact
  cases s.unit.pipe.hubKind with
  | coginit => simp only; unfold hubCoginit; simp only; split <;> split <;> rfl
  | cogstop => simp only; unfold hubCogstop; simp only; split <;> rfl
  | locknew => simp only; unfold hubLocknew; split <;> rfl
  | _ => rfl

theorem loadLong_stepOk (h : loadLong s = .next t) : t.stepOk = s.stepOk := by
  unfold loadLong at h
  simp only at h
  split at h
  · unfold boot at h
    split at h <;> cases h
    rfl
  · cases h; rfl

theorem hubHook_stepOk (h : hubHook s = .next t) : t.stepOk = s.stepOk := by
  unfold hubHook at h
  split at h
  · exact loadLong_stepOk h
  · cases h; rfl
  · cases h; rfl
  · cases h; rfl
  · cases h; exact hubTransact_stepOk s
  · cases h; rfl

theorem hubGrant_stepOk (h : hubGrant s = .next t) : t.stepOk = s.stepOk := by
  unfold hubGrant at h
  split at h
  · split at h
    · exact (hubHook_stepOk h :)
    · cases h; rfl
  · cases h; rfl

/-- In a legal slot a program counter arrives only at the end of a burn (R168, R171). -/
theorem CogUnit.arrival_of_sound {u : CogUnit} (h : u.Sound) (hfresh : u.pcFresh = false) (a : CogAddr) :
    u.arrival = some a ↔ u.pipe.runState = .waitingCycles ∧ u.pipe.nextState = .executingInstruction ∧
      u.pipe.stateArg = 1 ∧ a = u.pipe.pcNext := by
  have hnone : u.assigned = none := by unfold CogUnit.assigned; rw [hfresh]; rfl
  by_cases hr : u.pipe.runState = .waitingCycles
  · obtain ⟨hlo, -, hnext⟩ := (Pipe.legal_of_burning hr).1 h.latches
    have hlast : countdown u.pipe.stateArg = 0 ↔ u.pipe.stateArg = 1 := by
      have hcount := countdown_toNat u.pipe.stateArg
      constructor
      · intro e; rw [e] at hcount; bv_omega
      · rintro e; rw [e]; decide
    unfold CogUnit.arrival
    simp only [hr, hlast, hnext, hnone, true_and]
    by_cases e : u.pipe.stateArg = 1
    · rw [if_pos e, Option.some.injEq]; exact ⟨fun e' => ⟨e, e'.symm⟩, fun e' => e'.2.symm⟩
    · rw [if_neg e]; exact ⟨fun e' => (nomatch e'), fun e' => absurd e'.1 e⟩
  · rw [CogUnit.arrival_of_ne hr, hnone]
    exact ⟨fun e => (nomatch e), fun e => absurd e.1 hr⟩

theorem CogUnit.arrival_of_hubTail {u : CogUnit} (p : Pipe) (hfresh : u.pcFresh = false) :
    ({ u with pipe := p.beginTail hubTail } : CogUnit).arrival = none := by
  have hmore : ¬ countdown (p.beginTail hubTail).stateArg = 0 := by rw [Pipe.beginTail_stateArg]; decide
  unfold CogUnit.arrival CogUnit.assigned
  rw [if_neg fun e => hmore e.2, hfresh]
  rfl

/-- What the grant leaves in slot `k` arrives where the statement says, or has no breakpoint because it is a new unit or none. -/
def GrantedSlot (s g : State) (k : UnitIx) : Prop :=
  g.units[k].breakpoint = none ∨ ∀ a, (g.units[k].active = true ∧ g.units[k].arrival = some a) ↔ s.arrives k a

/-- A slot that the grant leaves alone. -/
theorem grantedSlot_of_kept {g : State} {k : UnitIx} (hlegal : s.legal) (hkept : g.units[k] = s.units[k])
    (hidle : s.units[k].active = true → s.units[k].pipe.runState = .loadingProgram → window (s.counter + 1) ≠ some k) :
    GrantedSlot s g k := by
  obtain ⟨hs, hfresh, -⟩ := State.legal_iff.1 hlegal
  refine .inr fun a => ?_
  rw [hkept]
  unfold State.arrives
  refine and_congr_right fun hactive => ?_
  rw [CogUnit.arrival_of_sound (hs.unit_sound hactive) (hfresh k)]
  exact ⟨.inl, fun e => e.resolve_right fun ⟨hr, _, hwindow, _⟩ => hidle hactive hr hwindow⟩

/-- A slot whose unit neither burns nor boots in this tick, before the grant or after it. -/
theorem grantedSlot_of_none {g : State} {k : UnitIx} (harrival : g.units[k].arrival = none)
    (hburn : s.units[k].pipe.runState ≠ .waitingCycles)
    (hboot : s.units[k].pipe.runState = .loadingProgram → s.units[k].count ≠ 495) : GrantedSlot s g k := by
  refine .inr fun a => ⟨fun e => ?_, fun e => ?_⟩
  · rw [harrival] at e; exact nomatch e.2
  · obtain ⟨-, ⟨hr, -⟩ | ⟨hr, hcount, -⟩⟩ := e
    · exact absurd hr hburn
    · exact absurd hcount (hboot hr)

/-- The unit that loads a long boots with the last one, and so arrives at 0 (R151). -/
theorem grantedSlot_of_loads {g : State} {k : UnitIx} (hlegal : s.legal) (hnat : s.units[k].strategy = .native)
    (hactive : s.units[k].active = true) (hr : s.units[k].pipe.runState = .loadingProgram)
    (hwindow : window (s.counter + 1) = some k) (h : loadLong (s.turn k) = .next g) : GrantedSlot s g k := by
  obtain ⟨hs, hfresh, -⟩ := State.legal_iff.1 hlegal
  have hcount : s.units[k].count < 496 := (hs.unit_sound hactive).count
  obtain hlt | heq : s.units[k].count < 495 ∨ s.units[k].count = 495 := by omega
  · cases h.symm.trans (loadLong_goes_on (s := s.turn k) hlt)
    have hslot := State.units_setSlot_self (s.turn k) ((s.turn k).loadedUnit (s.units[k].count + 1)) k
    refine grantedSlot_of_none ?_ (by rw [hr]; decide) fun _ => by omega
    refine (congrArg CogUnit.arrival hslot :).trans ?_
    rw [CogUnit.arrival_of_ne (u := (s.turn k).loadedUnit (s.units[k].count + 1)) (hr.trans_ne (by decide))]
    show (if s.units[k].pcFresh then some _ else none) = none
    rw [hfresh k]
    rfl
  · cases h.symm.trans (loadLong_boots (s := s.turn k) heq hnat)
    have hslot := State.units_setSlot_self (s.turn k) (((s.turn k).loadedUnit 0).bootNative ((s.turn k).viewOf k)) k
    have harrival := (congrArg CogUnit.arrival hslot :)
    refine .inr fun a => ⟨fun e => ⟨hactive, .inr ⟨hr, heq, hwindow, ?_⟩⟩, fun e => ⟨?_, ?_⟩⟩
    · exact (Option.some.inj (harrival.symm.trans e.2)).symm
    · exact (congrArg CogUnit.active hslot :).trans hactive
    · obtain ⟨-, ⟨hburn, -⟩ | ⟨-, -, -, rfl⟩⟩ := e
      · exact absurd (hr.symm.trans hburn) (by decide)
      · exact harrival

theorem hubGrant_grantedSlot {g : State} (hlegal : s.legal) (hnat : s.AllNative) (h : hubGrant (beginTick s) = .next g)
    (k : UnitIx) : GrantedSlot s g k := by
  obtain ⟨hkept, hwindow⟩ | ⟨j, hwindow, hactive, hslot⟩ := hubGrant_slot h k
  · exact grantedSlot_of_kept hlegal hkept fun ha _ => hwindow ha
  · obtain ⟨hs, hfresh, -⟩ := State.legal_iff.1 hlegal
    cases hslot with
    | kept hkept hidle =>
      refine grantedSlot_of_kept hlegal hkept fun _ hr e => ?_
      obtain rfl : j = k := Option.some.inj (hwindow.symm.trans e)
      exact hidle rfl hr
    | loads hk hr hload =>
      obtain rfl : k = j := hk
      exact grantedSlot_of_loads hlegal (hnat k hactive) hactive hr hwindow hload
    | ends hk hhub p hends =>
      obtain rfl : k = j := hk
      have hhub' : s.units[k].pipe.runState.isHub = true := hhub
      refine grantedSlot_of_none ?_ ?_ ?_
      · rw [hends]
        exact CogUnit.arrival_of_hubTail p (hfresh k)
      · intro e; rw [e] at hhub'; cases hhub'
      · intro e; rw [e] at hhub'; cases hhub'
    | starts _ _ hstarts => exact .inl (by rw [hstarts]; rfl)
    | stops hstops => exact .inl (by rw [hstops]; rfl)

/-! ## The tick -/

/-- The answer of a tick of a legal machine of native units (R381). -/
theorem step_stepOk (hlegal : s.legal) (hnat : s.AllNative) (h : step s = .next t) :
    t.stepOk = false ↔ ∃ (k : UnitIx) (a : CogAddr), s.arrives k a ∧ t.units[k].breakpoint = some a := by
  obtain ⟨g, q, hg, hq, rfl⟩ := step_eq_next h
  have hgnat : g.AllNative := by
    obtain ⟨g', hg', hnat'⟩ | ⟨r, hr, -⟩ := hubGrant_continues (s := beginTick s) hnat
    · cases hg.symm.trans hg'; exact hnat'
    · cases hg.symm.trans hr
  have hall : ∀ k : UnitIx, k ∈ [0, 1, 2, 3, 4, 5, 6, 7] := by decide
  obtain ⟨hok, hbreak⟩ := stepUnits_stepOk (by decide) (fun k _ => hgnat k) hq
  have hslot : ∀ k : UnitIx, g.units[k].ReachesBreakpoint ↔ ∃ a, s.arrives k a ∧ q.units[k].breakpoint = some a := by
    intro k
    unfold CogUnit.ReachesBreakpoint
    rw [hbreak k (hall k)]
    obtain hnone | harrives := hubGrant_grantedSlot hlegal hnat hg k
    · rw [hnone]; simp
    · simp only [← harrives, and_assoc, exists_and_left]
  have hstart : g.stepOk ≠ false := by rw [hubGrant_stepOk hg]; exact (by decide : true ≠ false)
  calc q.stepOk = false
      ↔ g.stepOk = false ∨ ∃ k ∈ ([0, 1, 2, 3, 4, 5, 6, 7] : List UnitIx), g.units[k].ReachesBreakpoint := hok
    _ ↔ ∃ k : UnitIx, g.units[k].ReachesBreakpoint :=
        ⟨fun e => (e.resolve_left hstart).imp fun _ => And.right, fun ⟨k, e⟩ => .inr ⟨k, hall k, e⟩⟩
    _ ↔ ∃ (k : UnitIx) (a : CogAddr), s.arrives k a ∧ q.units[k].breakpoint = some a := exists_congr hslot

/-- The answer of a tick whose only unit is a native one that uses no window. -/
theorem step_alone_stepOk {k : UnitIx} (halone : s.alone k) (hnat : s.units[k].strategy = .native)
    (hload : s.units[k].pipe.runState ≠ .loadingProgram) (hhub : s.units[k].pipe.runState.isHub = false)
    (h : step s = .next t) :
    t.stepOk = false ↔ ∃ a, s.units[k].arrival = some a ∧ s.units[k].breakpoint = some a := by
  rw [step_alone halone (hubHook_unused (s := s.turn k) hload hhub)] at h
  obtain ⟨q, hq, h⟩ := andThen_eq_next.1 h
  cases h
  refine (finishUnit_progress_stepOk (s := s.turn k) hnat hq).trans ⟨fun e => e.resolve_left ?_, .inr⟩
  exact (by decide : true ≠ false)

end

/-- Settles O47: the answer of a tick is that of its unit steps, and each of them answers by where its program counter arrives. -/
theorem breakpointReport : Obligations.BreakpointReport := by
  refine ⟨fun s t => step_stepOk, fun s t k halone hnat h => ⟨fun hr _ harg => ?_, fun hr hfresh => ?_⟩⟩
  · have harrival : s.units[k].arrival = some s.units[k].pipe.pcNext := if_pos ⟨hr, by rw [harg]; decide⟩
    rw [step_alone_stepOk halone hnat (hr.trans_ne (by decide)) ((congrArg _ hr).trans rfl) h, harrival]
    exact ⟨fun ⟨_, hpc, e⟩ => hpc ▸ e, fun e => ⟨_, rfl, e⟩⟩
  · have harrival : s.units[k].arrival = none := by
      rw [CogUnit.arrival_of_ne (hr.trans_ne (by decide)), CogUnit.assigned, hfresh]
      rfl
    rw [← Bool.not_eq_false, step_alone_stepOk halone hnat (hr.trans_ne (by decide)) ((congrArg _ hr).trans rfl) h, harrival]
    exact fun ⟨_, e, _⟩ => nomatch e

end Sys2Proof.Machine
end

section
/-! The register file of a unit (spec/42_special_registers.md R190 to R196) and what an ordinary step keeps from it to itself
(spec/47_hub_arbiter.md R390). -/

namespace Sys2Proof.Machine

/-! ## Reads -/

/-- A read is the read of the place that the address names (R190, R192). -/
theorem CogUnit.read_of_locate (u : CogUnit) (v : View) {a : CogAddr} {l : CogLoc} (h : locate a = l) :
    u.read v a = u.readLoc v l :=
  congrArg (u.readLoc v) h

/-- Settles O35: the cells by the dispatch below 0x1F0, and the special addresses each by the place that it names. -/
theorem registerReads : Obligations.RegisterReads := fun u v =>
  have place (a : CogAddr) (l : CogLoc) (h : locate a = l) := u.read_of_locate v h
  ⟨fun _ => u.read_cell v,
    place 0x1F0 .par (by decide +kernel), place 0x1F1 .cnt (by decide +kernel),
    place 0x1F2 .ina (by decide +kernel), place 0x1F3 .inb (by decide +kernel),
    place 0x1F4 .outa (by decide +kernel), place 0x1F5 .outb (by decide +kernel),
    place 0x1F6 .dira (by decide +kernel), place 0x1F7 .dirb (by decide +kernel),
    place 0x1F8 .ctra (by decide +kernel), place 0x1F9 .ctrb (by decide +kernel),
    place 0x1FA .frqa (by decide +kernel), place 0x1FB .frqb (by decide +kernel),
    place 0x1FC .phsa (by decide +kernel), place 0x1FD .phsb (by decide +kernel),
    place 0x1FE .vcfg (by decide +kernel), place 0x1FF .vscl (by decide +kernel)⟩

/-! ## Writes -/

theorem readOnly_iff {a : CogAddr} : readOnly a = true ↔ a = 0x1F1 ∨ a = 0x1F2 ∨ a = 0x1F3 := by
  simp only [readOnly, Bool.or_eq_true, beq_iff_eq, or_assoc]

/-- Settles O36: the law of a read after a write, with the addresses that discard writes named. -/
theorem registerRoundTrip : Obligations.RegisterRoundTrip := by
  intro u v a b x hmem
  rw [CogUnit.read_write v a b x hmem]
  simp only [← readOnly_iff]
  by_cases hb : b = a
  · subst hb
    cases readOnly b <;> simp
  · simp [hb]

/-! ## The link of the waveform generator -/

theorem Video.detach_pllAttached (g : Video) : g.detach.pllAttached = false := rfl

theorem Video.detach_detach (g : Video) : g.detach.detach = g.detach := rfl

/-- Settles O37: what a write makes of the link, at VCFG and at any other address, and the two laws of its release. -/
theorem videoLink : Obligations.VideoLink := by
  refine fun u a x => ⟨?_, fun ha => ?_, u.vid.detach_detach, u.vid.detach_pllAttached⟩
  · rw [CogUnit.write_pllAttached, if_pos rfl]
    exact bne_iff_ne
  · rw [CogUnit.write_pllAttached, if_neg ha]

/-! ## The ordinary step of a unit -/

/-- An ordinary step changes the slots and the model's own record of the tick, nothing else of the machine. -/
theorem stepUnit_frame {k : UnitIx} {s t : State} (h : stepUnit k s = .next t) :
    t = { s with units := t.units, cur := t.cur, stepOk := t.stepOk } := by
  obtain ⟨-, rfl⟩ | ⟨-, q, hq, rfl⟩ := stepUnit_eq_next h
  · rfl
  · have hframe := progress_frame hq
    generalize q.unit = u at hframe
    subst hframe
    rfl

/-- Settles O46: the other slots by the step's law for them, the shared parts by its frame. -/
theorem ordinaryStepIsPrivate : Obligations.OrdinaryStepIsPrivate := by
  intro k s t h
  refine ⟨fun j hj => stepUnit_units_of_ne h hj, ?_⟩
  rw [stepUnit_frame h]
  exact ⟨rfl, rfl, rfl, rfl, rfl, rfl, rfl, rfl⟩

end Sys2Proof.Machine
end

section
/-! The hub instructions that read and write hub memory (spec/43_native_hub_ops.md R221 to R226, spec/20_memory.md R75 to R78):
what the transaction in the hub window reads and stores, and what it leaves to the tail. -/

namespace Sys2Proof.Machine

/-! ## Reads -/

/-- A byte read (R76). -/
theorem memRead_byte (m : List Host.Cell) (a : Long) : (memRead m a 1).toNat = (hubByte m (a.toNat % 0x10000)).toNat := by
  rw [memRead, hubAlign_eq, hubBytesLE_succ _ _ _ (by decide), Nat.div_one, Nat.mul_one]
  rfl

/-- A word read, the byte at the even address least significant (R75, R76). -/
theorem memRead_word (m : List Host.Cell) (a : Long) :
    let b := a.toNat % 0x10000 / 2 * 2
    (memRead m a 2).toNat = (hubByte m b).toNat + 2 ^ 8 * (hubByte m (b + 1)).toNat := by
  rw [memRead, hubAlign_eq, hubBytesLE_succ _ _ _ (by decide), hubBytesLE_succ _ _ _ (by decide)]
  rfl

/-- A long read, the byte at the address divisible by four least significant (R75, R76). -/
theorem memRead_long (m : List Host.Cell) (a : Long) :
    let b := a.toNat % 0x10000 / 4 * 4
    (memRead m a 4).toNat = (hubByte m b).toNat + 2 ^ 8 * (hubByte m (b + 1)).toNat + 2 ^ 16 * (hubByte m (b + 2)).toNat
      + 2 ^ 24 * (hubByte m (b + 3)).toNat := by
  have hnone : (hubBytesLE m (a.toNat % 0x10000 / 4 * 4 + 4) 0).toNat = 0 := rfl
  rw [memRead, hubAlign_eq, hubBytesLE_succ _ _ _ (by decide), hubBytesLE_succ _ _ _ (by decide),
    hubBytesLE_succ _ _ _ (by decide), hubBytesLE_succ _ _ _ (by decide)]
  simp only [Nat.add_assoc, Nat.reduceAdd, hnone]
  omega

/-- A hub read completes with the number that its bytes make at the source address (R157, R164). -/
theorem hubReadSeq_completes {i : Instr} {s : State} {state : RunState} {n : Nat} {value : State → Nat}
    (hi : exec i s = hubReadSeq i s state) (h : s.holds i.fields) (hreads : state.Reads n)
    (hvalue : ∀ w : State, (memRead w.mem (s.source i.fields.src) n).toNat = value w) :
    CompletesHub i s state (fun _ => True) (fun w => w) (fun w res => res.r.toNat = value w ∧ res.z = (res.r == 0)) := by
  refine hub_completes (s.operandPipe i) (hi.trans (hubReadSeq_holds state h)) rfl rfl fun w _ hp hnat _ => ?_
  have hopS : w.unit.pipe.opS = s.source i.fields.src := by rw [hp]; rfl
  have hhook : hubHook w = .next (hubRead w n) := hubHook_reads (by rw [hp]; exact hreads)
  rw [hubRead, hopS] at hhook
  exact ⟨_, hhook, ⟨hvalue w, rfl⟩, hnat, rfl⟩

/-- Settles O27: the three reads take the bytes that a read of their width is made of. -/
theorem hubReads : Obligations.HubReads := by
  intro f s _ h _
  refine ⟨?_, ?_, ?_, ?_⟩
  · simp only [List.forall_mem_cons]
    exact ⟨Laws.EncodingFields.rdbyte f, Laws.EncodingFields.rdword f, Laws.EncodingFields.rdlong f, by simp⟩
  · exact hubReadSeq_completes (i := .rdbyte f) (n := 1) rfl h (by simp [RunState.Reads]) fun w => memRead_byte w.mem _
  · exact hubReadSeq_completes (i := .rdword f) (n := 2) rfl h (by simp [RunState.Reads]) fun w => memRead_word w.mem _
  · exact hubReadSeq_completes (i := .rdlong f) (n := 4) rfl h (by simp [RunState.Reads]) fun w => memRead_long w.mem _

/-! ## Writes -/

/-- The kind is that of a hub write of `n` bytes (R158). -/
def HubKind.Writes (kind : HubKind) (n : Nat) : Prop := (kind, n) ∈ [(HubKind.wrbyte, 1), (.wrword, 2), (.wrlong, 4)]

theorem HubKind.writes_cases {kind : HubKind} {n : Nat} (h : kind.Writes n) :
    (kind = .wrbyte ∧ n = 1) ∨ (kind = .wrword ∧ n = 2) ∨ (kind = .wrlong ∧ n = 4) := by
  simpa [HubKind.Writes] using h

theorem hubTransact_writes {w : State} {n : Nat} (h : w.unit.pipe.hubKind.Writes n) : hubTransact w = hubWrite w n := by
  obtain ⟨hk, rfl⟩ | ⟨hk, rfl⟩ | ⟨hk, rfl⟩ := HubKind.writes_cases h
  all_goals unfold hubTransact; rw [hk]

/-- A hub write ends as every transaction does, because its instruction has no result to write (R224). -/
theorem hubWrite_eq {w : State} (n : Nat) (hwr : (fieldsOf w.unit.pipe.opIR).wr = false) :
    hubWrite w n = endTransaction { w with mem := memWrite w.mem w.unit.pipe.opS n w.unit.pipe.opD }
      { r := 0, c := w.anyC, z := w.anyZ } := by
  have hfields : { fieldsOf w.unit.pipe.opIR with wr := false } = fieldsOf w.unit.pipe.opIR := by rw [← hwr]
  simp only [hubWrite, hfields]
  rfl

/-- A hub write completes with the low bytes of the destination operand stored at the source operand (R158, R164). -/
theorem hubWrite_completes {i : Instr} {s : State} {kind : HubKind} {n : Nat} (hi : exec i s = hubOpSeq i s fun _ => kind)
    (h : s.holds i.fields) (hwr : i.fields.wr = false) (hwrites : kind.Writes n) :
    CompletesHub i s .hubOperation (fun _ => True)
      (fun w => { w with mem := memWrite w.mem (s.source i.fields.src) n (s.readReg i.fields.d) }) (fun _ _ => True) := by
  refine hub_completes { s.operandPipe i with hubKind := kind } (hi.trans (hubOpSeq_holds _ h)) rfl rfl fun w _ hp hnat _ => ?_
  have hopS : w.unit.pipe.opS = s.source i.fields.src := by rw [hp]; rfl
  have hopD : w.unit.pipe.opD = s.readReg i.fields.d := by rw [hp]; rfl
  have hnowrite : (fieldsOf w.unit.pipe.opIR).wr = false := by
    rw [hp]; exact (congrArg Fields.wr (fieldsOf_encode i)).trans hwr
  have htransact : hubTransact w = hubWrite w n := hubTransact_writes (by rw [hp]; exact hwrites)
  rw [hubWrite_eq n hnowrite, hopS, hopD] at htransact
  exact ⟨_, by rw [hubHook_hubOperation (by rw [hp]), htransact], trivial, hnat, rfl⟩

/-- Settles O28: the three writes store the low bytes of `D`, of which ROM takes none. -/
theorem hubWrites : Obligations.HubWrites := by
  intro f s _ h hwr D S stores
  have hbytes (n : Nat) : ∀ m, Memory.wf m = true → ∀ b < 0x10000, hubByte (memWrite m S n D) b =
      if hubAlign S n ≤ b ∧ b < hubAlign S n + n ∧ b < 0x8000 then byteOf D (b - hubAlign S n) else hubByte m b :=
    fun m hm b _ => hubByte_hubPutBytesLE hm (hubAlign S n) D n b
  refine ⟨?_, ⟨?_, hbytes 1⟩, ⟨?_, hbytes 2⟩, ⟨?_, hbytes 4⟩⟩
  · simp only [List.forall_mem_cons]
    exact ⟨Laws.EncodingFields.wrbyte f, Laws.EncodingFields.wrword f, Laws.EncodingFields.wrlong f, by simp⟩
  · exact hubWrite_completes (i := .wrbyte f) rfl h hwr (by simp [HubKind.Writes])
  · exact hubWrite_completes (i := .wrword f) rfl h hwr (by simp [HubKind.Writes])
  · exact hubWrite_completes (i := .wrlong f) rfl h hwr (by simp [HubKind.Writes])

end Sys2Proof.Machine
end

section
/-! The hub operations on the clock register and on the locks, and the identity of the unit (spec/43_native_hub_ops.md R227,
R228, R230, R234 to R237): what each transaction changes and offers. -/

namespace Sys2Proof.Machine

/-! ## The selector -/

/-- Of the source operand only the low three bits select the operation (spec/30_encoding.md R107). -/
theorem hubSelect_of_mod {x : Inputs} {n : Nat} (h : x.s.toNat % 8 = n) :
    hubSelect x = hubSelect { x with s := BitVec.ofNat 32 n } := by
  have hn : (BitVec.ofNat 32 n).toNat % 8 = n := by rw [BitVec.toNat_ofNat]; omega
  unfold hubSelect
  rw [h, hn]

/-- An operation completes alike under its own name and as HUBOP, as `CompletesHub` says, if its transaction ends `done`
(R227). -/
theorem hubOp_spellings_complete {i : Instr} {s : State} {kind : HubKind} {good : State → Prop} {done : State → State}
    {offer : State → Result → Prop} (hi : exec i s = hubOpSeq i s hubSelect) (h : s.holds i.fields)
    (hsel : hubSelect (s.inputs i.fields) = kind)
    (transact : ∀ w, w.Operates kind (s.readReg i.fields.d) → good w →
      ∃ res, hubTransact w = endTransaction (done w) res ∧ offer w res ∧ (done w).unit = w.unit) :
    ∀ j ∈ [i, .hubop i.fields], CompletesHub j s .hubOperation good done offer := by
  subst hsel
  simp only [List.forall_mem_cons]
  exact ⟨hubOpSeq_completes hi h fun w _ => transact w,
    hubOpSeq_completes (i := .hubop i.fields) rfl h fun w _ => transact w, by simp⟩

section
variable {w : State} {d : Long}

/-! ## The clock register and the identity -/

theorem hubTransact_clkset (h : w.Operates .clkset d) :
    hubTransact w = endTransaction { w with clk := d.extractLsb' 0 8 } w.anyOffer := by
  rw [← BitVec.setWidth_eq_extractLsb' (by decide), ← h.opD]; unfold hubTransact; rw [h.kind]; rfl

theorem hubTransact_cogid (h : w.Operates .cogid d) : hubTransact w = endTransaction w (Result.index w.cur false) := by
  unfold hubTransact; rw [h.kind]; rfl

/-! ## The locks -/

/-- LOCKNEW takes the lowest free lock, or finds none (R234). -/
theorem hubTransact_locknew (h : w.Operates .locknew d) :
    hubTransact w = match lowest fun k => !w.lockAlloc.getLsbD k.val with
      | some k => endTransaction { w with lockAlloc := w.lockAlloc ||| 1#8 <<< k.val } (Result.index k false)
      | none => endTransaction w (Result.index 7 true) := by
  unfold hubTransact; rw [h.kind]; rfl

theorem hubTransact_lockret (h : w.Operates .lockret d) :
    hubTransact w = endTransaction { w with lockAlloc := w.lockAlloc &&& ~~~(1#8 <<< (indexOf d).val) }
      (Result.index (indexOf d) w.anyC) := by
  rw [← h.opD]; unfold hubTransact; rw [h.kind]; rfl

theorem hubTransact_lockset (h : w.Operates .lockset d) :
    hubTransact w = endTransaction { w with lockState := w.lockState ||| 1#8 <<< (indexOf d).val }
      (Result.index (indexOf d) (w.lockState.getLsbD (indexOf d).val)) := by
  rw [← h.opD]; unfold hubTransact; rw [h.kind]; rfl

theorem hubTransact_lockclr (h : w.Operates .lockclr d) :
    hubTransact w = endTransaction { w with lockState := w.lockState &&& ~~~(1#8 <<< (indexOf d).val) }
      (Result.index (indexOf d) (w.lockState.getLsbD (indexOf d).val)) := by
  rw [← h.opD]; unfold hubTransact; rw [h.kind]; rfl

theorem hubTransact_locknew_free {k : UnitIx} (h : w.Operates .locknew d) (hfree : w.lockAlloc.getLsbD k.val = false)
    (hbelow : ∀ j < k.val, w.lockAlloc.getLsbD j = true) :
    hubTransact w = endTransaction { w with lockAlloc := w.lockAlloc ||| 1#8 <<< k.val } (Result.index k false) := by
  have hlowest : lowest (fun j => !w.lockAlloc.getLsbD j.val) = some k :=
    lowest_eq_some (by rw [hfree]; rfl) fun j hj => by rw [hbelow j.val hj]; rfl
  rw [hubTransact_locknew h, hlowest]

theorem hubTransact_locknew_full (h : w.Operates .locknew d) (hfull : w.lockAlloc = 0xFF) :
    hubTransact w = endTransaction w (Result.index 7 true) := by
  have hlowest : lowest (fun j => !w.lockAlloc.getLsbD j.val) = none := lowest_eq_none (by rw [hfull]; decide)
  rw [hubTransact_locknew h, hlowest]

end

/-- Settles O31, by the transactions of the two operations. -/
theorem clockAndIdentity : Obligations.ClockAndIdentity := by
  intro f s _ h
  refine ⟨?_, fun hsel => ?_, fun hsel => ?_⟩
  · simp only [List.forall_mem_cons]
    exact ⟨Laws.EncodingFields.clkset f, Laws.EncodingFields.cogid f, Laws.EncodingFields.hubop f, by simp⟩
  · exact hubOp_spellings_complete (i := .clkset f) rfl h (hubSelect_of_mod hsel) fun w hops _ =>
      ⟨_, hubTransact_clkset hops, trivial, rfl⟩
  · exact hubOp_spellings_complete (i := .cogid f) rfl h (hubSelect_of_mod hsel) fun w hops _ =>
      have hindex := Result.index_value w.cur false
      ⟨_, hubTransact_cogid hops, ⟨hindex.1, hindex.2, rfl⟩, rfl⟩

/-- Settles O32, by the transactions of the four operations. -/
theorem lockOperations : Obligations.LockOperations := by
  intro f s _ h
  refine ⟨?_, fun hsel i hi => ⟨fun k hk => ?_, ?_⟩, fun hsel => ?_, fun hsel => ?_, fun hsel => ?_⟩
  · simp only [List.forall_mem_cons]
    exact ⟨Laws.EncodingFields.locknew f, Laws.EncodingFields.lockret f, Laws.EncodingFields.lockset f,
      Laws.EncodingFields.lockclr f, by simp⟩
  · exact hubOp_spellings_complete (i := .locknew f) rfl h (hubSelect_of_mod hsel)
      (fun w hops ⟨hfree, hbelow⟩ => ⟨_, hubTransact_locknew_free (k := ⟨k, hk⟩) hops hfree hbelow,
        ⟨Result.index_value ⟨k, hk⟩ false, rfl⟩, rfl⟩) i hi
  · exact hubOp_spellings_complete (i := .locknew f) rfl h (hubSelect_of_mod hsel)
      (fun w hops hfull => ⟨_, hubTransact_locknew_full hops hfull, ⟨Result.index_value 7 true, rfl⟩, rfl⟩) i hi
  · exact hubOp_spellings_complete (i := .lockret f) rfl h (hubSelect_of_mod hsel) fun w hops _ =>
      ⟨_, hubTransact_lockret hops, Result.index_value _ _, rfl⟩
  · exact hubOp_spellings_complete (i := .lockset f) rfl h (hubSelect_of_mod hsel) fun w hops _ =>
      ⟨_, hubTransact_lockset hops, ⟨Result.index_value _ _, rfl⟩, rfl⟩
  · exact hubOp_spellings_complete (i := .lockclr f) rfl h (hubSelect_of_mod hsel) fun w hops _ =>
      ⟨_, hubTransact_lockclr hops, ⟨Result.index_value _ _, rfl⟩, rfl⟩

end Sys2Proof.Machine
end

section
/-! Shifts, limits, field moves, logic and multiplexers (spec/44_native_shift_logic.md R260 to R287): every bit of each result,
and the flags that are offered with it. -/

namespace Sys2Proof.Machine

/-! ## Completion -/

/-- A plain instruction that offers "the result is zero" as its Z completes with a result of the bits of its rule (R162). -/
theorem plain_completes_bits {i : Instr} {s : State} {rule : Inputs → Result} {v : Long} {c : Bool} {bit : Nat → Bool}
    (hi : exec i s = plain i s rule) (hnat : s.native) (h : s.holds i.fields)
    (hoffer : rule (s.inputs i.fields) = Result.zeroFlag v c) (hbit : ∀ j < 32, v.getLsbD j = bit j) :
    ∃ R : Long, (∀ j < 32, R.getLsbD j = bit j) ∧ Completes i s 3 R c (R == 0) (s.unit.pc + 1) := by
  have hdone := plain_completes rule hi hnat h
  rw [hoffer] at hdone
  exact ⟨v, hbit, hdone⟩

/-! ## Shifts and rotates (R261 to R268) -/

theorem Inputs.count_lt (x : Inputs) : x.count < 32 := Nat.mod_lt _ (by decide)

/-- The low half of the pair `y:x` shifted right by `n`: what ROR and RCR compute, `y` being D or a filled C (R261, R265). -/
theorem shiftRight_or_bit (x y : Long) {n j : Nat} (hn : n < 32) (hj : j < 32) :
    ((x >>> n) ||| (y <<< (32 - n))).getLsbD j = if j + n < 32 then x.getLsbD (j + n) else y.getLsbD (j + n - 32) := by
  rw [BitVec.getLsbD_or, BitVec.getLsbD_ushiftRight, BitVec.getLsbD_shiftLeft, Nat.add_comm n j]
  split
  next hlow => simp [show j < 32 - n by omega]
  next hhigh =>
    rw [BitVec.getLsbD_of_ge x _ (by omega), show j - (32 - n) = j + n - 32 by omega]
    simp [hj, show ¬ j < 32 - n by omega]

/-- The high half of the pair `x:y` shifted left by `n`: what ROL and RCL compute (R262, R266). -/
theorem shiftLeft_or_bit (x y : Long) {n j : Nat} (hn : n < 32) (hj : j < 32) :
    ((x <<< n) ||| (y >>> (32 - n))).getLsbD j = if n ≤ j then x.getLsbD (j - n) else y.getLsbD (j + 32 - n) := by
  rw [BitVec.getLsbD_or, BitVec.getLsbD_shiftLeft, BitVec.getLsbD_ushiftRight, show 32 - n + j = j + 32 - n by omega]
  split
  next hhigh => simp [hj, hhigh, BitVec.getLsbD_of_ge y (j + 32 - n) (by omega)]
  next hlow => simp [show j < n by omega]

theorem resRor_bit (x : Inputs) {j : Nat} (hj : j < 32) :
    (resRor x).r.getLsbD j = x.d.getLsbD ((j + x.count) % 32) := by
  have hn := x.count_lt
  refine (shiftRight_or_bit x.d x.d hn hj).trans ?_
  split
  · rw [Nat.mod_eq_of_lt ‹_›]
  · rw [show (j + x.count) % 32 = j + x.count - 32 by omega]

theorem resRol_bit (x : Inputs) {j : Nat} (hj : j < 32) :
    (resRol x).r.getLsbD j = x.d.getLsbD ((j + 32 - x.count) % 32) := by
  have hn := x.count_lt
  refine (shiftLeft_or_bit x.d x.d hn hj).trans ?_
  split
  · rw [show (j + 32 - x.count) % 32 = j - x.count by omega]
  · rw [Nat.mod_eq_of_lt (by omega)]

theorem resShr_bit (x : Inputs) (j : Nat) :
    (resShr x).r.getLsbD j = (decide (j + x.count < 32) && x.d.getLsbD (j + x.count)) := by
  refine (BitVec.getLsbD_ushiftRight x.d x.count j).trans ?_
  rw [Nat.add_comm]
  by_cases hlow : j + x.count < 32
  · simp [hlow]
  · simp [hlow, BitVec.getLsbD_of_ge x.d (j + x.count) (by omega)]

theorem resShl_bit (x : Inputs) {j : Nat} (hj : j < 32) :
    (resShl x).r.getLsbD j = (decide (x.count ≤ j) && x.d.getLsbD (j - x.count)) := by
  show (x.d <<< x.count).getLsbD j = _
  rw [BitVec.getLsbD_shiftLeft, decide_eq_true hj, Bool.true_and, ← decide_not]
  simp only [not_lt]

theorem resRcr_bit (x : Inputs) {j : Nat} (hj : j < 32) :
    (resRcr x).r.getLsbD j = if j + x.count < 32 then x.d.getLsbD (j + x.count) else x.c := by
  have hn := x.count_lt
  refine (shiftRight_or_bit x.d (fill x.c) hn hj).trans ?_
  rw [fill_bit, decide_eq_true (by omega), Bool.true_and]

theorem resRcl_bit (x : Inputs) {j : Nat} (hj : j < 32) :
    (resRcl x).r.getLsbD j = if x.count ≤ j then x.d.getLsbD (j - x.count) else x.c := by
  refine (shiftLeft_or_bit x.d (fill x.c) x.count_lt hj).trans ?_
  split
  · rfl
  · rw [fill_bit, decide_eq_true (by omega), Bool.true_and]

theorem resSar_bit (x : Inputs) {j : Nat} (hj : j < 32) :
    (resSar x).r.getLsbD j = if j + x.count < 32 then x.d.getLsbD (j + x.count) else x.d.getLsbD 31 := by
  refine (BitVec.getLsbD_sshiftRight x.d x.count j).trans ?_
  rw [Nat.add_comm, BitVec.msb_eq_getLsbD_last]
  simp [hj]

theorem resRev_bit (x : Inputs) (j : Nat) :
    (resRev x).r.getLsbD j = (decide (j + x.count < 32) && x.d.getLsbD (31 - x.count - j)) := by
  refine (BitVec.getLsbD_ushiftRight x.d.reverse x.count j).trans ?_
  rw [BitVec.getLsbD_reverse, BitVec.getMsbD, Nat.add_comm x.count j, show 32 - 1 - (j + x.count) = 31 - x.count - j by omega]

/-- Settles O10, by the bits of the eight results. -/
theorem shiftResults : Obligations.ShiftResults := by
  intro f s hnat h
  refine ⟨?_, ?_, ?_, ?_, ?_, ?_, ?_, ?_, ?_⟩
  · simp only [List.forall_mem_cons]
    exact ⟨Laws.EncodingFields.ror f, Laws.EncodingFields.rol f, Laws.EncodingFields.shr f, Laws.EncodingFields.shl f,
      Laws.EncodingFields.rcr f, Laws.EncodingFields.rcl f, Laws.EncodingFields.sar f, Laws.EncodingFields.rev f, by simp⟩
  · exact plain_completes_bits (i := .ror f) (rule := resRor) rfl hnat h rfl fun _ => resRor_bit (s.inputs f)
  · exact plain_completes_bits (i := .rol f) (rule := resRol) rfl hnat h rfl fun _ => resRol_bit (s.inputs f)
  · exact plain_completes_bits (i := .shr f) (rule := resShr) rfl hnat h rfl fun j _ => resShr_bit (s.inputs f) j
  · exact plain_completes_bits (i := .shl f) (rule := resShl) rfl hnat h rfl fun _ => resShl_bit (s.inputs f)
  · exact plain_completes_bits (i := .rcr f) (rule := resRcr) rfl hnat h rfl fun _ => resRcr_bit (s.inputs f)
  · exact plain_completes_bits (i := .rcl f) (rule := resRcl) rfl hnat h rfl fun _ => resRcl_bit (s.inputs f)
  · exact plain_completes_bits (i := .sar f) (rule := resSar) rfl hnat h rfl fun _ => resSar_bit (s.inputs f)
  · exact plain_completes_bits (i := .rev f) (rule := resRev) rfl hnat h rfl fun j _ => resRev_bit (s.inputs f) j

/-! ## Limits (R269 to R272) -/

theorem resMins_toInt (x : Inputs) : (resMins x).r.toInt = max x.d.toInt x.s.toInt := by
  simp only [resMins, Result.limit, BitVec.slt, decide_eq_true_eq, apply_ite BitVec.toInt, max_def_lt]

theorem resMaxs_toInt (x : Inputs) : (resMaxs x).r.toInt = min x.d.toInt x.s.toInt := by
  simp only [resMaxs, Result.limit, BitVec.slt, decide_eq_true_eq, apply_ite BitVec.toInt, min_def_lt]

theorem resMin_toNat (x : Inputs) : (resMin x).r.toNat = max x.d.toNat x.s.toNat := by
  simp only [resMin, Result.limit, BitVec.ult, decide_eq_true_eq, apply_ite BitVec.toNat, max_def_lt]

theorem resMax_toNat (x : Inputs) : (resMax x).r.toNat = min x.d.toNat x.s.toNat := by
  simp only [resMax, Result.limit, BitVec.ult, decide_eq_true_eq, apply_ite BitVec.toNat, min_def_lt]

/-- Settles O11: the comparison that gives C also chooses between the two values. -/
theorem limitResults : Obligations.LimitResults := by
  intro f s hnat h
  refine ⟨?_, ⟨_, resMins_toInt (s.inputs f), ?_⟩, ⟨_, resMaxs_toInt (s.inputs f), ?_⟩, ⟨_, resMin_toNat (s.inputs f), ?_⟩,
    ⟨_, resMax_toNat (s.inputs f), ?_⟩⟩
  · simp only [List.forall_mem_cons]
    exact ⟨Laws.EncodingFields.mins f, Laws.EncodingFields.maxs f, Laws.EncodingFields.min f, Laws.EncodingFields.max f,
      by simp⟩
  · exact plain_completes (i := .mins f) resMins rfl hnat h
  · exact plain_completes (i := .maxs f) resMaxs rfl hnat h
  · exact plain_completes (i := .min f) resMin rfl hnat h
  · exact plain_completes (i := .max f) resMax rfl hnat h

/-! ## Field moves (R273 to R275) -/

/-- A plain instruction that replaces the field from bit `lo` up completes with those nine bits of S in D, and an open C. -/
theorem replaceField_completes {i : Instr} {s : State} {lo : Nat} {c : Bool} (hlo : lo = 0 ∨ lo = 9 ∨ lo = 23)
    (hi : exec i s = plain i s fun x => Result.zeroFlag (replaceField x lo) c) (hnat : s.native) (h : s.holds i.fields) :
    ∃ (R : Long) (c : Bool),
      (∀ j < 32, R.getLsbD j =
        if lo ≤ j ∧ j < lo + 9 then (s.source i.fields.src).getLsbD (j - lo) else (s.readReg i.fields.d).getLsbD j) ∧
      Completes i s 3 R c (R == 0) (s.unit.pc + 1) :=
  have ⟨R, hbits, hdone⟩ :=
    plain_completes_bits hi hnat h rfl fun j => replaceField_bit (s.inputs i.fields) lo j hlo
  ⟨R, c, hbits, hdone⟩

/-- Settles O12, by the bits of a replaced field. -/
theorem fieldMoveResults : Obligations.FieldMoveResults := by
  intro f s hnat h
  refine ⟨?_, ?_, ?_, ?_⟩
  · simp only [List.forall_mem_cons]
    exact ⟨Laws.EncodingFields.movs f, Laws.EncodingFields.movd f, Laws.EncodingFields.movi f, by simp⟩
  · exact replaceField_completes (i := .movs f) (c := s.anyC) (.inl rfl) rfl hnat h
  · exact replaceField_completes (i := .movd f) (c := s.anyC) (.inr (.inl rfl)) rfl hnat h
  · exact replaceField_completes (i := .movi f) (c := s.anyC) (.inr (.inr rfl)) rfl hnat h

/-! ## Logic (R276 to R281) -/

theorem Result.logic_eq (r : Long) : Result.logic r = Result.zeroFlag r (oddOnes r) := by
  rw [Result.logic, parity_eq_oddOnes]

/-- A plain instruction of the logic group completes with the bits of its rule and their parity (R286). -/
theorem logic_completes {i : Instr} {s : State} {rule : Inputs → Result} {v : Long} {bit : Nat → Bool}
    (hi : exec i s = plain i s rule) (hnat : s.native) (h : s.holds i.fields)
    (hoffer : rule (s.inputs i.fields) = Result.logic v) (hbit : ∀ j < 32, v.getLsbD j = bit j) :
    ∃ R : Long, (∀ j < 32, R.getLsbD j = bit j) ∧ Completes i s 3 R (oddOnes R) (R == 0) (s.unit.pc + 1) := by
  have hdone := plain_completes rule hi hnat h
  rw [hoffer, Result.logic_eq] at hdone
  exact ⟨v, hbit, hdone⟩

theorem andNot_bit (x y : Long) {j : Nat} (hj : j < 32) : (x &&& ~~~y).getLsbD j = (x.getLsbD j && !y.getLsbD j) := by
  simp [hj]

theorem xor_bit (x y : Long) (j : Nat) : (x ^^^ y).getLsbD j = (x.getLsbD j != y.getLsbD j) := by
  rw [BitVec.getLsbD_xor, Bool.bne_eq_xor]

/-- Settles O13: TEST and TESTN run the rules of AND and ANDN; which of the two a long spells is its `wr`. -/
theorem logicResults : Obligations.LogicResults := by
  intro f s hnat h
  refine ⟨?_, fun _ => ⟨?_, ?_⟩, fun _ => ⟨?_, ?_⟩, ?_, ?_⟩
  · simp only [List.forall_mem_cons]
    exact ⟨Laws.EncodingFields.and f, Laws.EncodingFields.test f, Laws.EncodingFields.andn f, Laws.EncodingFields.testn f,
      Laws.EncodingFields.or f, Laws.EncodingFields.xor f, by simp⟩
  · exact logic_completes (i := .and f) rfl hnat h rfl fun _ _ => BitVec.getLsbD_and
  · exact logic_completes (i := .andn f) rfl hnat h rfl fun _ => andNot_bit _ _
  · exact logic_completes (i := .test f) rfl hnat h rfl fun _ _ => BitVec.getLsbD_and
  · exact logic_completes (i := .testn f) rfl hnat h rfl fun _ => andNot_bit _ _
  · exact logic_completes (i := .or f) rfl hnat h rfl fun _ _ => BitVec.getLsbD_or
  · exact logic_completes (i := .xor f) rfl hnat h rfl fun j _ => xor_bit _ _ j

/-! ## Multiplexers (R282 to R285) -/

theorem resMux_bit (b : Bool) (x : Inputs) {j : Nat} (hj : j < 32) :
    (resMux b x).r.getLsbD j = if x.s.getLsbD j then b else x.d.getLsbD j := by
  show ((x.d &&& ~~~x.s) ||| (x.s &&& fill b)).getLsbD j = _
  rw [BitVec.getLsbD_or, andNot_bit _ _ hj, BitVec.getLsbD_and, fill_bit]
  cases x.s.getLsbD j
  · simp
  · simp [hj]

/-- A multiplexer of the flag `b` completes with the value of that flag in the bits of D that S selects. -/
theorem mux_completes {i : Instr} {s : State} {b : Inputs → Bool} {flag : Bool}
    (hi : exec i s = plain i s fun x => resMux (b x) x) (hnat : s.native) (h : s.holds i.fields)
    (hflag : b (s.inputs i.fields) = flag) :
    ∃ R : Long,
      (∀ j < 32, R.getLsbD j = if (s.source i.fields.src).getLsbD j then flag else (s.readReg i.fields.d).getLsbD j) ∧
      Completes i s 3 R (oddOnes R) (R == 0) (s.unit.pc + 1) := by
  subst hflag
  exact logic_completes (v := (resMux (b (s.inputs i.fields)) (s.inputs i.fields)).r) hi hnat h rfl fun _ => resMux_bit _ _

/-- Settles O14: the four are the multiplexer of C, of Z and of their complements. -/
theorem multiplexResults : Obligations.MultiplexResults := by
  intro f s hnat h
  refine ⟨?_, ?_, ?_, ?_, ?_⟩
  · simp only [List.forall_mem_cons]
    exact ⟨Laws.EncodingFields.muxc f, Laws.EncodingFields.muxnc f, Laws.EncodingFields.muxz f, Laws.EncodingFields.muxnz f,
      by simp⟩
  · exact mux_completes (i := .muxc f) (b := Inputs.c) rfl hnat h rfl
  · exact mux_completes (i := .muxnc f) (b := fun x => !x.c) rfl hnat h rfl
  · exact mux_completes (i := .muxz f) (b := Inputs.z) rfl hnat h rfl
  · exact mux_completes (i := .muxnz f) (b := fun x => !x.z) rfl hnat h rfl

end Sys2Proof.Machine
end

section
/-! Arithmetic, moves and compares (spec/45_native_arith.md R300 to R328). The model narrows an exact sum or difference; each
result is given here as the 32-bit sum or difference of its operands, with the flags that the exact value decides. -/

namespace Sys2Proof.Machine

/-! ## Completion -/

/-- A plain instruction completes with what its rule offers for the operands and flags of the execute tick. -/
theorem plain_completes_with {i : Instr} {s : State} {rule : Inputs → Result} {r : Long} {c z : Bool}
    (hi : exec i s = plain i s rule) (hnat : s.native) (h : s.holds i.fields)
    (hoffer : rule (s.inputs i.fields) = { r := r, c := c, z := z }) : Completes i s 3 r c z (s.unit.pc + 1) := by
  have hdone := plain_completes rule hi hnat h
  rwa [hoffer] at hdone

/-! ## Narrowed sums and differences (R300) -/

/-- An exact unsigned sum is never negative: only a carry leaves the range. -/
theorem Result.unsigned_of_sum {t : Int} {n : Nat} {r : Long} (hr : BitVec.ofInt 32 t = r) (ht : t = n) :
    Result.unsigned t = Result.zeroFlag r (decide (2 ^ 32 ≤ n)) := by
  have hcarry : (t < 0 ∨ 2 ^ 32 ≤ t) ↔ 2 ^ 32 ≤ n := by omega
  simp only [Result.unsigned, hr, hcarry]

/-- An exact unsigned difference is never too great: only a borrow leaves the range. -/
theorem Result.unsigned_of_difference {t : Int} {n : Nat} {v r : Long} (hr : BitVec.ofInt 32 t = r) (ht : t = v.toNat - n) :
    Result.unsigned t = Result.zeroFlag r (decide (v.toNat < n)) := by
  have hlt := v.isLt
  have hborrow : (t < 0 ∨ 2 ^ 32 ≤ t) ↔ v.toNat < n := by omega
  simp only [Result.unsigned, hr, hborrow]

theorem Result.signed_eq {t : Int} {r : Long} (hr : BitVec.ofInt 32 t = r) :
    Result.signed t = Result.zeroFlag r (decide (t < -2 ^ 31 ∨ 2 ^ 31 - 1 < t)) := by
  have hoverflow : (t < -(2 ^ 31) ∨ 2 ^ 31 ≤ t) ↔ (t < -2 ^ 31 ∨ 2 ^ 31 - 1 < t) := by omega
  simp only [Result.signed, hr, hoverflow]

/-- A difference is 0 exactly if its operands are equal: the Z of the compares. -/
theorem sub_beq_zero (x y : Long) : (x - y == 0) = (x == y) := by
  rw [Bool.eq_iff_iff, beq_iff_eq, beq_iff_eq]
  exact sub_eq_zero

theorem negate_eq_neg (v : Long) : negate v = -v := BitVec.zero_sub v

theorem absLong_eq_ofNat (v : Long) : absLong v = BitVec.ofNat 32 v.toInt.natAbs := by
  rw [← absLong_toNat, BitVec.ofNat_toNat, BitVec.setWidth_eq]

/-! ## Unsigned sums and differences (R301 to R305) -/

theorem resAdd_eq (x : Inputs) :
    resAdd x = Result.zeroFlag (x.d + x.s) (decide (2 ^ 32 ≤ x.d.toNat + x.s.toNat)) :=
  Result.unsigned_of_sum (ofInt_toNat_add _ _) (Int.natCast_add _ _).symm

theorem resSub_eq (x : Inputs) : resSub x = Result.zeroFlag (x.d - x.s) (decide (x.d.toNat < x.s.toNat)) :=
  Result.unsigned_of_difference (ofInt_toNat_sub _ _) rfl

/-- SUB read as a compare (R303). -/
theorem resSub_eq_compare (x : Inputs) :
    resSub x = { r := x.d - x.s, c := decide (x.d.toNat < x.s.toNat), z := x.d == x.s } := by
  rw [resSub_eq, Result.zeroFlag, sub_beq_zero]

/-- ADDABS adds the magnitude of S. -/
theorem resAddabs_eq (x : Inputs) :
    resAddabs x = Result.zeroFlag (x.d + BitVec.ofNat 32 x.s.toInt.natAbs)
      (decide (2 ^ 32 ≤ x.d.toNat + x.s.toInt.natAbs)) := by
  rw [← absLong_eq_ofNat, ← absLong_toNat]
  exact resAdd_eq { x with s := absLong x.s }

/-- SUBABS subtracts the magnitude of S. -/
theorem resSubabs_eq (x : Inputs) :
    resSubabs x = Result.zeroFlag (x.d - BitVec.ofNat 32 x.s.toInt.natAbs) (decide (x.d.toNat < x.s.toInt.natAbs)) := by
  rw [← absLong_eq_ofNat, ← absLong_toNat]
  exact resSub_eq { x with s := absLong x.s }

/-- Settles O15: an unsigned sum leaves the range by its carry, a difference by its borrow. -/
theorem unsignedResults : Obligations.UnsignedResults := by
  intro f s hnat h
  refine ⟨?_, ?_, fun _ => ?_, fun _ => ?_, ?_, ?_⟩
  · simp only [List.forall_mem_cons]
    exact ⟨Laws.EncodingFields.add f, Laws.EncodingFields.sub f, Laws.EncodingFields.cmp f, Laws.EncodingFields.addabs f,
      Laws.EncodingFields.subabs f, by simp⟩
  · exact plain_completes_with (i := .add f) rfl hnat h (resAdd_eq _)
  · exact plain_completes_with (i := .sub f) rfl hnat h (resSub_eq _)
  · exact plain_completes_with (i := .cmp f) rfl hnat h (resSub_eq_compare _)
  · exact plain_completes_with (i := .addabs f) rfl hnat h (resAddabs_eq _)
  · exact plain_completes_with (i := .subabs f) rfl hnat h (resSubabs_eq _)

/-! ## Signed sums and differences (R306 to R309, R323, R324) -/

theorem resAdds_eq (x : Inputs) :
    resAdds x = Result.zeroFlag (x.d + x.s)
      (decide (x.d.toInt + x.s.toInt < -2 ^ 31 ∨ 2 ^ 31 - 1 < x.d.toInt + x.s.toInt)) :=
  Result.signed_eq (ofInt_toInt_add _ _)

theorem resSubs_eq (x : Inputs) :
    resSubs x = Result.zeroFlag (x.d - x.s)
      (decide (x.d.toInt - x.s.toInt < -2 ^ 31 ∨ 2 ^ 31 - 1 < x.d.toInt - x.s.toInt)) :=
  Result.signed_eq (ofInt_toInt_sub _ _)

/-- A sum of a chosen sign is the signed difference or the signed sum. -/
theorem resSum_eq (b : Bool) (x : Inputs) : resSum b x = if b then resSubs x else resAdds x := by
  cases b <;> rfl

/-- A conditional sum of the flag `b` completes with the difference or the sum and its signed overflow. -/
theorem sum_completes {i : Instr} {s : State} {b : Inputs → Bool} {minus : Bool}
    (hi : exec i s = plain i s fun x => resSum (b x) x) (hnat : s.native) (h : s.holds i.fields)
    (hflag : b (s.inputs i.fields) = minus) :
    let D := s.readReg i.fields.d
    let S := s.source i.fields.src
    let R := if minus then D - S else D + S
    let T := if minus then D.toInt - S.toInt else D.toInt + S.toInt
    Completes i s 3 R (decide (T < -2 ^ 31 ∨ 2 ^ 31 - 1 < T)) (R == 0) (s.unit.pc + 1) := by
  refine plain_completes_with hi hnat h ?_
  rw [hflag, resSum_eq]
  cases minus with
  | true => exact resSubs_eq _
  | false => exact resAdds_eq _

/-- Settles O16: the four are the conditional sum of C, of Z and of their complements. -/
theorem conditionalSumResults : Obligations.ConditionalSumResults := by
  intro f s hnat h
  refine ⟨?_, ?_, ?_, ?_, ?_⟩
  · simp only [List.forall_mem_cons]
    exact ⟨Laws.EncodingFields.sumc f, Laws.EncodingFields.sumnc f, Laws.EncodingFields.sumz f, Laws.EncodingFields.sumnz f,
      by simp⟩
  · exact sum_completes (i := .sumc f) (b := Inputs.c) rfl hnat h rfl
  · exact sum_completes (i := .sumnc f) (b := fun x => !x.c) rfl hnat h rfl
  · exact sum_completes (i := .sumz f) (b := Inputs.z) rfl hnat h rfl
  · exact sum_completes (i := .sumnz f) (b := fun x => !x.z) rfl hnat h rfl

/-! ## Moves and negations (R310 to R317) -/

/-- A plain instruction of the move group completes with its value, its C being the top bit of S. -/
theorem move_completes {i : Instr} {s : State} {rule : Inputs → Result} {r : Long} (hi : exec i s = plain i s rule)
    (hnat : s.native) (h : s.holds i.fields) (hoffer : rule (s.inputs i.fields) = Result.move (s.inputs i.fields) r) :
    Completes i s 3 r ((s.source i.fields.src).getLsbD 31) (r == 0) (s.unit.pc + 1) := by
  refine plain_completes_with hi hnat h ?_
  rw [hoffer, Result.move, BitVec.msb_eq_getLsbD_last]
  rfl

theorem resNeg_eq (x : Inputs) : resNeg x = Result.move x (-x.s) := by
  rw [resNeg, negate_eq_neg]

theorem resAbs_eq (x : Inputs) : resAbs x = Result.move x (BitVec.ofNat 32 x.s.toInt.natAbs) := by
  rw [resAbs, absLong_eq_ofNat]

/-- ABSNEG keeps a negative S and negates any other, which is to negate the magnitude (R313). -/
theorem resAbsneg_eq (x : Inputs) : resAbsneg x = Result.move x (-BitVec.ofNat 32 x.s.toInt.natAbs) := by
  rw [resAbsneg, ← absLong_eq_ofNat, absLong, negate_eq_neg]
  cases x.s.msb with
  | true => simp only [if_true, neg_neg]
  | false => rfl

theorem resNegIf_eq (b : Bool) (x : Inputs) : resNegIf b x = Result.move x (if b then -x.s else x.s) := by
  rw [resNegIf, negate_eq_neg]

theorem resNegIf_not_eq (b : Bool) (x : Inputs) : resNegIf (!b) x = Result.move x (if b then x.s else -x.s) := by
  rw [resNegIf_eq]
  cases b <;> rfl

/-- Settles O17, by the value that each of the eight moves. -/
theorem moveResults : Obligations.MoveResults := by
  intro f s hnat h
  refine ⟨?_, ?_, ?_, ?_, ?_, ?_, ?_, ?_, ?_⟩
  · simp only [List.forall_mem_cons]
    exact ⟨Laws.EncodingFields.mov f, Laws.EncodingFields.neg f, Laws.EncodingFields.abs f, Laws.EncodingFields.absneg f,
      Laws.EncodingFields.negc f, Laws.EncodingFields.negnc f, Laws.EncodingFields.negz f, Laws.EncodingFields.negnz f,
      by simp⟩
  · exact move_completes (i := .mov f) (rule := resMov) rfl hnat h rfl
  · exact move_completes (i := .neg f) rfl hnat h (resNeg_eq _)
  · exact move_completes (i := .abs f) rfl hnat h (resAbs_eq _)
  · exact move_completes (i := .absneg f) rfl hnat h (resAbsneg_eq _)
  · exact move_completes (i := .negc f) rfl hnat h (resNegIf_eq _ _)
  · exact move_completes (i := .negnc f) rfl hnat h (resNegIf_not_eq _ _)
  · exact move_completes (i := .negz f) rfl hnat h (resNegIf_eq _ _)
  · exact move_completes (i := .negnz f) rfl hnat h (resNegIf_not_eq _ _)

/-! ## Carry in (R319 to R322, R325, R326) -/

/-- The C flag as the long that the extended instructions add or subtract. -/
def Inputs.carry (x : Inputs) : Long := if x.c then 1 else 0

theorem carryIn_eq_carry (x : Inputs) : carryIn x = x.carry.toNat := carryIn_eq x

theorem ofInt_add_carryIn (t : Int) (x : Inputs) : BitVec.ofInt 32 (t + carryIn x) = BitVec.ofInt 32 t + x.carry := by
  rw [BitVec.ofInt_add, ofInt_carryIn, Inputs.carry]

theorem ofInt_sub_carryIn (t : Int) (x : Inputs) : BitVec.ofInt 32 (t - carryIn x) = BitVec.ofInt 32 t - x.carry := by
  rw [Int.sub_eq_add_neg, BitVec.ofInt_add, ofInt_neg_carryIn, ← BitVec.sub_eq_add_neg, Inputs.carry]

theorem resAddx_eq (x : Inputs) :
    resAddx x = (Result.zeroFlag (x.d + x.s + x.carry)
      (decide (2 ^ 32 ≤ x.d.toNat + x.s.toNat + x.carry.toNat))).extended x := by
  refine congrArg (Result.extended x) (Result.unsigned_of_sum ?_ ?_)
  · rw [ofInt_add_carryIn, ofInt_toNat_add]
  · rw [carryIn_eq_carry, Int.natCast_add, Int.natCast_add]

theorem resSubx_eq (x : Inputs) :
    resSubx x = (Result.zeroFlag (x.d - x.s - x.carry)
      (decide (x.d.toNat < x.s.toNat + x.carry.toNat))).extended x := by
  refine congrArg (Result.extended x) (Result.unsigned_of_difference ?_ ?_)
  · rw [ofInt_sub_carryIn, ofInt_toNat_sub]
  · rw [carryIn_eq_carry, Int.natCast_add, Int.sub_sub]

/-- ADDSX: the exact sum with the carry in decides the overflow. -/
theorem resAddsx_eq (x : Inputs) :
    let t := x.d.toInt + x.s.toInt + x.carry.toNat
    resAddsx x = (Result.zeroFlag (x.d + x.s + x.carry) (decide (t < -2 ^ 31 ∨ 2 ^ 31 - 1 < t))).extended x := by
  rw [← carryIn_eq_carry]
  refine congrArg (Result.extended x) (Result.signed_eq ?_)
  rw [ofInt_add_carryIn, ofInt_toInt_add]

/-- SUBSX: the exact difference with the borrow in decides the overflow. -/
theorem resSubsx_eq (x : Inputs) :
    let t := x.d.toInt - x.s.toInt - x.carry.toNat
    resSubsx x = (Result.zeroFlag (x.d - x.s - x.carry) (decide (t < -2 ^ 31 ∨ 2 ^ 31 - 1 < t))).extended x := by
  rw [← carryIn_eq_carry]
  refine congrArg (Result.extended x) (Result.signed_eq ?_)
  rw [ofInt_sub_carryIn, ofInt_toInt_sub]

/-- CMPSX: the exact difference with the borrow in is negative exactly if D < S + C. -/
theorem resCmpsx_eq (x : Inputs) :
    resCmpsx x = (Result.zeroFlag (x.d - x.s - x.carry)
      (decide (x.d.toInt < x.s.toInt + x.carry.toNat))).extended x := by
  have hvalue : BitVec.ofInt 32 (x.d.toInt - x.s.toInt - carryIn x) = x.d - x.s - x.carry := by
    rw [ofInt_sub_carryIn, ofInt_toInt_sub]
  have hless : x.d.toInt - x.s.toInt - carryIn x < 0 ↔ x.d.toInt < x.s.toInt + x.carry.toNat := by
    rw [carryIn_eq_carry]
    omega
  simp only [resCmpsx, hvalue, hless]

/-- Settles O18: CMPS compares the signed readings, CMPSX with the borrow in. -/
theorem signedCompareResults : Obligations.SignedCompareResults := by
  intro f s hnat h
  refine ⟨?_, ?_, ?_⟩
  · simp only [List.forall_mem_cons]
    exact ⟨Laws.EncodingFields.cmps f, Laws.EncodingFields.cmpsx f, by simp⟩
  · exact plain_completes (i := .cmps f) resCmps rfl hnat h
  · exact plain_completes_with (i := .cmpsx f) rfl hnat h (resCmpsx_eq _)

/-- Settles O19, by the exact sum or difference with the carry in, narrowed. -/
theorem extendedResults : Obligations.ExtendedResults := by
  intro f s hnat h
  refine ⟨?_, ?_, fun _ => ?_, fun _ => ?_, ?_, ?_⟩
  · simp only [List.forall_mem_cons]
    exact ⟨Laws.EncodingFields.addx f, Laws.EncodingFields.subx f, Laws.EncodingFields.cmpx f, Laws.EncodingFields.addsx f,
      Laws.EncodingFields.subsx f, by simp⟩
  · exact plain_completes_with (i := .addx f) rfl hnat h (resAddx_eq _)
  · exact plain_completes_with (i := .subx f) rfl hnat h (resSubx_eq _)
  · exact plain_completes_with (i := .cmpx f) rfl hnat h (resSubx_eq _)
  · exact plain_completes_with (i := .addsx f) rfl hnat h (resAddsx_eq _)
  · exact plain_completes_with (i := .subsx f) rfl hnat h (resSubsx_eq _)

/-! ## Compare and subtract (R327) -/

theorem resCmpsub_eq (x : Inputs) :
    resCmpsub x = { r := if x.s.toNat ≤ x.d.toNat then x.d - x.s else x.d, c := decide (x.s.toNat ≤ x.d.toNat),
                    z := x.d == x.s } := by
  simp only [resCmpsub, BitVec.ule, decide_eq_true_eq]

/-- Settles O20: ADDS and SUBS narrow exact signed values; the C of CMPSUB says whether it subtracts. -/
theorem signedResults : Obligations.SignedResults := by
  intro f s hnat h
  refine ⟨?_, ?_, ?_, ?_⟩
  · simp only [List.forall_mem_cons]
    exact ⟨Laws.EncodingFields.adds f, Laws.EncodingFields.subs f, Laws.EncodingFields.cmpsub f, by simp⟩
  · exact plain_completes_with (i := .adds f) rfl hnat h (resAdds_eq _)
  · exact plain_completes_with (i := .subs f) rfl hnat h (resSubs_eq _)
  · exact plain_completes_with (i := .cmpsub f) rfl hnat h (resCmpsub_eq _)

end Sys2Proof.Machine
end

section
/-! The jumps and the loop instructions (spec/46_native_branch_wait.md R350 to R357): where each goes on, and what it offers. -/

namespace Sys2Proof.Machine

/-! ## The decision -/

/-- The low nine bits of S, as the statements write them (R350). -/
theorem Inputs.field_eq_extractLsb (x : Inputs) : x.field = x.s.extractLsb' 0 9 :=
  BitVec.setWidth_eq_extractLsb' (by decide)

theorem always_eq (x : Inputs) : always x = some (x.s.extractLsb' 0 9) := by
  rw [always, x.field_eq_extractLsb]

theorem takenIf_of_true {test : Inputs → Bool} {x : Inputs} (ht : test x = true) :
    takenIf test x = some (x.s.extractLsb' 0 9) := by
  rw [takenIf, if_pos ht, x.field_eq_extractLsb]

theorem takenIf_of_false {test : Inputs → Bool} {x : Inputs} (ht : test x = false) : takenIf test x = none := by
  rw [takenIf, ht]
  rfl

/-! ## Jumps (R351 to R354) -/

/-- JMPRET replaces the low nine bits of D by the return address (R351). -/
theorem replaceField_return_bit (pc : CogAddr) (x : Inputs) (j : Nat) (hj : j < 32) :
    (replaceField { x with s := (pc + 1).setWidth 32 } 0).getLsbD j =
      if j < 9 then (pc + 1).getLsbD j else x.d.getLsbD j := by
  rw [replaceField_bit _ _ _ (.inl rfl) hj]
  simp [hj]

/-- Each of the four jumps completes in four ticks at the low nine bits of S. -/
theorem jump_completes {i : Instr} {s : State} {c : Bool} (hi : exec i s = branch i s (resJmpret s.unit.pc c) always)
    (hnat : s.native) (h : s.holds i.fields) :
    ∃ (R : Long) (c : Bool),
      (∀ j < 32, R.getLsbD j =
        if j < 9 then (s.unit.pc + 1).getLsbD j else (s.readReg i.fields.d).getLsbD j) ∧
      Completes i s 3 R c (R == 0) ((s.source i.fields.src).extractLsb' 0 9) :=
  ⟨_, c, replaceField_return_bit s.unit.pc (s.inputs i.fields),
    branch_taken_completes (resJmpret s.unit.pc c) always hi hnat h (always_eq _)⟩

/-- Settles O21: the four are one jump, whose literal source in RET is 0. -/
theorem jumpResults : Obligations.JumpResults := by
  intro f s hnat h
  refine ⟨?_, fun _ => ⟨?_, ?_⟩, fun _ => ?_, fun _ hsrc => ?_⟩
  · simp only [List.forall_mem_cons]
    exact ⟨Laws.EncodingFields.jmpret f, Laws.EncodingFields.jmp f, Laws.EncodingFields.call f, Laws.EncodingFields.ret f,
      by simp⟩
  · exact jump_completes (i := .jmpret f) (c := s.anyC) rfl hnat h
  · exact jump_completes (i := .call f) (c := s.anyC) rfl hnat h
  · exact jump_completes (i := .jmp f) (c := s.anyC) rfl hnat h
  · have hzero : (s.source f.src).extractLsb' 0 9 = 0 := by rw [hsrc]; rfl
    rw [← hzero]
    exact jump_completes (i := .ret f) (c := s.anyC) rfl hnat h

/-! ## Loops (R355 to R357) -/

section
variable {i : Instr} {s : State} {rule : Inputs → Result} {test : Inputs → Bool} {r : Long} {c z : Bool}

/-- A loop instruction whose test holds jumps in four ticks. -/
theorem loop_jumps (hi : exec i s = branch i s rule (takenIf test)) (hnat : s.native) (h : s.holds i.fields)
    (ht : test (s.inputs i.fields) = true) (hoffer : rule (s.inputs i.fields) = { r := r, c := c, z := z }) :
    Completes i s 3 r c z ((s.source i.fields.src).extractLsb' 0 9) := by
  have hdone := branch_taken_completes rule (takenIf test) hi hnat h (takenIf_of_true ht)
  rwa [hoffer] at hdone

/-- A loop instruction whose test fails goes on at the following address in eight ticks. -/
theorem loop_falls_through (hi : exec i s = branch i s rule (takenIf test)) (hnat : s.native) (h : s.holds i.fields)
    (ht : test (s.inputs i.fields) = false) (hoffer : rule (s.inputs i.fields) = { r := r, c := c, z := z }) :
    Completes i s 7 r c z (s.unit.pc + 1) := by
  have hdone := branch_not_taken_completes rule (takenIf test) hi hnat h (takenIf_of_false ht)
  rwa [hoffer] at hdone

end

/-- DJNZ above its last round: the result is not 0, and C tells the wrap from 0 (R355). -/
theorem resDjnz_of_ne_one {x : Inputs} (hd : x.d ≠ 1) : resDjnz x = { r := x.d - 1, c := x.d == 0, z := false } := by
  rw [resDjnz, Result.zeroFlag, sub_beq_zero, beq_false_of_ne hd]

theorem resDjnz_of_eq_one {x : Inputs} (hd : x.d = 1) : resDjnz x = { r := 0, c := false, z := true } := by
  rw [resDjnz, hd]
  decide

theorem resTest_of_ne_zero {x : Inputs} (hd : x.d ≠ 0) : resTest x = { r := x.d, c := false, z := false } := by
  rw [resTest, Result.zeroFlag, beq_false_of_ne hd]

theorem resTest_of_eq_zero {x : Inputs} (hd : x.d = 0) : resTest x = { r := x.d, c := false, z := true } := by
  rw [resTest, Result.zeroFlag, beq_iff_eq.2 hd]

/-- The test of DJNZ is on its result, so it fails at D = 1 alone. -/
theorem djnz_test_eq (x : Inputs) : ((resDjnz x).r != 0) = (x.d != 1) := by
  show (!(x.d - 1 == 0)) = !(x.d == 1)
  rw [sub_beq_zero]

/-- Settles O22, by the test of each of the three, true and false. -/
theorem loopResults : Obligations.LoopResults := by
  intro f s hnat h
  refine ⟨?_, fun hd => ?_, fun hd => ?_, fun hd => ?_, fun hd => ?_, fun hd => ?_, fun hd => ?_⟩
  · simp only [List.forall_mem_cons]
    exact ⟨Laws.EncodingFields.djnz f, Laws.EncodingFields.tjnz f, Laws.EncodingFields.tjz f, by simp⟩
  · exact loop_jumps (i := .djnz f) rfl hnat h ((djnz_test_eq _).trans (bne_iff_ne.2 hd)) (resDjnz_of_ne_one hd)
  · exact loop_falls_through (i := .djnz f) rfl hnat h ((djnz_test_eq _).trans (bne_eq_false_iff_eq.2 hd))
      (resDjnz_of_eq_one hd)
  · exact loop_jumps (i := .tjnz f) rfl hnat h (bne_iff_ne.2 hd) (resTest_of_ne_zero hd)
  · exact loop_falls_through (i := .tjnz f) rfl hnat h (bne_eq_false_iff_eq.2 hd) (resTest_of_eq_zero hd)
  · exact loop_jumps (i := .tjz f) rfl hnat h (beq_iff_eq.2 hd) (resTest_of_eq_zero hd)
  · exact loop_falls_through (i := .tjz f) rfl hnat h (beq_false_of_ne hd) (resTest_of_ne_zero hd)

end Sys2Proof.Machine
end

section
/-! The windows of the units by the counter, and the shared bus in a tick (spec/47_hub_arbiter.md R380 to R386, spec/49_video_pll_pins.md
R480 to R486). -/

namespace Sys2Proof.Machine

/-! ## The window ring (R383, R384, R386) -/

/-- An even residue modulo 16 is that of a unit, so a tick without a window is an odd one (R384). -/
theorem window_eq_none {c : Long} : window c = none ↔ c.toNat % 2 = 1 := by
  rw [Option.eq_none_iff_forall_ne_some]
  constructor
  · intro hnone
    by_contra heven
    have howner : window c = some (Fin.ofNat 8 (c.toNat % 16 / 2)) := by
      rw [window_eq_some, Fin.val_ofNat]
      omega
    exact hnone _ howner
  · intro hodd k howner
    rw [window_eq_some] at howner
    omega

/-- The wrap of the counter keeps the residue, as 16 divides 2^32. -/
theorem window_add_eq_some {c : Long} {k : UnitIx} {j : Nat} :
    window (c + BitVec.ofNat 32 j) = some k ↔ (c.toNat + j) % 16 = 2 * k.val := by
  rw [window_eq_some, BitVec.toNat_add, BitVec.toNat_ofNat]
  omega

/-- Settles O41, by the residue of the counter. -/
theorem windowRule : Obligations.WindowRule :=
  fun _ => ⟨fun _ => window_eq_some, window_eq_none⟩

/-- Settles O42: the tick is the distance, modulo 16, from the residue of the counter to that of the unit. -/
theorem oneWindowInSixteenTicks : Obligations.OneWindowInSixteenTicks := by
  intro c k
  have hk := k.isLt
  refine ⟨(2 * k.val + 16 - c.toNat % 16) % 16, Nat.mod_lt _ (by decide), ?_, fun j' hj' howner => ?_⟩
  · rw [window_add_eq_some]
    omega
  · rw [window_add_eq_some] at howner
    omega

/-! ## The input vector (R380, R483, R486) -/

theorem step_pinIn {s t : State} (h : step s = .next t) : t.pinIn = s.sampledPins := by
  obtain ⟨g, q, hg, hq, rfl⟩ := step_eq_next h
  obtain ⟨-, hgrant, -⟩ := hubGrant_clock hg
  obtain ⟨-, hunits, -⟩ := stepUnits_clock _ hq
  exact hunits.trans hgrant

theorem bondedPins_bit_of_le {n : Nat} (hn : 32 ≤ n) : bondedPins.getLsbD n = false :=
  Nat.testBit_lt_two_pow (Nat.lt_of_lt_of_le (by decide : bondedPins.toNat < 2 ^ 32) (Nat.pow_le_pow_right (by decide) hn))

/-- The environment drives no pin that is not bonded (R486, assumption 19). -/
theorem State.drive_bit_of_le (s : State) {n : Nat} (hn : 32 ≤ n) : s.drive.getLsbD n = false := by
  rw [State.drive, BitVec.getLsbD_and, bondedPins_bit_of_le hn, Bool.and_false]

/-- A pin that is neither bonded nor driven reads 0 (R483, R486). -/
theorem State.sampledPins_bit_of_le (s : State) {n : Nat} (hn : 32 ≤ n) (hdir : s.pinDir.getLsbD n = false) :
    s.sampledPins.getLsbD n = false := by
  rw [State.sampledPins, BitVec.getLsbD_or, BitVec.getLsbD_and, BitVec.getLsbD_and, s.drive_bit_of_le hn, hdir,
    Bool.false_and, Bool.and_false, Bool.or_false]

/-! ## The registered pins (R380, R482) -/

/-- The registered pins are those of the units that the tick leaves: its end moves no unit. -/
theorem step_registers {s t : State} (h : step s = .next t) : t.pinOut = t.drivenPins ∧ t.pinDir = t.drivenDirs := by
  obtain ⟨g, q, -, -, rfl⟩ := step_eq_next h
  exact ⟨rfl, rfl⟩

/-- A unit drives a pin high only where it has it as an output (R480, R482). -/
theorem State.drivenPins_bit (s : State) (n : Nat) :
    s.drivenPins.getLsbD n = true ↔ ∃ k : UnitIx, s.units[k].active = true ∧ s.units[k].outputs.getLsbD n = true ∧
      s.units[k].directions.getLsbD n = true := by
  simp only [State.drivenPins, unionUnits_bit, BitVec.getLsbD_and, Bool.and_eq_true]

/-- Settles O45: the start of the tick alone sets the counter and the input vector, and the end registers the union over the
present units. -/
theorem busInATick : Obligations.BusInATick := by
  intro s t h
  have hin := step_pinIn h
  obtain ⟨hout, hdir⟩ := step_registers h
  refine ⟨step_counter h, hin, fun n hn hundriven => ?_, fun n _ => ⟨?_, ?_⟩⟩
  · rw [hin]
    exact s.sampledPins_bit_of_le hn hundriven
  · rw [hout]
    exact t.drivenPins_bit n
  · rw [hdir]
    exact unionUnits_bit t CogUnit.directions n

end Sys2Proof.Machine
end

section
/-! One tick of a counter (spec/48_counter.md R420 to R427): the columns of the mode table, the sixteen LOGIC modes as a truth
table, and the pins to which a counter contributes. -/

namespace Sys2Proof.Machine

/-! ## The mode table (R424) -/

/-- The accumulate condition is the column of the table, compared at each of its 32 rows. -/
theorem accumulates_eq_modeAccumulates :
    ∀ (mode : BitVec 5) (a1 a2 b1 : Bool), accumulates mode a1 a2 b1 = modeAccumulates mode.toNat a1 a2 b1 := by
  decide +kernel

theorem ctrOutputs_eq (mode : BitVec 5) (phs : Long) (carry a1 pll : Bool) :
    ctrOutputs mode phs carry a1 pll = (modeOutA mode.toNat phs carry pll, modeOutB mode.toNat phs carry pll a1) := by
  unfold ctrOutputs
  split
  case h_11 => simp_all [modeOutA, modeOutB]
  all_goals simp [modeOutA, modeOutB, BitVec.msb_eq_getLsbD_last, *]

section
variable (g : Counter) (pins : Pins) (pll : Bool)

/-- The phase after a tick, with the exact sum of the model narrowed. -/
theorem Counter.clock_phs_eq :
    (g.clock pins pll).phs = if accumulates (ctrMode g.ctr) g.a1 g.a2 g.b1 then g.phs + g.frq else g.phs := by
  rw [BitVec.add_def]
  rfl

/-- The outputs after a tick are those of the table from the phase after it. -/
theorem Counter.clock_outputs :
    let carry := accumulates (ctrMode g.ctr) g.a1 g.a2 g.b1 && decide (2 ^ 32 ≤ g.phs.toNat + g.frq.toNat)
    ((g.clock pins pll).outA, (g.clock pins pll).outB) =
      ctrOutputs (ctrMode g.ctr) (g.clock pins pll).phs carry g.a1 pll := rfl

end

/-- Settles O53: the model's accumulate condition and outputs are the columns of the table. -/
theorem counterTick : Obligations.CounterTick := by
  intro g pins pll mode acc carry t
  have hacc : accumulates (ctrMode g.ctr) g.a1 g.a2 g.b1 = acc := accumulates_eq_modeAccumulates _ _ _ _
  have hphs := g.clock_phs_eq pins pll
  have hout := g.clock_outputs pins pll
  rw [hacc] at hphs hout
  obtain ⟨houtA, houtB⟩ := Prod.mk.inj (hout.trans (ctrOutputs_eq _ _ _ _ _))
  exact ⟨hphs, rfl, rfl, houtA, houtB, rfl, rfl, rfl⟩

/-! ## The LOGIC modes (R425) -/

/-- In a LOGIC mode the low four bits of the mode are the truth table, indexed by (B1, A1). -/
theorem accumulates_logic {ctr : Long} (h : ctr.getLsbD 30 = true) (a1 a2 b1 : Bool) :
    accumulates (ctrMode ctr) a1 a2 b1 = ctr.getLsbD (26 + 2 * b1.toNat + a1.toNat) := by
  have hmode (i : Nat) (hi : i < 5) : (ctrMode ctr).getLsbD i = ctr.getLsbD (26 + i) := by
    simp [ctrMode, hi]
  have ha := a1.toNat_le
  have hb := b1.toNat_le
  rw [accumulates, if_pos ((hmode 4 (by decide)).trans h), hmode _ (by omega), Nat.add_assoc]

/-- Settles O54: the phase after the tick, under the truth table. -/
theorem logicModes : Obligations.LogicModes := by
  intro g pins pll hlogic
  have hphs := g.clock_phs_eq pins pll
  rw [accumulates_logic hlogic] at hphs
  exact ⟨(g.clock_phs pins pll).symm, fun hbit => hphs.trans (if_pos hbit),
    fun hbit => hphs.trans (if_neg (Bool.eq_false_iff.1 hbit))⟩

/-! ## The contribution (R420, R422, R427) -/

theorem pinBit_bit (b : Bool) (p : Nat) {n : Nat} (hn : n < 64) :
    (pinBit b p).getLsbD n = true ↔ b = true ∧ p = n := by
  unfold pinBit
  cases b
  · simp
  · simp [hn, eq_comm]

theorem ctrContribution_bit (ctr : Long) (outA outB : Bool) {n : Nat} (hn : n < 64) :
    (ctrContribution ctr outA outB).getLsbD n = true ↔
      (outA = true ∧ apin ctr = n) ∨ (outB = true ∧ bpin ctr = n) := by
  rw [ctrContribution, BitVec.getLsbD_or, Bool.or_eq_true, pinBit_bit _ _ hn, pinBit_bit _ _ hn]

/-- A register write leaves what the counters hold. -/
theorem CogUnit.write_ctr_held (u : CogUnit) (a : CogAddr) (x : Long) :
    (u.write a x).ctrA.held = u.ctrA.held ∧ (u.write a x).ctrB.held = u.ctrB.held := by
  unfold CogUnit.write
  cases locate a <;> exact ⟨rfl, rfl⟩

/-- Settles O55: the bits of the contribution that the tick returns, and the writes that leave it. -/
theorem counterContribution : Obligations.CounterContribution := by
  refine ⟨fun g pins pll n hn => ?_, CogUnit.write_ctr_held⟩
  intro t
  have hheld : t.held = ctrContribution g.ctr t.outA t.outB := g.clock_held pins pll
  rw [hheld]
  exact ctrContribution_bit _ _ _ hn

end Sys2Proof.Machine
end

section
/-! The waveform generator (spec/49_video_pll_pins.md R460 to R467): the four things that a video-clock edge can do, each with its
generator, and the bits of the contribution in the digital modes. -/

namespace Sys2Proof.Machine

/-! ## The counts of VSCL (R464) -/

theorem frameClocks_toNat (vscl : Long) :
    (frameClocks vscl).toNat = if vscl.toNat % 2 ^ 12 = 0 then 4096 else vscl.toNat % 2 ^ 12 := by
  have hfield : (vscl.extractLsb' 0 12).toNat = vscl.toNat % 2 ^ 12 := by simp
  have hzero : vscl.extractLsb' 0 12 = 0 ↔ vscl.toNat % 2 ^ 12 = 0 := by rw [BitVec.toNat_eq, hfield]; rfl
  simp only [frameClocks, hzero]
  split
  · rfl
  · rw [BitVec.toNat_setWidth_of_le (by decide), hfield]

theorem pixelClocks_toNat (vscl : Long) :
    (pixelClocks vscl).toNat = if vscl.toNat / 2 ^ 12 % 2 ^ 8 = 0 then 256 else vscl.toNat / 2 ^ 12 % 2 ^ 8 := by
  have hfield : (vscl.extractLsb' 12 8).toNat = vscl.toNat / 2 ^ 12 % 2 ^ 8 := by
    simp [Nat.shiftRight_eq_div_pow]
  have hzero : vscl.extractLsb' 12 8 = 0 ↔ vscl.toNat / 2 ^ 12 % 2 ^ 8 = 0 := by rw [BitVec.toNat_eq, hfield]; rfl
  simp only [pixelClocks, hzero]
  split
  · rfl
  · rw [BitVec.toNat_setWidth_of_le (by decide), hfield]

/-! ## Pixels and colours (R464) -/

/-- The bits of a pixel: two in the four-colour mode, else one. -/
def pixelWidth (vcfg : Long) : Nat := if vcfg.getLsbD 28 then 2 else 1

/-- A long without its low `w` bits, with its top `w` bits repeated above: each bit is that `w` places up, or at the top the
one that was there. -/
theorem repeatTop_bit (x : Long) {w n j : Nat} (hwidth : w + n = 32) (hj : j < 32) :
    (x.extractLsb' n w ++ x.extractLsb' w n).getLsbD j = x.getLsbD (if j + w < 32 then j + w else j) := by
  rw [BitVec.getLsbD_append]
  by_cases h : j < n
  · have hup : j + w < 32 := by omega
    simp [h, hup, Nat.add_comm w j]
  · have htop : ¬ j + w < 32 := by omega
    have hplace : n + (j - n) = j := by omega
    have hin : j - n < w := by omega
    simp [h, htop, hplace, hin]

theorem nextPixel_bit (vcfg pixels : Long) {j : Nat} (hj : j < 32) :
    (nextPixel vcfg pixels).getLsbD j =
      pixels.getLsbD (if j + pixelWidth vcfg < 32 then j + pixelWidth vcfg else j) := by
  unfold nextPixel pixelWidth cmode
  split
  · exact repeatTop_bit pixels (w := 2) (n := 30) rfl hj
  · exact repeatTop_bit pixels (w := 1) (n := 31) rfl hj

theorem colorByte_eq (vcfg pixels colors : Long) :
    colorByte vcfg pixels colors = colors.extractLsb' (8 * (pixels.toNat % 2 ^ pixelWidth vcfg)) 8 := by
  unfold colorByte pixelWidth cmode
  split <;> simp

/-! ## One video-clock edge (R464, R466) -/

/-- The generator with the output byte of its present pixel. -/
def Video.shown (g : Video) : Video := { g with vidOut := colorByte g.vcfg g.pixels g.colors }

/-- The generator at the start of a frame, with the given data. -/
def Video.startFrame (g : Video) (colors pixels : Long) (ack : Bool) : Video :=
  { g with frameCnt := frameClocks g.vscl, pixelCnt := pixelClocks g.vscl, pixelLen := pixelClocks g.vscl, colors := colors,
           pixels := pixels, vidAck := ack }

section
variable {g : Video} {r : Reload}

/-- The last clock of a frame, with a pending WAITVID that is not acknowledged: its data is taken. -/
theorem Video.edge_of_handover (hframe : g.frameCnt = 1) (hpend : r.pending = true) (hack : g.vidAck = false) :
    g.edge r = (g.startFrame r.opD r.opS true).shown := by
  simp only [Video.edge, sub_eq_zero, if_pos hframe, hpend, hack, Bool.not_false, Bool.and_self, if_true]
  rfl

/-- The last clock of a frame without one: the data is open. -/
theorem Video.edge_of_underrun (hframe : g.frameCnt = 1) (h : ¬(r.pending = true ∧ g.vidAck = false)) :
    g.edge r = (g.startFrame r.anyColors r.anyPixels g.vidAck).shown := by
  have hreload : ¬(r.pending && !g.vidAck) = true := by simpa using h
  simp only [Video.edge, sub_eq_zero, if_pos hframe, if_neg hreload]
  rfl

/-- Within a frame, at the end of a pixel: the next one comes. -/
theorem Video.edge_of_pixelEnd (hframe : g.frameCnt ≠ 1) (hpixel : g.pixelCnt = 1) :
    g.edge r = Video.shown { g with frameCnt := g.frameCnt - 1, pixelCnt := g.nextPixelLen r.pixelFromVscl,
                                    pixels := nextPixel g.vcfg g.pixels } := by
  simp only [Video.edge, sub_eq_zero, if_neg hframe, if_pos hpixel]
  rfl

/-- Within a frame and within a pixel: the counts run down. -/
theorem Video.edge_of_running (hframe : g.frameCnt ≠ 1) (hpixel : g.pixelCnt ≠ 1) :
    g.edge r = Video.shown { g with frameCnt := g.frameCnt - 1, pixelCnt := g.pixelCnt - 1 } := by
  simp only [Video.edge, sub_eq_zero, if_neg hframe, if_neg hpixel]
  rfl

/-- On the last clock of a frame the counts reload, whatever the data. -/
theorem Video.edge_of_lastClock (hframe : g.frameCnt = 1) :
    ∃ colors pixels ack, g.edge r = (g.startFrame colors pixels ack).shown := by
  by_cases h : r.pending = true ∧ g.vidAck = false
  · exact ⟨_, _, _, Video.edge_of_handover hframe h.1 h.2⟩
  · exact ⟨_, _, _, Video.edge_of_underrun hframe h⟩

/-- Within a frame an edge changes the two counts, the pixels and the output byte. -/
theorem Video.edge_of_inFrame (hframe : g.frameCnt ≠ 1) :
    ∃ count pixels, g.edge r =
      Video.shown { g with frameCnt := g.frameCnt - 1, pixelCnt := count, pixels := pixels } := by
  by_cases hpixel : g.pixelCnt = 1
  · exact ⟨_, _, Video.edge_of_pixelEnd hframe hpixel⟩
  · exact ⟨_, _, Video.edge_of_running hframe hpixel⟩

theorem Video.edge_frameCnt_toNat (hg : g.legal = true) :
    (g.edge r).frameCnt.toNat =
      if g.frameCnt = 1 then (if g.vscl.toNat % 2 ^ 12 = 0 then 4096 else g.vscl.toNat % 2 ^ 12)
      else g.frameCnt.toNat - 1 := by
  split
  case isTrue hframe =>
    obtain ⟨_, _, _, hedge⟩ := Video.edge_of_lastClock (r := r) hframe
    rw [hedge]
    exact frameClocks_toNat g.vscl
  case isFalse hframe =>
    obtain ⟨⟨hpos, -⟩, -⟩ := Video.legal_iff.1 hg
    obtain ⟨_, _, hedge⟩ := Video.edge_of_inFrame (r := r) hframe
    rw [hedge]
    exact BitVec.toNat_sub_of_le hpos

/-- The refill of the pixel count, on either reading of the spec (assumption 20). -/
theorem Video.nextPixelLen_toNat (g : Video) (fromVscl : Bool) :
    (g.nextPixelLen fromVscl).toNat = if fromVscl then (pixelClocks g.vscl).toNat else g.pixelLen.toNat := by
  cases fromVscl <;> rfl

/-- A write of VSCL within a frame reaches no further than the length of the coming pixel (assumption 20). -/
theorem Video.edge_withVscl (x : Long) (hframe : g.frameCnt ≠ 1) :
    Video.edge { g with vscl := x } r =
      { g.edge r with vscl := x, pixelCnt := (Video.edge { g with vscl := x } r).pixelCnt } := by
  by_cases hpixel : g.pixelCnt = 1
  · rw [Video.edge_of_pixelEnd (g := { g with vscl := x }) hframe hpixel, Video.edge_of_pixelEnd hframe hpixel]
    rfl
  · rw [Video.edge_of_running (g := { g with vscl := x }) hframe hpixel, Video.edge_of_running hframe hpixel]
    rfl

/-- It does not reach that length where the last frame reload gives it, or where no pixel ends. -/
theorem Video.edge_withVscl_of_fixed (x : Long) (hframe : g.frameCnt ≠ 1)
    (h : r.pixelFromVscl = false ∨ g.pixelCnt ≠ 1) :
    Video.edge { g with vscl := x } r = { g.edge r with vscl := x } := by
  by_cases hpixel : g.pixelCnt = 1
  · have hfixed : r.pixelFromVscl = false := h.resolve_right (not_not.2 hpixel)
    rw [Video.edge_of_pixelEnd (g := { g with vscl := x }) hframe hpixel, Video.edge_of_pixelEnd hframe hpixel, hfixed]
    rfl
  · rw [Video.edge_of_running (g := { g with vscl := x }) hframe hpixel, Video.edge_of_running hframe hpixel]
    rfl

end

/-- The output byte after an edge is that of the pixel after it, and the edge has not changed the colour mode. -/
theorem Video.edge_vidOut (g : Video) (r : Reload) :
    (g.edge r).vidOut =
      (g.edge r).colors.extractLsb' (8 * ((g.edge r).pixels.toNat % 2 ^ pixelWidth g.vcfg)) 8 := by
  rw [← colorByte_eq, ← (g.edge_kept r).1]
  rfl

/-- Settles O56: each clause by the equation of the case that it speaks of. -/
theorem videoEdge : Obligations.VideoEdge := by
  refine ⟨fun g r hg => ⟨Video.edge_frameCnt_toNat hg, fun hframe => ?_, fun hframe hpend hack => ?_,
    fun hframe hopen => ?_, fun hframe => ⟨?_, ?_, ?_, fun hpixel => ?_, fun hpixel => ?_⟩, g.edge_vidOut r, ?_⟩,
    fun g r x hframe => ⟨Video.edge_withVscl_of_fixed x hframe, Video.edge_withVscl x hframe⟩, fun _ _ => rfl⟩
  case refine_1 =>
    obtain ⟨_, _, _, hedge⟩ := Video.edge_of_lastClock (r := r) hframe
    rw [hedge]
    exact ⟨pixelClocks_toNat g.vscl, pixelClocks_toNat g.vscl⟩
  case refine_2 =>
    rw [Video.edge_of_handover hframe hpend hack]
    exact ⟨rfl, rfl, rfl⟩
  case refine_3 =>
    rw [Video.edge_of_underrun hframe hopen]
    exact ⟨rfl, rfl, rfl⟩
  case refine_7 =>
    rw [Video.edge_of_running hframe hpixel]
    exact ⟨rfl, rfl⟩
  case refine_8 =>
    have hlen := g.nextPixelLen_toNat r.pixelFromVscl
    rw [pixelClocks_toNat] at hlen
    rw [Video.edge_of_pixelEnd hframe hpixel]
    refine ⟨hlen, fun hkept => hlen.trans ?_, fun j hj => nextPixel_bit g.vcfg g.pixels hj⟩
    rw [hkept]
    exact ite_self _
  case refine_9 =>
    obtain ⟨hvcfg, hvscl, hlink, -⟩ := g.edge_kept r
    exact ⟨hvcfg, hvscl, hlink⟩
  all_goals
    obtain ⟨_, _, hedge⟩ := Video.edge_of_inFrame (r := r) hframe
    rw [hedge]
    rfl

/-! ## The contribution (R461 to R463, R467) -/

/-- In VGA mode the contribution is the colour byte under VPINS, placed at the pin group. -/
theorem Video.contribution_vga_bit {g : Video} (tick : Nat) (h : vmode g.vcfg = 1) {n : Nat} (hn : n < 64) :
    (g.contribution tick).getLsbD n = true ↔
      n / 8 = vgroup g.vcfg ∧ g.vidOut.getLsbD (n % 8) = true ∧ g.vcfg.getLsbD (n % 8) = true := by
  have hbyte : g.outByte tick = g.vidOut := by rw [Video.outByte, h]; rfl
  have hmod : n % 8 < 8 := Nat.mod_lt _ (by decide)
  rw [Video.contribution, hbyte, BitVec.getLsbD_shiftLeft]
  by_cases hgroup : n / 8 = vgroup g.vcfg
  · have hplace : n - 8 * vgroup g.vcfg = n % 8 := by omega
    have hge : ¬ n < 8 * vgroup g.vcfg := by omega
    simp [hplace, hge, hn, hgroup, hmod, vpins, Nat.lt_trans hmod]
  · have hout : n < 8 * vgroup g.vcfg ∨ 8 ≤ n - 8 * vgroup g.vcfg := by omega
    rcases hout with hlt | hge
    · simp [hlt, hgroup]
    · simp [hgroup, BitVec.getLsbD_of_ge _ _ hge]

/-- After a tick with an edge the contribution is that of the generator it leaves. -/
theorem Video.clock_succ_held (g : Video) (reload : Nat → Reload) (tick m : Nat) :
    (g.clock reload tick (m + 1)).held = (g.clock reload tick (m + 1)).contribution tick := rfl

/-- Settles O57: the contribution after the edges in the two digital modes, and the law of a register write. -/
theorem videoContribution : Obligations.VideoContribution := by
  refine ⟨fun g reload tick m n hn => ?_, CogUnit.write_held⟩
  obtain ⟨hvcfg, -, -⟩ := g.clock_kept reload tick (m + 1)
  refine ⟨g.clock_zero reload tick, hvcfg, fun hdisabled => ?_, fun hvga => ?_⟩
  · rw [Video.clock_succ_held, Video.contribution_disabled tick ((congrArg vmode hvcfg).trans hdisabled)]
    exact BitVec.getLsbD_zero
  · rw [Video.clock_succ_held, Video.contribution_vga_bit tick ((congrArg vmode hvcfg).trans hvga) hn, hvcfg]
    rfl

end Sys2Proof.Machine
end

section
/-! The host's write of cog memory and its set of the program counter (spec/60_exceptions.md R512, R546). -/

namespace Sys2Proof.Machine

section
variable {s : State} {k : UnitIx}

/-- A host call on a present unit changes that slot. -/
theorem hostTell_of_active (change : CogUnit → CogUnit) (h : s.units[k].active = true) :
    hostTell s k change = .next (s.setSlot k (change s.units[k])) :=
  if_pos h

theorem hostWrite_of_active (a : Nat) (x : Long) (h : s.units[k].active = true) :
    hostWrite s k a x = .next (s.setSlot k (s.units[k].write (BitVec.ofNat 9 a) x)) :=
  hostTell_of_active _ h

/-- At an execute tick the instruction at the new program counter is fetched. -/
theorem hostSetPc_at_execute (v : Nat) (h : s.units[k].active = true)
    (hr : s.units[k].pipe.runState = .executingInstruction) :
    hostSetPc s k v = .next (s.setSlot k { s.units[k] with
      pc := BitVec.ofNat 9 v,
      pipe := { s.units[k].pipe with ir := s.units[k].read (s.viewOf k) (BitVec.ofNat 9 v) } }) := by
  rw [hostSetPc, hostTell_of_active _ h, if_pos hr]

end

/-- Settles O60: the two host calls each change their slot alone, to the unit that the equation gives. -/
theorem hostAccess : Obligations.HostAccess := by
  intro s k a v x hactive
  refine ⟨⟨_, hostWrite_of_active a x hactive, s.units_setSlot_self _ k, ?_, rfl,
    fun j hj => s.units_setSlot_of_ne _ k j hj.symm⟩, fun hr => ⟨_, hostSetPc_at_execute v hactive hr, ?_⟩⟩
  · rw [State.units_setSlot_self, CogUnit.write_pipe]
  · rw [State.units_setSlot_self]
    exact ⟨rfl, rfl, rfl, rfl, rfl⟩

end Sys2Proof.Machine
end
